-- ==== Sys2Proof/Word.lean ====
section
/-! DEFINITION. The word types of uncbv-dec (00_scope R7): a byte, a nibble, and a byte sequence. -/

namespace Sys2Proof

/-- An 8-bit byte; bit 0 is the least significant (R7). -/
abbrev Byte := BitVec 8

/-- Half a byte: the fields `H` and `L` of a control byte (R99). -/
abbrev Nibble := BitVec 4

end Sys2Proof
end

