-- ==== Sys2Proof/Config.lean ====
section
/-! DEFINITION. What an implementation fixes (00_scope R5), the named constants (R6), and the free values. -/

namespace Sys2Proof

/-- `CW_ORDER` (R5, R63): which byte of a control word comes first in the stream. -/
inductive ByteOrder where
  | be
  | le
  deriving DecidableEq, Repr, Inhabited

/-- The three reasons `HUFF` may fail (R5, R170). -/
inductive HuffError where
  | invalidCode
  | incompleteTable
  | exhausted
  deriving DecidableEq, Repr, Inhabited

/-- The parameters of a build that are plain data (R5). Each state carries them and no step changes them,
so a statement about every state holds for every value of the parameters (log 1). -/
structure Params where
  /-- `CW_ORDER` (R63). -/
  cwOrder : ByteOrder
  /-- `OUT_MEM_BYTES` (R42). -/
  outMemBytes : Nat
  deriving DecidableEq, Repr

namespace Config

/-! Named constants, R6. -/

/-- `FRAME_HDR_BYTES`: 2 length bytes and 2 reserved bytes (R6, R90). -/
abbrev frameHdrBytes : Nat := 4
/-- `FLAG_LZ`: the number of the LZ bit in the flag byte (R6, R93). -/
abbrev flagLzBit : Nat := 0
/-- `FLAG_HUF`: the number of the Huffman bit in the flag byte (R6, R93). -/
abbrev flagHufBit : Nat := 1
/-- `HUF_HDR_BYTES`: flag byte and 2 bytes of preLzSize (R6, R95). -/
abbrev hufHdrBytes : Nat := 3
/-- `CW_BITS`: token decisions per control word (R6, R27). -/
abbrev cwBits : Nat := 16
/-- `SRUN_BIAS` (R6, R101). -/
abbrev srunBias : Nat := 3
/-- `LRUN_BIAS`, 0x13 (R6, R102). -/
abbrev lrunBias : Nat := 0x13
/-- `OFF_BIAS` (R6, R103). -/
abbrev offBias : Nat := 3
/-- `XLEN_BIAS`, 0x10 (R6, R104). -/
abbrev xlenBias : Nat := 0x10
/-- `IN_MEM_BYTES`: the largest frame (R6, R40). -/
abbrev inMemBytes : Nat := 65539
/-- `MID_MEM_BYTES`: the largest Huffman output (R6, R41). -/
abbrev midMemBytes : Nat := 65535

/-! Open parameters and free values: no value of any of these can be proved. -/

/-- `CW_ORDER` of the machine that comes out of reset (R5, D1): open. -/
opaque cwOrder : ByteOrder

/-- One less than `OUT_MEM_BYTES` of the machine that comes out of reset (R5, D8): open. -/
opaque outMemBytesLessOne : Nat

/-- `OUT_MEM_BYTES` of the machine that comes out of reset: any natural number, at least 1 (R5). -/
abbrev outMemBytes : Nat := outMemBytesLessOne + 1

/-- `HUFF` (R5, R170): for every bitstream and every `n` it yields exactly `n` bytes or one of three errors.
Nothing else is known of it (R175). -/
opaque huff (enc : List Byte) (n : Nat) : Except HuffError { m : List Byte // m.length = n }

/-- The free values of unspecified host reads (U3, U4, U15), numbered by `State.freeIdx` (log 6). -/
opaque freeWord : Nat → BitVec 32

end Config

end Sys2Proof
end

