-- ==== Sys2Proof/Syntax.lean ====
section
/-! DEFINITION. The instructions of uncbv-dec: one constructor per mnemonic of spec/opcode_table.json
(its three BREF rows are one instruction, R100), and the contexts in which bytes are decoded. -/

namespace Sys2Proof

/-- The instruction set: the frame header, the four block modes, the control-word load and the five tokens (R1, R3). -/
inductive Instr where
  /-- `FRAME` (R90, R120): `LEN_LO`, `LEN_HI` and the two reserved bytes, which have no effect (R92). -/
  | frame (lenLo lenHi rsvd0 rsvd1 : Byte)
  /-- `BLK_RAW` (R94, R130): `x` is `FLG[7:2]` (R108). -/
  | blkRaw (x : BitVec 6)
  /-- `BLK_LZ` (R94, R131). -/
  | blkLz (x : BitVec 6)
  /-- `BLK_HUF` (R94, R95, R132): `pre` is preLzSize. -/
  | blkHuf (x : BitVec 6) (pre : BitVec 16)
  /-- `BLK_HUFLZ` (R94, R95, R133). -/
  | blkHufLz (x : BitVec 6) (pre : BitVec 16)
  /-- `CWLOAD` (R97, R141): the two source bytes in stream order. -/
  | cwload (b0 b1 : Byte)
  /-- `LIT` (R98, R143). -/
  | lit (b : Byte)
  /-- `SRUN` (R101, R144). -/
  | srun (l : Nibble) (b : Byte)
  /-- `LRUN` (R102, R145). -/
  | lrun (l : Nibble) (n1 b : Byte)
  /-- `BREFX` (R103, R104, R147). -/
  | brefx (l : Nibble) (o n : Byte)
  /-- `BREF` (R103, R104, R146): `h` is `c[7:4]`, at least 3. -/
  | bref (h l : Nibble) (o : Byte)
  deriving DecidableEq, Repr

/-- What the engine is about to read: the same bytes mean different instructions in different contexts (R105). -/
inductive Context where
  /-- At `IN_MEM[0]`: a frame header (R90). -/
  | header
  /-- At `IN_MEM[4]`: a flag byte, and preLzSize where the Huffman bit is set (R93 to R95). -/
  | flagByte
  /-- In stage LZ with no control bit in hand: a control word (R97). -/
  | controlWord
  /-- In stage LZ with a control bit of 0 (`false`, a literal) or 1 (`true`, a coded token) (R98). -/
  | token (bit : Bool)
  deriving DecidableEq, Repr

/-- Why the decoder refuses: only for want of bytes, since no encoding is illegal (R107). -/
inductive DecodeRefusal where
  /-- Fewer bytes than the instruction has. -/
  | tooFewBytes
  deriving DecidableEq, Repr

end Sys2Proof
end

