-- ==== Sys2Proof/Machine/State.lean ====
section
/-! DEFINITION. The state of uncbv-dec (10_state.md), its reset value (R45), and why a step can stop. -/

namespace Sys2Proof.Machine

/-- `STATE`, the phase of the block (R21). -/
inductive Phase where
  | idle
  | busy
  | done
  | error
  deriving DecidableEq, Repr

/-- `STAGE`, the stage of the run (R22); codes 6 and 7 are never produced (U17). -/
inductive Stage where
  | none
  | frame
  | huff
  | lz
  | raw
  | finish
  deriving DecidableEq, Repr

/-- `SRC_SEL`, the memory the LZ and RAW stages read (R23). -/
inductive SrcSel where
  | inMem
  | midMem
  deriving DecidableEq, Repr

/-- `ERR_KIND` (R181); code 3 is never produced (U17). -/
inductive ErrKind where
  | none
  | formatError
  | decodeError
  deriving DecidableEq, Repr

/-- `ERR_CAUSE` (R182); codes 12 to 15 are never produced (U17). -/
inductive ErrCause where
  | none
  | hdrTrunc
  | payloadTrunc
  | noFlags
  | hufHdrTrunc
  | hufInvalidCode
  | hufIncompleteTable
  | hufExhausted
  | cwTrunc
  | tokenTrunc
  | brefRange
  | capacity
  deriving DecidableEq, Repr

/-- The three address spaces (R60). -/
inductive Space where
  | inMem
  | midMem
  | outMem
  deriving DecidableEq, Repr

/-- A byte memory: (address, byte) pairs, addresses strictly rising; an unlisted address holds no value (R48). -/
abbrev Mem := List Host.Cell

/-- One access of the host to the block (R39, R47, R210). -/
inductive HostMove where
  /-- Write `v` to register number `n` of the port (R39). -/
  | writeReg (n : Nat) (v : BitVec 32)
  /-- Read register number `n` of the port (R39). -/
  | readReg (n : Nat)
  /-- Write a byte through the `IN_MEM` window (R47). -/
  | writeIn (a : Nat) (b : Byte)
  /-- Read a byte through the `OUT_MEM` window (R47). -/
  | readOut (a : Nat)
  /-- The reset event, applied from outside (R210). -/
  | reset
  deriving DecidableEq, Repr

/-- What the host does with its next turn (log 5): it lets the engine move, or it makes a move of its own. -/
inductive HostTurn where
  | pass
  | move (m : HostMove)
  deriving DecidableEq, Repr

/-- The state of the block: the spec's registers and memories, the parameters of the build, and three fields of
the model's own (`hostTurns`, `portData`, `freeIdx`). -/
structure State where
  /-- `STATE` (R21). -/
  state : Phase
  /-- `STAGE` (R22). -/
  stage : Stage
  /-- `SRC_SEL` (R23). -/
  srcSel : SrcSel
  /-- `SRC_POS`, the source cursor, this block's program counter (R24). -/
  srcPos : BitVec 17
  /-- `SRC_END` (R25). -/
  srcEnd : BitVec 17
  /-- `CW`, the control word shift register (R26). -/
  cw : BitVec 16
  /-- `CW_CNT`, the control bits in hand (R27). -/
  cwCnt : BitVec 5
  /-- `OUT_POS`, the output cursor (R28). -/
  outPos : BitVec 32
  /-- `PAYLEN` (R29). -/
  paylen : BitVec 16
  /-- `ERR_KIND` (R30). -/
  errKind : ErrKind
  /-- `ERR_CAUSE` (R30). -/
  errCause : ErrCause
  /-- `IN_LEN` (R32). -/
  inLen : BitVec 32
  /-- `OUT_CAP` (R31). -/
  outCap : BitVec 32
  /-- `OUT_LEN` (R33). -/
  outLen : BitVec 32
  /-- `CONSUMED` (R34). -/
  consumed : BitVec 17
  /-- `FLAGS` (R35). -/
  flags : BitVec 8
  /-- `PRELZ` (R36). -/
  prelz : BitVec 16
  /-- `ERR_POS` (R37). -/
  errPos : BitVec 17
  /-- `IN_MEM` (R40). -/
  inMem : Mem
  /-- `MID_MEM` (R41). -/
  midMem : Mem
  /-- `OUT_MEM` (R42). -/
  outMem : Mem
  /-- The parameters of the build (R5), which no step changes (log 1). -/
  params : Params
  /-- The model's own: the host's coming turns (log 5). -/
  hostTurns : List HostTurn
  /-- The model's own: what the port last answered to a read of the host (log 5). -/
  portData : BitVec 32
  /-- The model's own: how many free values have been drawn (log 6). -/
  freeIdx : Nat
  deriving DecidableEq, Repr

/-- Why the machine stops with a fault. None is an error of the spec: those are taken (R196) and give a next state.
Every fault is SAFE: it stops where the spec's premises are violated or in a state no run reaches. -/
inductive Fault where
  /-- The engine would read a byte nothing has written since reset (R48, U14: the launch violated a premise).
  Raised by a fetch, the FRAME, HUFF and RAW steps and the back-references. Safe. -/
  | noValue (sp : Space) (a : Nat)
  /-- The engine would read an address its memory does not have (R60). No run reaches it. Safe. -/
  | noSuchAddress (sp : Space) (a : Nat)
  /-- `Src(a)` with `a >= SRC_END`, where it is not defined (R66). No run reaches it. Safe. -/
  | pastSourceEnd (a : Nat)
  /-- `STATE = BUSY` with `STAGE = NONE`, for which EngineStep has no case (R22). No run reaches it. Safe. -/
  | noStage
  /-- A block mode asked to act in a stage its sequence does not have (R125). The engine's fetch never asks. Safe. -/
  | stageNotOfMode (stage : Stage)
  deriving DecidableEq, Repr

/-- Why the model gives no meaning. -/
inductive Refusal where
  /-- An arm of exec that has no meaning yet. No arm is left so. Safe. -/
  | notModelled (mnemonic : String)
  /-- Fetched bytes that the decoder refuses. The fetch always lays out enough bytes, so no state reaches it. Safe. -/
  | undecodable (r : DecodeRefusal)
  deriving DecidableEq, Repr

/-- The state right after reset (R45): every register 0, the three memories without a value anywhere. The parameters
are the open constants of Config (log 1); the model's own fields are empty (log 3). -/
def State.reset : State where
  state := .idle
  stage := .none
  srcSel := .inMem
  srcPos := 0
  srcEnd := 0
  cw := 0
  cwCnt := 0
  outPos := 0
  paylen := 0
  errKind := .none
  errCause := .none
  inLen := 0
  outCap := 0
  outLen := 0
  consumed := 0
  flags := 0
  prelz := 0
  errPos := 0
  inMem := []
  midMem := []
  outMem := []
  params := ⟨Config.cwOrder, Config.outMemBytes⟩
  hostTurns := []
  portData := 0
  freeIdx := 0

end Sys2Proof.Machine
end

