-- ==== Sys2Proof/Machine/Flags.lean ====
section
/-! DEFINITION. The flags and codes: the control bits of the LZ stage (R142), the numeric codes of the status fields
(R21, R22, R181, R182) and the `STATUS` view (R30). There are no condition codes (R43). -/

namespace Sys2Proof.Machine

/-- The control bit the next token decision returns, `CW[15]` (R142). -/
def State.controlBit (s : State) : Bool := s.cw.getLsbD 15

/-- `TokenDecision` consumes one control bit: `CW` shifts left by one and `CW_CNT` falls by one (R142). Its
precondition is `CW_CNT > 0`; at 0, which no run reaches, the count stays 0 (log 18). -/
def State.tokenDecision (s : State) : State :=
  { s with cw := s.cw <<< 1, cwCnt := BitVec.ofNat 5 (s.cwCnt.toNat - 1) }

/-- The code of `STATE` in `STATUS[1:0]` (R21, R30). -/
def Phase.code : Phase → BitVec 2
  | .idle => 0
  | .busy => 1
  | .done => 2
  | .error => 3

/-- The code of `STAGE` in `STATUS[6:4]` (R22, R30). -/
def Stage.code : Stage → BitVec 3
  | .none => 0
  | .frame => 1
  | .huff => 2
  | .lz => 3
  | .raw => 4
  | .finish => 5

/-- The code of `ERR_KIND` in `STATUS[9:8]` (R181). -/
def ErrKind.code : ErrKind → BitVec 2
  | .none => 0
  | .formatError => 1
  | .decodeError => 2

/-- The code of `ERR_CAUSE` in `STATUS[15:12]` (R182). -/
def ErrCause.code : ErrCause → BitVec 4
  | .none => 0
  | .hdrTrunc => 1
  | .payloadTrunc => 2
  | .noFlags => 3
  | .hufHdrTrunc => 4
  | .hufInvalidCode => 5
  | .hufIncompleteTable => 6
  | .hufExhausted => 7
  | .cwTrunc => 8
  | .tokenTrunc => 9
  | .brefRange => 10
  | .capacity => 11

/-- The kind each cause belongs to (R182). -/
def ErrCause.kind : ErrCause → ErrKind
  | .none => .none
  | .hdrTrunc => .formatError
  | .payloadTrunc => .formatError
  | .noFlags => .formatError
  | .hufHdrTrunc => .formatError
  | .hufInvalidCode => .decodeError
  | .hufIncompleteTable => .decodeError
  | .hufExhausted => .decodeError
  | .cwTrunc => .decodeError
  | .tokenTrunc => .decodeError
  | .brefRange => .decodeError
  | .capacity => .decodeError

/-- The cause a failure of `HUFF` raises (R173). -/
def huffCause : HuffError → ErrCause
  | .invalidCode => .hufInvalidCode
  | .incompleteTable => .hufIncompleteTable
  | .exhausted => .hufExhausted

/-- `STATUS`: the view of `STATE`, `STAGE`, `ERR_KIND` and `ERR_CAUSE`, reserved bits 0 (R30, U12). -/
def State.statusWord (s : State) : BitVec 32 :=
  (0 : BitVec 16) ++ s.errCause.code ++ (0 : BitVec 2) ++ s.errKind.code ++ (0 : BitVec 1) ++ s.stage.code
    ++ (0 : BitVec 2) ++ s.state.code

end Sys2Proof.Machine
end

