-- ==== Sys2Proof/WellFormed.lean ====
section
/-! DEFINITION. Which instruction terms stand for an encoding: all of them but a `BREF` whose `H` is another token's (R100). -/

namespace Sys2Proof

/-- A `BREF` has `H >= 3` (R100, R104); every other term is an encoding as it stands (R107). -/
def Instr.wellFormed : Instr → Bool
  | .bref h _ _ => decide (3 ≤ h.toNat)
  | .frame _ _ _ _ => true
  | .blkRaw _ => true
  | .blkLz _ => true
  | .blkHuf _ _ => true
  | .blkHufLz _ _ => true
  | .cwload _ _ => true
  | .lit _ => true
  | .srun _ _ => true
  | .lrun _ _ _ => true
  | .brefx _ _ _ => true

end Sys2Proof
end

