-- ==== Sys2Proof/Decode.lean ====
section
/-! DEFINITION. The decoder, total on any bytes in every context (R93 to R105), the encoder written from the
same tables, and the reading of a table word. -/

namespace Sys2Proof

/-- `c[7:4]`, the high nibble `H` (R99). -/
def highNibble (c : Byte) : Nibble := c.extractLsb' 4 4

/-- `c[3:0]`, the low nibble `L` (R99). -/
def lowNibble (c : Byte) : Nibble := c.extractLsb' 0 4

/-- `FLG[7:2]` (R93). -/
def flagRest (flg : Byte) : BitVec 6 := flg.extractLsb' 2 6

/-- `FLG[0]`, the LZ bit, at `FLAG_LZ` (R6, R93). -/
def flagLz (flg : Byte) : Bool := flg.getLsbD Config.flagLzBit

/-- `FLG[1]`, the Huffman bit, at `FLAG_HUF` (R6, R93). -/
def flagHuf (flg : Byte) : Bool := flg.getLsbD Config.flagHufBit

/-- The flag byte from its fields: `FLG[7:2]`, `FLG[1]`, `FLG[0]` (R93). -/
def flagByte (x : BitVec 6) (huf lz : Bool) : Byte := x ++ BitVec.ofBool huf ++ BitVec.ofBool lz

/-- `preLzSize` is big-endian: `payload[1]` is the high byte (R62, R95). -/
def preLzSize (p q : Byte) : BitVec 16 := p ++ q

/-- The high byte of a 16-bit number. -/
def highByte (v : BitVec 16) : Byte := v.extractLsb' 8 8

/-- The low byte of a 16-bit number. -/
def lowByte (v : BitVec 16) : Byte := v.extractLsb' 0 8

/-- The block mode that the two flag bits select (R94). -/
def blockInstr (huf lz : Bool) (x : BitVec 6) (pre : BitVec 16) : Instr :=
  match huf, lz with
  | false, false => .blkRaw x
  | false, true => .blkLz x
  | true, false => .blkHuf x pre
  | true, true => .blkHufLz x pre

/-- The length in bytes of the coded token whose first byte is `c` (R98, R105): 3 for `H = 1` and `H = 2`, else 2. -/
def codedLength (c : Byte) : Nat :=
  if highNibble c = 1 ∨ highNibble c = 2 then 3 else 2

/-- Decode a coded token from its control byte `c` and the bytes after it (R100). -/
def decodeCoded (c : Byte) (operands : List Byte) : Except DecodeRefusal (Instr × List Byte) :=
  if highNibble c = 0 then
    match operands with
    | b :: rest => .ok (.srun (lowNibble c) b, rest)
    | _ => .error .tooFewBytes
  else if highNibble c = 1 then
    match operands with
    | n1 :: b :: rest => .ok (.lrun (lowNibble c) n1 b, rest)
    | _ => .error .tooFewBytes
  else if highNibble c = 2 then
    match operands with
    | o :: n :: rest => .ok (.brefx (lowNibble c) o n, rest)
    | _ => .error .tooFewBytes
  else
    match operands with
    | o :: rest => .ok (.bref (highNibble c) (lowNibble c) o, rest)
    | _ => .error .tooFewBytes

/-- Decode a flag byte, with preLzSize where the Huffman bit is set (R93 to R95). -/
def decodeFlag (flg : Byte) (rest : List Byte) : Except DecodeRefusal (Instr × List Byte) :=
  if flagHuf flg then
    match rest with
    | p :: q :: rest => .ok (blockInstr true (flagLz flg) (flagRest flg) (preLzSize p q), rest)
    | _ => .error .tooFewBytes
  else .ok (blockInstr false (flagLz flg) (flagRest flg) 0, rest)

/-- The decoder: the instruction the bytes begin with in a context, and the bytes after it. -/
def decode (ctx : Context) (bytes : List Byte) : Except DecodeRefusal (Instr × List Byte) :=
  match ctx with
  | .header =>
    match bytes with
    | lo :: hi :: r0 :: r1 :: rest => .ok (.frame lo hi r0 r1, rest)
    | _ => .error .tooFewBytes
  | .flagByte =>
    match bytes with
    | flg :: rest => decodeFlag flg rest
    | _ => .error .tooFewBytes
  | .controlWord =>
    match bytes with
    | b0 :: b1 :: rest => .ok (.cwload b0 b1, rest)
    | _ => .error .tooFewBytes
  | .token false =>
    match bytes with
    | b :: rest => .ok (.lit b, rest)
    | _ => .error .tooFewBytes
  | .token true =>
    match bytes with
    | c :: rest => decodeCoded c rest
    | _ => .error .tooFewBytes

/-- The context an instruction is decoded in (R90 to R98). -/
def Instr.context : Instr → Context
  | .frame _ _ _ _ => .header
  | .blkRaw _ => .flagByte
  | .blkLz _ => .flagByte
  | .blkHuf _ _ => .flagByte
  | .blkHufLz _ _ => .flagByte
  | .cwload _ _ => .controlWord
  | .lit _ => .token false
  | .srun _ _ => .token true
  | .lrun _ _ _ => .token true
  | .brefx _ _ _ => .token true
  | .bref _ _ _ => .token true

/-- The bytes of an instruction in stream order (R90, R93, R95, R97, R98). -/
def encode : Instr → List Byte
  | .frame lo hi r0 r1 => [lo, hi, r0, r1]
  | .blkRaw x => [flagByte x false false]
  | .blkLz x => [flagByte x false true]
  | .blkHuf x pre => [flagByte x true false, highByte pre, lowByte pre]
  | .blkHufLz x pre => [flagByte x true true, highByte pre, lowByte pre]
  | .cwload b0 b1 => [b0, b1]
  | .lit b => [b]
  | .srun l b => [(0 : Nibble) ++ l, b]
  | .lrun l n1 b => [(1 : Nibble) ++ l, n1, b]
  | .brefx l o n => [(2 : Nibble) ++ l, o, n]
  | .bref h l o => [h ++ l, o]

/-- An instruction's length in bytes (R90, R105). -/
def Instr.byteLength : Instr → Nat
  | .frame _ _ _ _ => Config.frameHdrBytes
  | .blkRaw _ => 1
  | .blkLz _ => 1
  | .blkHuf _ _ => Config.hufHdrBytes
  | .blkHufLz _ _ => Config.hufHdrBytes
  | .cwload _ _ => 2
  | .lit _ => 1
  | .srun _ _ => 2
  | .lrun _ _ _ => 3
  | .brefx _ _ _ => 3
  | .bref _ _ _ => 2

/-- The first `n` bytes of a word whose bit 0 is the least significant bit of the first byte. -/
def wordBytes : Nat → Nat → List Byte
  | 0, _ => []
  | n + 1, w => BitVec.ofNat 8 w :: wordBytes n (w / 256)

/-- The context in which a word of the opcode table is read (DESIGN CHOICE, log 9): the table's rows overlap,
because on the machine STAGE, CW_CNT and CW[15] tell them apart (R105). A word of 32 bits, or one the table gives
no bits at all, is a frame header; one of 8 or 24 bits whose first byte is 0 to 3 is a flag byte; any other word
is a coded token. -/
def tableContext (nbits w : Nat) : Context :=
  if nbits = 0 ∨ 32 ≤ nbits then .header
  else if nbits ≠ 16 ∧ w % 256 < 4 then .flagByte
  else .token true

/-- The instruction the decoder reads from a word numbered as spec/opcode_table.json numbers it,
every bit at or above `nbits` being 0. -/
def decodeTableWord (nbits w : Nat) : Option Instr :=
  match decode (tableContext nbits w) (wordBytes 4 (w % 2 ^ (if nbits = 0 then 32 else nbits))) with
  | .ok (i, _) => some i
  | .error _ => none

end Sys2Proof
end

