-- ==== Sys2Proof/Machine/Operands.lean ====
section
/-! DEFINITION. Operand assembly: the multi-byte fields (R61 to R63) and the lengths and offsets of the tokens
(R101 to R104), all exact natural numbers (R7, R8, R158). -/

namespace Sys2Proof.Machine

/-- `payloadLength` is little-endian: `LEN_LO + (LEN_HI << 8)` (R61, R91). -/
def payloadLength (lo hi : Byte) : BitVec 16 := hi ++ lo

/-- The control word: `CW_ORDER` says which of its two bytes is the high one (R63). -/
def controlWord (order : ByteOrder) (b0 b1 : Byte) : BitVec 16 :=
  match order with
  | .be => b0 ++ b1
  | .le => b1 ++ b0

/-- The length of an `SRUN`: `L + SRUN_BIAS`, 3 to 18 (R101). -/
def srunLength (l : Nibble) : Nat := l.toNat + Config.srunBias

/-- The length of an `LRUN`: `L + 16 * n1 + LRUN_BIAS`, 19 to 4114 (R102); the shift does not truncate (R7). -/
def lrunLength (l : Nibble) (n1 : Byte) : Nat := l.toNat + 16 * n1.toNat + Config.lrunBias

/-- The offset of a back-reference: `16 * o + L + OFF_BIAS`, 3 to 4098 (R103). -/
def brefOffset (l : Nibble) (o : Byte) : Nat := 16 * o.toNat + l.toNat + Config.offBias

/-- The length of a `BREF`: `H`, 3 to 15 (R104). -/
def brefLength (h : Nibble) : Nat := h.toNat

/-- The length of a `BREFX`: `n + XLEN_BIAS`, 16 to 271 (R104). -/
def brefxLength (n : Byte) : Nat := n.toNat + Config.xlenBias

end Sys2Proof.Machine
end

