-- ==== Sys2Proof/Machine/Ops.lean ====
section
/-! DEFINITION. The named operations over memory and registers: byte reads and writes (20_memory.md), the error
entry (R196), the emitting loops (R68, R148), and the start and clear of a run (R38, R46). -/

namespace Sys2Proof.Machine

/-- The outcome of an instruction or a step. -/
abbrev Result := Host.Outcome State Fault Refusal

/-- Go on with the value of a read, or stop with its fault. -/
def andThen {α : Type} (r : Except Fault α) (k : α → Result) : Result :=
  match r with
  | .ok v => k v
  | .error f => .fault f

/-! Memory. -/

/-- The byte at an address, `none` where nothing has been written (R48). -/
def Mem.read : Mem → Nat → Option Byte
  | [], _ => none
  | (a, b) :: rest, k => if a = k then some b else Mem.read rest k

/-- Write one byte; every other byte keeps its value (R67). The canonical form is kept. -/
def Mem.write : Mem → Nat → Byte → Mem
  | [], k, v => [(k, v)]
  | (a, b) :: rest, k, v =>
    if k < a then (k, v) :: (a, b) :: rest
    else if k = a then (k, v) :: rest
    else (a, b) :: Mem.write rest k v

/-- The canonical form: addresses strictly rising. -/
abbrev Mem.wf (m : Mem) : Prop := m.Pairwise (fun p q => p.1 < q.1)

/-- The memory of a space (R60). -/
def State.memory (s : State) : Space → Mem
  | .inMem => s.inMem
  | .midMem => s.midMem
  | .outMem => s.outMem

/-- The size of a space in bytes (R60). -/
def State.spaceSize (s : State) : Space → Nat
  | .inMem => Config.inMemBytes
  | .midMem => Config.midMemBytes
  | .outMem => s.params.outMemBytes

/-- `MemRead(S, a, 1)` (R9): a byte with no value faults (R48, U14), and so does an address the space lacks (R60). -/
def memRead (sp : Space) (a : Nat) (s : State) : Except Fault Byte :=
  if a < s.spaceSize sp then
    match (s.memory sp).read a with
    | some b => .ok b
    | none => .error (.noValue sp a)
  else .error (.noSuchAddress sp a)

/-- The space `SRC_SEL` selects (R23). -/
def SrcSel.space : SrcSel → Space
  | .inMem => .inMem
  | .midMem => .midMem

/-- `Src(a)`, defined for `a < SRC_END` only (R66). -/
def readSrc (a : Nat) (s : State) : Except Fault Byte :=
  if a < s.srcEnd.toNat then memRead s.srcSel.space a s else .error (.pastSourceEnd a)

/-- The `n` source bytes from address `a` on, in increasing order (R73). -/
def readSrcBytes (s : State) : Nat → Nat → Except Fault (List Byte)
  | _, 0 => .ok []
  | a, n + 1 =>
    match readSrc a s with
    | .error f => .error f
    | .ok b =>
      match readSrcBytes s (a + 1) n with
      | .error f => .error f
      | .ok bs => .ok (b :: bs)

/-- The `n` bytes of `IN_MEM` from address `a` on (R171). -/
def readInBytes (s : State) : Nat → Nat → Except Fault (List Byte)
  | _, 0 => .ok []
  | a, n + 1 =>
    match memRead .inMem a s with
    | .error f => .error f
    | .ok b =>
      match readInBytes s (a + 1) n with
      | .error f => .error f
      | .ok bs => .ok (b :: bs)

/-! Registers. -/

/-- The source bytes left, `SRC_END - SRC_POS` (R66). -/
def State.srcLeft (s : State) : Nat := s.srcEnd.toNat - s.srcPos.toNat

/-- `ECAP = min(OUT_CAP, OUT_MEM_BYTES)` (R69). -/
def State.ecap (s : State) : Nat := min s.outCap.toNat s.params.outMemBytes

/-- `SRC_POS <- SRC_POS + k` (R24). -/
def State.advanceSrc (s : State) (k : Nat) : State :=
  { s with srcPos := BitVec.ofNat 17 (s.srcPos.toNat + k) }

/-- `STAGE <- g` (R125). -/
def State.setStage (s : State) (g : Stage) : State := { s with stage := g }

/-- `Emit(v)`: write the byte at `OUT_POS`, then advance `OUT_POS` by one (R68). -/
def State.emit (s : State) (v : Byte) : State :=
  { s with outMem := s.outMem.write s.outPos.toNat v, outPos := BitVec.ofNat 32 (s.outPos.toNat + 1) }

/-! Errors: this hardware's exceptions. -/

/-- What the error entry saves and changes (R196): exactly these six registers. -/
def State.errorEntry (s : State) (kind : ErrKind) (cause : ErrCause) : State :=
  { s with
    errKind := kind
    errCause := cause
    errPos := if s.stage = .lz ∨ s.stage = .raw then s.srcPos else 0
    outLen := 0
    consumed := 0
    state := .error }

/-- `raise FormatError(cause)` or `raise DecodeError(cause)` (R180, R196); the cause decides the kind (R182). -/
def raise (cause : ErrCause) (s : State) : Result := .next (s.errorEntry cause.kind cause)

/-- The per-run registers of R46 at their initial values, with the `STAGE` and `STATE` given. -/
def State.initRun (s : State) (g : Stage) (p : Phase) : State :=
  { s with
    stage := g
    srcSel := .inMem
    srcPos := 0
    srcEnd := 0
    cw := 0
    cwCnt := 0
    outPos := 0
    paylen := 0
    errKind := .none
    errCause := .none
    errPos := 0
    outLen := 0
    consumed := 0
    flags := 0
    prelz := 0
    state := p }

/-- An accepted `START`: a new run in stage FRAME (R46). -/
def State.startRun (s : State) : State := s.initRun .frame .busy

/-- An accepted `CLEAR`, the return from an error or from `DONE` (R38, R46, R198). -/
def State.clearRun (s : State) : State := s.initRun .none .idle

/-! The emitting loops. -/

/-- `for j in 0 .. n-1: Emit(b)` (R144, R145). -/
def State.emitRun (s : State) (b : Byte) : Nat → State
  | 0 => s
  | n + 1 => (s.emit b).emitRun b n

/-- The capacity check of a step that will emit `n` bytes (R69): it goes on, or raises `CAPACITY` with nothing written. -/
def withCapacity (n : Nat) (s : State) (k : Result) : Result :=
  if s.outPos.toNat + n ≤ s.ecap then k else raise .capacity s

/-- A token that emits `length` copies of `b` and takes `k` source bytes (R143 to R145). -/
def runToken (length : Nat) (b : Byte) (k : Nat) (s : State) : Result :=
  withCapacity length s (.next ((s.emitRun b length).advanceSrc k))

/-- The copy loop of a back-reference (R148), `n` iterations: each reads `OUT_MEM[OUT_POS - offset]`, which is
`OUT_MEM[p - offset + j]`, and emits it before the next read. -/
def copyLoop (offset : Nat) : Nat → State → Except Fault State
  | 0, s => .ok s
  | n + 1, s =>
    match memRead .outMem (s.outPos.toNat - offset) s with
    | .error f => .error f
    | .ok v => copyLoop offset n (s.emit v)

/-- `BackCopy(offset, length)` (R148), then the cursor past the token's `k` bytes: range first, then capacity (R151). -/
def backCopy (offset length k : Nat) (s : State) : Result :=
  if s.outPos.toNat < offset then raise .brefRange s
  else withCapacity length s (andThen (copyLoop offset length s) fun t => .next (t.advanceSrc k))

/-- A coded token of `k` bytes: the control bit is consumed (R140, R142), then the bytes must lie below `SRC_END` (R151). -/
def codedToken (k : Nat) (s : State) (body : State → Result) : Result :=
  if s.srcLeft < k then raise .tokenTrunc s.tokenDecision else body s.tokenDecision

/-- `for j in 0 .. n-1: Emit(Src(a + j))` (R127). -/
def rawLoop : Nat → Nat → State → Except Fault State
  | _, 0, s => .ok s
  | a, n + 1, s =>
    match readSrc a s with
    | .error f => .error f
    | .ok v => rawLoop (a + 1) n (s.emit v)

/-- `MID_MEM[i + j] <- m[j]` for each byte of `m`, in order (R172). -/
def Mem.writeList : Mem → Nat → List Byte → Mem
  | mem, _, [] => mem
  | mem, i, b :: bs => Mem.writeList (mem.write i b) (i + 1) bs

end Sys2Proof.Machine
end

