-- ==== Sys2Proof/Machine/Fetch.lean ====
section
/-! DEFINITION. Fetching an instruction: which context the engine decodes in and which bytes it reads (R92, R105, R140),
and the placing of an instruction where the next step fetches it. -/

namespace Sys2Proof.Machine

/-- What a fetch gives the decoder. -/
abbrev Fetched := Context × List Byte

/-- The frame header (R120): bytes 0 and 1, read only when `IN_LEN` says the header is there. The reserved bytes are
never read (R92); they are handed to the decoder as zeros (log 21). -/
def fetchHeader (s : State) : Except Fault (List Byte) :=
  if s.inLen.toNat < Config.frameHdrBytes then .ok [0, 0, 0, 0]
  else
    match memRead .inMem 0 s with
    | .error f => .error f
    | .ok lo =>
      match memRead .inMem 1 s with
      | .error f => .error f
      | .ok hi => .ok [lo, hi, 0, 0]

/-- `n` bytes at the source cursor, or `n` zeros, unread, when they are not all there: the meaning then raises its
truncation error and uses none of them (R141, R151; log 11). -/
def fetchSource (n a : Nat) (s : State) : Except Fault (List Byte) :=
  if s.srcEnd.toNat - a < n then .ok (List.replicate n 0) else readSrcBytes s a n

/-- A coded token: its control byte, then as many operand bytes as that byte asks for (R105). -/
def fetchCoded (s : State) : Except Fault (List Byte) :=
  match readSrc s.srcPos.toNat s with
  | .error f => .error f
  | .ok c =>
    match fetchSource (codedLength c - 1) (s.srcPos.toNat + 1) s with
    | .error f => .error f
    | .ok operands => .ok (c :: operands)

/-- The next item of the LZ stream, source bytes being left (R140): a control word when no control bit is in hand,
else a literal or a coded token as the control bit says. -/
def fetchLz (s : State) : Except Fault Fetched :=
  if s.cwCnt = 0 then (fetchSource 2 s.srcPos.toNat s).map (Prod.mk .controlWord)
  else if s.controlBit then (fetchCoded s).map (Prod.mk (.token true))
  else (readSrcBytes s s.srcPos.toNat 1).map (Prod.mk (.token false))

/-- The block mode in progress, read back from the latched `FLAGS` and `PRELZ` (R35, R36, R123; log 10). -/
def latchedBlock (huf lz : Bool) (s : State) : Fetched :=
  (.flagByte, [flagByte (flagRest s.flags) huf lz, highByte s.prelz, lowByte s.prelz])

/-- The fetch (EngineStep): `STAGE` selects what is read (R22). Stages HUFF, RAW and FINISH and the end of stage LZ
have no bytes of their own; there the block mode goes on. A stage that only one value of a flag bit leads to (R125)
stands for that bit. -/
def fetch (s : State) : Except Fault Fetched :=
  match s.stage with
  | .none => .error .noStage
  | .frame => (fetchHeader s).map (Prod.mk .header)
  | .huff => .ok (latchedBlock true (flagLz s.flags) s)
  | .lz => if s.srcPos = s.srcEnd then .ok (latchedBlock (flagHuf s.flags) true s) else fetchLz s
  | .raw => .ok (latchedBlock (flagHuf s.flags) false s)
  | .finish => .ok (latchedBlock (flagHuf s.flags) (flagLz s.flags) s)

/-- Decode what was fetched and go on with the instruction. -/
def withDecoded (f : Fetched) (k : Instr → Result) : Result :=
  match decode f.1 f.2 with
  | .ok (i, _) => k i
  | .error r => .refused (.undecodable r)

/-! Placing an instruction for the next step (log 8). -/

/-- A run in stage LZ whose source is exactly `bytes`, at `IN_MEM[5]` on (R126), with these control bits in hand. -/
def placeStream (s : State) (bytes : List Byte) (cw : BitVec 16) (cnt : BitVec 5) : State :=
  { s.startRun with
    stage := .lz
    srcPos := BitVec.ofNat 17 (Config.frameHdrBytes + 1)
    srcEnd := BitVec.ofNat 17 (Config.frameHdrBytes + 1 + bytes.length)
    cw := cw
    cwCnt := cnt
    inMem := s.inMem.writeList (Config.frameHdrBytes + 1) bytes }

/-- A frame whose header and flag byte the FRAME step has taken, in the first stage of its mode after FRAME (R125). -/
def placeBlock (s : State) (flg : Byte) (pre : BitVec 16) (g : Stage) : State :=
  if flagHuf flg then
    { s.startRun with
      stage := g, flags := flg, prelz := pre, paylen := BitVec.ofNat 16 Config.hufHdrBytes, srcSel := .midMem
      srcEnd := pre.setWidth 17 }
  else
    { s.startRun with
      stage := g, flags := flg, paylen := 1, srcPos := BitVec.ofNat 17 (Config.frameHdrBytes + 1)
      srcEnd := BitVec.ofNat 17 (Config.frameHdrBytes + 1) }

/-- The instruction placed where the next step fetches it, the run having begun. -/
def placeInstr (s : State) (i : Instr) : State :=
  match i with
  | .frame _ _ _ _ => { s.startRun with inLen := BitVec.ofNat 32 Config.frameHdrBytes, inMem := s.inMem.writeList 0 (encode i) }
  | .blkRaw x => placeBlock s (flagByte x false false) 0 .raw
  | .blkLz x => placeBlock s (flagByte x false true) 0 .lz
  | .blkHuf x pre => placeBlock s (flagByte x true false) pre .huff
  | .blkHufLz x pre => placeBlock s (flagByte x true true) pre .huff
  | .cwload _ _ => placeStream s (encode i) 0 0
  | .lit _ => placeStream s (encode i) 0 1
  | .srun _ _ => placeStream s (encode i) 0x8000 1
  | .lrun _ _ _ => placeStream s (encode i) 0x8000 1
  | .brefx _ _ _ => placeStream s (encode i) 0x8000 1
  | .bref _ _ _ => placeStream s (encode i) 0x8000 1

end Sys2Proof.Machine
end

