-- ==== Sys2Proof/Machine/Tokens.lean ====
section
/-! DEFINITION. The meanings of CWLOAD and the five tokens, and the LZ step that selects them (41_lz_tokens.md). -/

namespace Sys2Proof.Machine

/-- `CWLOAD` (R141). -/
def execCwload (b0 b1 : Byte) (s : State) : Result :=
  if s.srcLeft < 2 then raise .cwTrunc s
  else .next ({ s with cw := controlWord s.params.cwOrder b0 b1, cwCnt := BitVec.ofNat 5 Config.cwBits }.advanceSrc 2)

/-- `LIT` (R143): never cut short, so only the capacity is checked. -/
def execLit (b : Byte) (s : State) : Result := runToken 1 b 1 s.tokenDecision

/-- `SRUN` (R144). -/
def execSrun (l : Nibble) (b : Byte) (s : State) : Result := codedToken 2 s (runToken (srunLength l) b 2)

/-- `LRUN` (R145). -/
def execLrun (l : Nibble) (n1 b : Byte) (s : State) : Result := codedToken 3 s (runToken (lrunLength l n1) b 3)

/-- `BREF` (R146). -/
def execBref (h l : Nibble) (o : Byte) (s : State) : Result :=
  codedToken 2 s (backCopy (brefOffset l o) (brefLength h) 2)

/-- `BREFX` (R147). -/
def execBrefx (l : Nibble) (o n : Byte) (s : State) : Result :=
  codedToken 3 s (backCopy (brefOffset l o) (brefxLength n) 3)

/-- The item of the LZ stream that was fetched (R140); a fetch in stage LZ gives no other instruction. -/
def execLzItem (i : Instr) (s : State) : Result :=
  match i with
  | .cwload b0 b1 => execCwload b0 b1 s
  | .lit b => execLit b s
  | .srun l b => execSrun l b s
  | .lrun l n1 b => execLrun l n1 b s
  | .brefx l o n => execBrefx l o n s
  | .bref h l o => execBref h l o s
  | .frame _ _ _ _ => .fault (.stageNotOfMode s.stage)
  | .blkRaw _ => .fault (.stageNotOfMode s.stage)
  | .blkLz _ => .fault (.stageNotOfMode s.stage)
  | .blkHuf _ _ => .fault (.stageNotOfMode s.stage)
  | .blkHufLz _ _ => .fault (.stageNotOfMode s.stage)

/-- One step of stage LZ (R140): the end test first (R153), then a control word, then a token. -/
def lzStep (s : State) : Result :=
  if s.srcPos = s.srcEnd then .next (s.setStage .finish)
  else andThen (fetchLz s) fun f => withDecoded f fun i => execLzItem i s

end Sys2Proof.Machine
end

