-- ==== Sys2Proof/Machine/Blocks.lean ====
section
/-! DEFINITION. The meanings of FRAME and the four block modes, and the stage steps they run: FRAME (R120), HUFF (R176),
RAW (R127) and FINISH (R129). -/

namespace Sys2Proof.Machine

/-- The header part of the FRAME step (R120, R121): `HDR_TRUNC`, `PAYLEN`, `PAYLOAD_TRUNC`, `NO_FLAGS`, in that order;
then the flag byte is present and the step goes on. DESIGN CHOICE (log 25): the checks stand for every frame as R120 writes
them, also for the example frame of R131, which declares more payload than it holds and so raises `PAYLOAD_TRUNC` here. -/
def frameHeader (lo hi : Byte) (s : State) (k : State → Result) : Result :=
  if s.inLen.toNat < Config.frameHdrBytes then raise .hdrTrunc s
  else
    let t := { s with paylen := payloadLength lo hi }
    if t.inLen.toNat < Config.frameHdrBytes + t.paylen.toNat then raise .payloadTrunc t
    else if t.paylen = 0 then raise .noFlags t
    else k t

/-- The source of a frame without the Huffman bit: `payload[1:]` in `IN_MEM` (R126), and the stage the LZ bit selects (R123). -/
def State.enterPlain (s : State) : State :=
  { s with
    srcSel := .inMem
    srcPos := BitVec.ofNat 17 (Config.frameHdrBytes + 1)
    srcEnd := BitVec.ofNat 17 (Config.frameHdrBytes + s.paylen.toNat)
    stage := if flagLz s.flags then .lz else .raw }

/-- The source of a frame with the Huffman bit: the `PRELZ` bytes the HUFF stage will write to `MID_MEM` (R124, R126). -/
def State.enterHuffman (s : State) (pre : BitVec 16) : State :=
  { s with prelz := pre, srcSel := .midMem, srcPos := 0, srcEnd := pre.setWidth 17, stage := .huff }

/-- The Huffman part of the FRAME step (R120): `HUF_HDR_TRUNC`, or `PRELZ` and the source. -/
def huffmanHeader (s : State) (k : State → Result) : Result :=
  if s.paylen.toNat < Config.hufHdrBytes then raise .hufHdrTrunc s else k s

/-- The flag part of the FRAME step (R120, R122, R123), the flag byte and preLzSize read from `IN_MEM`. -/
def frameFlags (s : State) : Result :=
  andThen (memRead .inMem Config.frameHdrBytes s) fun flg =>
    let t := { s with flags := flg }
    if flagHuf flg then
      huffmanHeader t fun t =>
        andThen (memRead .inMem (Config.frameHdrBytes + 1) t) fun p =>
          andThen (memRead .inMem (Config.frameHdrBytes + 2) t) fun q => .next (t.enterHuffman (preLzSize p q))
    else .next t.enterPlain

/-- `FRAME` (R120): the whole FRAME step. The reserved bytes have no effect (R92). -/
def execFrame (lenLo lenHi _rsvd0 _rsvd1 : Byte) (s : State) : Result := frameHeader lenLo lenHi s frameFlags

/-- The FRAME stage of a block mode: the header read from `IN_MEM` as the fetch reads it (R120), then the flag byte
`flg` of the mode. -/
def blockFrame (flg : Byte) (s : State) (k : State → Result) : Result :=
  andThen (fetchHeader s) fun bytes =>
    match bytes with
    | lo :: hi :: _ => frameHeader lo hi s fun t => k { t with flags := flg }
    | _ => .refused (.undecodable .tooFewBytes)

/-- The HUFF step (R171, R172, R176): `HUFF` on `payload[3:]`, its bytes to `MID_MEM`, then the stage the LZ bit selects. -/
def huffStep (after : Stage) (s : State) : Result :=
  andThen (readInBytes s (Config.frameHdrBytes + Config.hufHdrBytes) (s.paylen.toNat - Config.hufHdrBytes)) fun enc =>
    .next (match Config.huff enc s.prelz.toNat with
      | .error r => s.errorEntry (huffCause r).kind (huffCause r)
      | .ok m => { s with midMem := s.midMem.writeList 0 m.val, stage := after })

/-- The RAW step (R127): the whole source range, if it fits. -/
def rawStep (s : State) : Result :=
  withCapacity s.srcLeft s
    (andThen (rawLoop s.srcPos.toNat s.srcLeft s) fun t => .next { t with srcPos := s.srcEnd, stage := .finish })

/-- The FINISH step (R129). -/
def finishStep (s : State) : Result :=
  .next { s with
    outLen := s.outPos
    consumed := BitVec.ofNat 17 (Config.frameHdrBytes + s.paylen.toNat)
    state := .done }

/-- `BLK_RAW` (R130): FRAME, RAW, FINISH, one stage a step (log 10). -/
def execBlkRaw (x : BitVec 6) (s : State) : Result :=
  match s.stage with
  | .frame => blockFrame (flagByte x false false) s fun t => .next t.enterPlain
  | .raw => rawStep s
  | .finish => finishStep s
  | .none => .fault (.stageNotOfMode .none)
  | .huff => .fault (.stageNotOfMode .huff)
  | .lz => .fault (.stageNotOfMode .lz)

/-- `BLK_LZ` (R131; of its example frame see log 25): FRAME, LZ (many steps), FINISH. -/
def execBlkLz (x : BitVec 6) (s : State) : Result :=
  match s.stage with
  | .frame => blockFrame (flagByte x false true) s fun t => .next t.enterPlain
  | .lz => lzStep s
  | .finish => finishStep s
  | .none => .fault (.stageNotOfMode .none)
  | .huff => .fault (.stageNotOfMode .huff)
  | .raw => .fault (.stageNotOfMode .raw)

/-- `BLK_HUF` (R132): FRAME, HUFF, RAW, FINISH. -/
def execBlkHuf (x : BitVec 6) (pre : BitVec 16) (s : State) : Result :=
  match s.stage with
  | .frame => blockFrame (flagByte x true false) s fun t => huffmanHeader t fun t => .next (t.enterHuffman pre)
  | .huff => huffStep .raw s
  | .raw => rawStep s
  | .finish => finishStep s
  | .none => .fault (.stageNotOfMode .none)
  | .lz => .fault (.stageNotOfMode .lz)

/-- `BLK_HUFLZ` (R133): FRAME, HUFF, LZ (many steps), FINISH. -/
def execBlkHufLz (x : BitVec 6) (pre : BitVec 16) (s : State) : Result :=
  match s.stage with
  | .frame => blockFrame (flagByte x true true) s fun t => huffmanHeader t fun t => .next (t.enterHuffman pre)
  | .huff => huffStep .lz s
  | .lz => lzStep s
  | .finish => finishStep s
  | .none => .fault (.stageNotOfMode .none)
  | .raw => .fault (.stageNotOfMode .raw)

end Sys2Proof.Machine
end

