-- ==== Sys2Proof/Machine/Dispatch.lean ====
section
/-! DEFINITION. exec: one arm per instruction, each one call of its meaning. -/

namespace Sys2Proof.Machine

/-- What an instruction does in a state. -/
def exec (i : Instr) (s : State) : Host.Outcome State Fault Refusal :=
  match i with
  | .frame lenLo lenHi rsvd0 rsvd1 => Sys2Proof.Machine.execFrame lenLo lenHi rsvd0 rsvd1 s
  | .blkRaw x => Sys2Proof.Machine.execBlkRaw x s
  | .blkLz x => Sys2Proof.Machine.execBlkLz x s
  | .blkHuf x pre => Sys2Proof.Machine.execBlkHuf x pre s
  | .blkHufLz x pre => Sys2Proof.Machine.execBlkHufLz x pre s
  | .cwload b0 b1 => Sys2Proof.Machine.execCwload b0 b1 s
  | .lit b => Sys2Proof.Machine.execLit b s
  | .srun l b => Sys2Proof.Machine.execSrun l b s
  | .lrun l n1 b => Sys2Proof.Machine.execLrun l n1 b s
  | .brefx l o n => Sys2Proof.Machine.execBrefx l o n s
  | .bref h l o => Sys2Proof.Machine.execBref h l o s

end Sys2Proof.Machine
end

