-- ==== Sys2Proof/Machine/HostPort.lean ====
section
/-! DEFINITION. The host's side of the block: the register port (R30 to R39), the memory windows (R47), and the reset
event (R210). -/

namespace Sys2Proof.Machine

/-- A write of `CTRL` (R38, R215): `START` wins over `CLEAR`; both are ignored while BUSY. -/
def State.writeCtrl (s : State) (v : BitVec 32) : State :=
  if s.state = .busy then s
  else if v.getLsbD 0 then s.startRun
  else if v.getLsbD 1 ∧ s.state ≠ .idle then s.clearRun
  else s

/-- A host write of a register (R39): only `CTRL`, and `IN_LEN` and `OUT_CAP` while not BUSY (R79), take a write. -/
def State.writeReg (s : State) (n : Nat) (v : BitVec 32) : State :=
  match n with
  | 0 => s.writeCtrl v
  | 2 => if s.state = .busy then s else { s with inLen := v }
  | 3 => if s.state = .busy then s else { s with outCap := v }
  | _ => s

/-- The host reads a value the spec gives. -/
def State.answer (s : State) (v : BitVec 32) : State := { s with portData := v }

/-- The host reads a value the spec leaves open (U3, U4, U15): the next free value, cut to `width` bits,
since the bits above a register's width read 0 (U12; log 6). -/
def State.answerFree (s : State) (width : Nat) : State :=
  { s with portData := ((Config.freeWord s.freeIdx).setWidth width).setWidth 32, freeIdx := s.freeIdx + 1 }

/-- A read of a result register of this width: its value, or any value while BUSY (R79, U4). -/
def State.answerResult (s : State) (width : Nat) (v : BitVec 32) : State :=
  if s.state = .busy then s.answerFree width else s.answer v

/-- A host read of a register (R39): `CTRL` and numbers above 8 read 0, `STATUS` is always true (R79). -/
def State.readReg (s : State) (n : Nat) : State :=
  match n with
  | 1 => s.answer s.statusWord
  | 2 => s.answer s.inLen
  | 3 => s.answer s.outCap
  | 4 => s.answerResult 32 s.outLen
  | 5 => s.answerResult 17 (s.consumed.setWidth 32)
  | 6 => s.answerResult 8 (s.flags.setWidth 32)
  | 7 => s.answerResult 16 (s.prelz.setWidth 32)
  | 8 => s.answerResult 17 (s.errPos.setWidth 32)
  | _ => s.answer 0

/-- A host write through the `IN_MEM` window (R47, R79): ignored while BUSY and outside the window. -/
def State.writeIn (s : State) (a : Nat) (b : Byte) : State :=
  if s.state = .busy ∨ Config.inMemBytes ≤ a then s else { s with inMem := s.inMem.write a b }

/-- A host read through the `OUT_MEM` window: the byte in `DONE` below `OUT_LEN`, otherwise any byte (R47, R48, U3, U4, U15). -/
def State.readOut (s : State) (a : Nat) : State :=
  if s.state = .done ∧ a < s.outLen.toNat ∧ a < s.params.outMemBytes then
    match s.outMem.read a with
    | some b => s.answer (b.setWidth 32)
    | none => s.answerFree 8
  else s.answerFree 8

/-- The reset event (R210): the state after reset, but for what is no part of the block: the parameters of the build
and the model's own fields (log 20). -/
def State.resetEvent (s : State) : State :=
  { State.reset with params := s.params, hostTurns := s.hostTurns, portData := s.portData, freeIdx := s.freeIdx }

/-- One move of the host. -/
def hostMove (m : HostMove) (s : State) : State :=
  match m with
  | .writeReg n v => s.writeReg n v
  | .readReg n => s.readReg n
  | .writeIn a b => s.writeIn a b
  | .readOut a => s.readOut a
  | .reset => s.resetEvent

end Sys2Proof.Machine
end

