-- ==== Sys2Proof/Machine/Engine.lean ====
section
/-! DEFINITION. A turn of the engine (EngineStep, R11, R21) and a turn of the host. -/

namespace Sys2Proof.Machine

/-- The engine's step, enabled only while BUSY: fetch, decode, exec. While not BUSY all state is kept (R203, R226). -/
def engineTurn (s : State) : Result :=
  if s.state = .busy then andThen (fetch s) fun f => withDecoded f fun i => exec i s
  else .next s

/-- One turn of the system (R11, R74): the host's next turn if one stands in the list, else the engine's (log 5). -/
def systemTurn (s : State) : Result :=
  match s.hostTurns with
  | [] => engineTurn s
  | .pass :: rest => engineTurn { s with hostTurns := rest }
  | .move m :: rest => .next (hostMove m { s with hostTurns := rest })

end Sys2Proof.Machine
end

