-- ==== Sys2Proof/Machine/Step.lean ====
section
/-! DEFINITION. One step of the machine, and an instruction stored where the next step fetches it. -/

namespace Sys2Proof.Machine

/-- One step: one turn of the engine or of the host (R11, R73, R74). -/
def step (s : State) : Host.Outcome State Fault Refusal := systemTurn s

/-- `s` with the instruction of a table word placed so that the very next step runs it: the host has no turn pending,
a run has begun, and the word's bytes stand where the engine fetches (log 8). A word that decodes to nothing
changes nothing. -/
def State.withFetchWord (s : State) (nbits w : Nat) : State :=
  match decodeTableWord nbits w with
  | some i => { placeInstr s i with hostTurns := [] }
  | none => s

end Sys2Proof.Machine
end

