-- ==== Sys2Proof/Machine/Reference.lean ====
section
/-! DEFINITION. The spec's own functional references: the LZ stage (R154), the whole run (R134), and the FRAME step as
one piece (R120). They are written from those rules alone; the machine's steps are held against them by statements. -/

namespace Sys2Proof.Machine

/-- `out` extended by `n` bytes, each the byte `offset` back from its own place, in ascending order (R154). -/
def extendCopy (offset : Nat) : Nat → List Byte → List Byte
  | 0, out => out
  | n + 1, out => extendCopy offset n (out ++ [out.getD (out.length - offset) 0])

/-- `go` of R154 on the source bytes still to come: control word, control bits in hand, output so far. -/
def lzGo (order : ByteOrder) (ecap : Nat) : List Byte → BitVec 16 → Nat → List Byte → Except ErrCause (List Byte)
  | [], _, _, out => .ok out
  | c :: rest, cw, cnt, out =>
    if cnt = 0 then
      match rest with
      | [] => .error .cwTrunc
      | b1 :: rest => lzGo order ecap rest (controlWord order c b1) Config.cwBits out
    else if cw.getLsbD 15 = false then
      if ecap < out.length + 1 then .error .capacity
      else lzGo order ecap rest (cw <<< 1) (cnt - 1) (out ++ [c])
    else if highNibble c = 0 then
      match rest with
      | b :: rest =>
        if ecap < out.length + srunLength (lowNibble c) then .error .capacity
        else lzGo order ecap rest (cw <<< 1) (cnt - 1) (out ++ List.replicate (srunLength (lowNibble c)) b)
      | [] => .error .tokenTrunc
    else if highNibble c = 1 then
      match rest with
      | n1 :: b :: rest =>
        if ecap < out.length + lrunLength (lowNibble c) n1 then .error .capacity
        else lzGo order ecap rest (cw <<< 1) (cnt - 1) (out ++ List.replicate (lrunLength (lowNibble c) n1) b)
      | _ => .error .tokenTrunc
    else if highNibble c = 2 then
      match rest with
      | o :: n :: rest =>
        if out.length < brefOffset (lowNibble c) o then .error .brefRange
        else if ecap < out.length + brefxLength n then .error .capacity
        else lzGo order ecap rest (cw <<< 1) (cnt - 1) (extendCopy (brefOffset (lowNibble c) o) (brefxLength n) out)
      | _ => .error .tokenTrunc
    else
      match rest with
      | o :: rest =>
        if out.length < brefOffset (lowNibble c) o then .error .brefRange
        else if ecap < out.length + brefLength (highNibble c) then .error .capacity
        else lzGo order ecap rest (cw <<< 1) (cnt - 1)
          (extendCopy (brefOffset (lowNibble c) o) (brefLength (highNibble c)) out)
      | [] => .error .tokenTrunc

/-- `LzDecode(src, ecap)` (R154). -/
def lzDecode (order : ByteOrder) (ecap : Nat) (src : List Byte) : Except ErrCause (List Byte) :=
  lzGo order ecap src 0 0 []

/-- The source of the stage after FRAME or HUFF, or the error before it (R134). -/
def blockSource (payload : List Byte) : Except ErrCause (List Byte) :=
  if flagHuf (payload.getD 0 0) then
    if payload.length < Config.hufHdrBytes then .error .hufHdrTrunc
    else
      match Config.huff (payload.drop Config.hufHdrBytes) (preLzSize (payload.getD 1 0) (payload.getD 2 0)).toNat with
      | .ok m => .ok m.val
      | .error r => .error (huffCause r)
  else .ok (payload.drop 1)

/-- `BlockDecode(f, in_len, ecap)` (R134): the output and the bytes consumed, or the cause of the error; `f` is the
content of `IN_MEM` from address 0. -/
def blockDecode (order : ByteOrder) (f : List Byte) (inLen ecap : Nat) : Except ErrCause (List Byte × Nat) :=
  if inLen < Config.frameHdrBytes then .error .hdrTrunc
  else
    let pl := (payloadLength (f.getD 0 0) (f.getD 1 0)).toNat
    if inLen < Config.frameHdrBytes + pl then .error .payloadTrunc
    else if pl = 0 then .error .noFlags
    else
      let payload := (f.drop Config.frameHdrBytes).take pl
      match blockSource payload with
      | .error e => .error e
      | .ok src =>
        let out :=
          if flagLz (payload.getD 0 0) then lzDecode order ecap src
          else if ecap < src.length then .error .capacity
          else .ok src
        match out with
        | .error e => .error e
        | .ok o => .ok (o, Config.frameHdrBytes + pl)

/-- The FRAME step as R120 writes it, every byte read from `IN_MEM` at the place the rule reads it. -/
def frameStep (s : State) : Result :=
  if s.inLen.toNat < Config.frameHdrBytes then raise .hdrTrunc s
  else
    andThen (memRead .inMem 0 s) fun lo =>
      andThen (memRead .inMem 1 s) fun hi =>
        let s := { s with paylen := payloadLength lo hi }
        if s.inLen.toNat < Config.frameHdrBytes + s.paylen.toNat then raise .payloadTrunc s
        else if s.paylen = 0 then raise .noFlags s
        else
          andThen (memRead .inMem Config.frameHdrBytes s) fun flg =>
            let s := { s with flags := flg }
            if flg.getLsbD Config.flagHufBit then
              if s.paylen.toNat < Config.hufHdrBytes then raise .hufHdrTrunc s
              else
                andThen (memRead .inMem (Config.frameHdrBytes + 1) s) fun p =>
                  andThen (memRead .inMem (Config.frameHdrBytes + 2) s) fun q =>
                    .next { s with
                      prelz := p ++ q
                      srcSel := .midMem
                      srcPos := 0
                      srcEnd := BitVec.ofNat 17 (256 * p.toNat + q.toNat)
                      stage := .huff }
            else
              .next { s with
                srcSel := .inMem
                srcPos := BitVec.ofNat 17 (Config.frameHdrBytes + 1)
                srcEnd := BitVec.ofNat 17 (Config.frameHdrBytes + s.paylen.toNat)
                stage := if flg.getLsbD Config.flagLzBit then .lz else .raw }

end Sys2Proof.Machine
end

