-- ==== Sys2Proof/Safety.lean ====
section
/-! DEFINITION. What statements speak of: runs of steps, the output, the invariant of the machine, and a host that keeps
its duties. -/

namespace Sys2Proof.Machine

/-- `k` steps of the machine, stopping at a fault or a refusal. -/
def runFor : Nat → State → Result
  | 0, s => .next s
  | k + 1, s =>
    match step s with
    | .next t => runFor k t
    | .fault f => .fault f
    | .refused r => .refused r

/-- The memory `SRC_SEL` selects (R23). -/
def State.srcMem (s : State) : Mem := s.memory s.srcSel.space

/-- A memory holds these bytes from address `a` on. -/
def Mem.holds (m : Mem) (a : Nat) (bytes : List Byte) : Prop :=
  ∀ k (h : k < bytes.length), Mem.read m (a + k) = some bytes[k]

/-- What every token that does not raise does (R142 to R147): the control bit is consumed, the source cursor moves by
the token's `k` bytes, `n` bytes are emitted, `OUT_MEM` keeps every byte outside those `n`, and nothing else changes. -/
structure State.TokenEffect (s t : State) (n k : Nat) : Prop where
  cw : t.cw = s.cw <<< 1
  cwCnt : s.cwCnt ≠ 0 → t.cwCnt.toNat = s.cwCnt.toNat - 1
  srcPos : t.srcPos.toNat = s.srcPos.toNat + k
  outPos : t.outPos.toNat = s.outPos.toNat + n
  outside : ∀ a, a < s.outPos.toNat ∨ s.outPos.toNat + n ≤ a → Mem.read t.outMem a = Mem.read s.outMem a
  rest : { t with cw := s.cw, cwCnt := s.cwCnt, srcPos := s.srcPos, outPos := s.outPos, outMem := s.outMem } = s

/-- Every byte below `OUT_POS` has a value, as it does in every state a run reaches (R70). -/
def State.OutWritten (s : State) : Prop := ∀ a < s.outPos.toNat, (Mem.read s.outMem a).isSome

/-- The context in which stage LZ decodes its next item (R140): a control word when no control bit is in hand, else a
token with the next control bit. -/
def State.lzContext (s : State) : Context :=
  if s.cwCnt = 0 then .controlWord else .token s.controlBit

/-- A run has ended (R220). -/
def State.ended (s : State) : Prop := s.state = .done ∨ s.state = .error

/-- The three memories are canonical and list no address their space lacks (R60). -/
structure State.MemOk (s : State) : Prop where
  inWf : Mem.wf s.inMem
  midWf : Mem.wf s.midMem
  outWf : Mem.wf s.outMem
  inRange : ∀ p ∈ s.inMem, p.1 < Config.inMemBytes
  midRange : ∀ p ∈ s.midMem, p.1 < Config.midMemBytes
  outRange : ∀ p ∈ s.outMem, p.1 < s.params.outMemBytes

/-- The cursors stay in range: `SRC_POS <= SRC_END` (R24), the source lies in its memory (R25), `CW_CNT` is at most 16
(R27), and `OUT_POS <= ECAP` during a run (R28; log 14: after a run the host may lower `OUT_CAP`). -/
structure State.CursorOk (s : State) : Prop where
  src : s.srcPos.toNat ≤ s.srcEnd.toNat
  srcEnd : s.srcEnd.toNat ≤ s.spaceSize s.srcSel.space
  cwCnt : s.cwCnt.toNat ≤ Config.cwBits
  outMem : s.outPos.toNat ≤ s.params.outMemBytes
  outCap : s.state = .busy → s.outPos.toNat ≤ s.ecap

/-- `ERR_KIND` and `ERR_CAUSE` are nonzero exactly in `ERROR` (R30), and the cause decides the kind (R182). -/
structure State.ErrorOk (s : State) : Prop where
  cause : s.errCause ≠ .none ↔ s.state = .error
  kind : s.errKind = s.errCause.kind

/-- `OUT_LEN` and `CONSUMED` are 0 in every state but `DONE` (R33, R34), and in `DONE` they are what FINISH wrote (R129). -/
structure State.ResultOk (s : State) : Prop where
  notDone : s.state ≠ .done → s.outLen = 0 ∧ s.consumed = 0
  done : s.state = .done → s.outLen = s.outPos ∧ s.consumed.toNat = 4 + s.paylen.toNat

/-- Every byte a step can read below a cursor has been written: `OUT_MEM` below `OUT_POS` (R70), and `MID_MEM` below
`SRC_END` once the HUFF stage is over (R48, R172). -/
structure State.BytesOk (s : State) : Prop where
  out : ∀ a < s.outPos.toNat, (Mem.read s.outMem a).isSome
  mid : s.state = .busy → s.srcSel = .midMem → s.stage = .lz ∨ s.stage = .raw →
    ∀ a < s.srcEnd.toNat, (Mem.read s.midMem a).isSome

/-- During a run the stage, the flags and the source fit together (R46, R120, R125, R126). -/
structure State.StageOk (s : State) : Prop where
  some : s.state = .busy → s.stage ≠ .none
  start : s.state = .busy → s.stage = .frame ∨ s.stage = .huff → s.outPos = 0 ∧ s.cw = 0 ∧ s.cwCnt = 0
  huff : s.state = .busy → s.stage = .huff → flagHuf s.flags ∧ 3 ≤ s.paylen.toNat
  raw : s.state = .busy → s.stage = .raw → flagLz s.flags = false ∧ s.outPos = 0
  lz : s.state = .busy → s.stage = .lz → flagLz s.flags
  frameLen : s.state = .busy → s.stage ≠ .frame → 4 + s.paylen.toNat ≤ s.inLen.toNat
  source : s.state = .busy → s.stage ≠ .frame →
    (flagHuf s.flags = true → s.srcSel = .midMem ∧ s.srcEnd.toNat = s.prelz.toNat) ∧
    (flagHuf s.flags = false → s.srcSel = .inMem ∧ s.srcEnd.toNat = 4 + s.paylen.toNat ∧ 5 ≤ s.srcPos.toNat)

/-- The invariant of the machine. -/
structure State.Inv (s : State) : Prop where
  outMemBytes : 1 ≤ s.params.outMemBytes
  mem : s.MemOk
  cursor : s.CursorOk
  err : s.ErrorOk
  result : s.ResultOk
  bytes : s.BytesOk
  stage : s.StageOk

/-- The host wrote every byte it counts in `IN_LEN` (R213). -/
def State.Loaded (s : State) : Prop := ∀ a < s.inLen.toNat, (Mem.read s.inMem a).isSome

/-- The outcome of two steps is the same but for the content of `IN_MEM`. -/
def Result.withInMem (r : Result) (m : Mem) : Result :=
  match r with
  | .next t => .next { t with inMem := m }
  | .fault f => .fault f
  | .refused x => .refused x

end Sys2Proof.Machine
end

