-- ==== Sys2Proof/Certificates/Slice0/Obligations.lean ====
section
/-! DEFINITION. The statements for the provers, from the numbered rules of spec/. -/

open Sys2Proof Sys2Proof.Machine

/-! Encoding. -/

/-- Decoding the encoding of any well-formed instruction, in the context it stands in and with any bytes after it,
gives that instruction and those bytes (R90, R93, R95, R97, R98). -/
def Obligations.DecodeInvertsEncode : Prop :=
  ∀ (i : Instr) (rest : List Byte), i.wellFormed = true →
    decode i.context (encode i ++ rest) = .ok (i, rest)

/-- Whatever the decoder reads from some bytes is well formed, belongs to the context, and encodes to exactly the bytes
it took (R100, R107). -/
def Obligations.EncodeInvertsDecode : Prop :=
  ∀ (ctx : Context) (bytes rest : List Byte) (i : Instr), decode ctx bytes = .ok (i, rest) →
    i.wellFormed = true ∧ i.context = ctx ∧ encode i ++ rest = bytes

/-- The token opcode map as match and mask on `c` (R100): control bit 0 is a literal; under control bit 1 each match and
mask pair gives its token, and every value of `c` meets exactly one of the six pairs. -/
def Obligations.TokenOpcodeMap : Prop :=
  ∀ (c o n : Byte) (rest : List Byte),
    decode (.token false) (c :: rest) = .ok (.lit c, rest) ∧
    (c &&& 0xF0#8 = 0x00#8 → decode (.token true) (c :: o :: rest) = .ok (.srun (lowNibble c) o, rest)) ∧
    (c &&& 0xF0#8 = 0x10#8 → decode (.token true) (c :: o :: n :: rest) = .ok (.lrun (lowNibble c) o n, rest)) ∧
    (c &&& 0xF0#8 = 0x20#8 → decode (.token true) (c :: o :: n :: rest) = .ok (.brefx (lowNibble c) o n, rest)) ∧
    (c &&& 0xF0#8 = 0x30#8 ∨ c &&& 0xC0#8 = 0x40#8 ∨ c &&& 0x80#8 = 0x80#8 →
      decode (.token true) (c :: o :: rest) = .ok (.bref (highNibble c) (lowNibble c) o, rest)) ∧
    [decide (c &&& 0xF0#8 = 0x00#8), decide (c &&& 0xF0#8 = 0x10#8), decide (c &&& 0xF0#8 = 0x20#8),
      decide (c &&& 0xF0#8 = 0x30#8), decide (c &&& 0xC0#8 = 0x40#8), decide (c &&& 0x80#8 = 0x80#8)].count true = 1

/-- The block mode is chosen by `FLG[1:0]` alone and keeps `FLG[7:2]`; preLzSize is big-endian (R94, R95, R108). -/
def Obligations.FlagByteSelectsMode : Prop :=
  ∀ (flg p q : Byte) (rest : List Byte),
    (flg &&& 0x03#8 = 0x00#8 → decode .flagByte (flg :: rest) = .ok (.blkRaw (flagRest flg), rest)) ∧
    (flg &&& 0x03#8 = 0x01#8 → decode .flagByte (flg :: rest) = .ok (.blkLz (flagRest flg), rest)) ∧
    (flg &&& 0x03#8 = 0x02#8 → decode .flagByte (flg :: p :: q :: rest) =
      .ok (.blkHuf (flagRest flg) (BitVec.ofNat 16 (256 * p.toNat + q.toNat)), rest)) ∧
    (flg &&& 0x03#8 = 0x03#8 → decode .flagByte (flg :: p :: q :: rest) =
      .ok (.blkHufLz (flagRest flg) (BitVec.ofNat 16 (256 * p.toNat + q.toNat)), rest))

/-- Words written out from the spec's encodings decode to the instructions they stand for (V1, V20, V31, V40, V50, V60). -/
def Obligations.WordsOfTheSpecDecode : Prop :=
  decode .header [0x04, 0x00, 0xAA, 0x55] = .ok (.frame 0x04 0x00 0xAA 0x55, []) ∧
  decode .flagByte [0xFC] = .ok (.blkRaw 0x3F, []) ∧
  decode .flagByte [0x02, 0x01, 0x00] = .ok (.blkHuf 0 0x0100, []) ∧
  decode (.token true) [0x02, 0x78] = .ok (.srun 2 0x78, []) ∧
  decode (.token true) [0x11, 0x01, 0x7A] = .ok (.lrun 1 0x01 0x7A, []) ∧
  decode (.token true) [0xF2, 0x01] = .ok (.bref 15 2 0x01, []) ∧
  decode (.token true) [0x20, 0x00, 0x04] = .ok (.brefx 0 0x00 0x04, [])

/-! The step. -/

/-- While BUSY, with the host leaving the turn to the engine (no turn pending, or a pass), the step is exec of the
instruction that the fetched bytes decode to; the pass is taken off the list (R11, R21). -/
def Obligations.StepRunsDecodedInstruction : Prop :=
  ∀ (s u : State) (f : Context × List Byte) (i : Instr) (rest : List Byte),
    (s.hostTurns = [] ∧ u = s) ∨ (s.hostTurns = .pass :: u.hostTurns ∧ u = { s with hostTurns := u.hostTurns }) →
    u.state = .busy → fetch u = .ok f → decode f.1 f.2 = .ok (i, rest) → step s = exec i u

/-- In stage LZ, when the bytes at the source cursor are the encoding of an instruction of the context that `CW_CNT` and
`CW[15]` give, the step runs that instruction (R105, R140). -/
def Obligations.StreamInstructionRuns : Prop :=
  ∀ (s : State) (i : Instr), s.hostTurns = [] → s.state = .busy → s.stage = .lz → i.wellFormed = true →
    i.context = s.lzContext → Mem.holds s.srcMem s.srcPos.toNat (encode i) →
    s.srcPos.toNat + (encode i).length ≤ s.srcEnd.toNat → s.srcEnd.toNat ≤ s.spaceSize s.srcSel.space →
    step s = exec i s

/-- EngineStep: while BUSY, `STAGE` selects the step: the FRAME step as R120 writes it, the HUFF step, the LZ step, the
RAW step, the FINISH step. In NONE, which no run reaches, the model stops by name (log 16). -/
def Obligations.StageSelectsStep : Prop :=
  ∀ s : State, s.hostTurns = [] → s.state = .busy →
    (s.stage = .frame → step s = frameStep s) ∧
    (s.stage = .huff → step s = huffStep (if flagLz s.flags then .lz else .raw) s) ∧
    (s.stage = .lz → step s = lzStep s) ∧
    (s.stage = .raw → step s = rawStep s) ∧
    (s.stage = .finish → step s = finishStep s) ∧
    (s.stage = .none → step s = .fault .noStage)

/-- A host turn that is a move is that move; without a move, a state that is not BUSY is kept whole (R74, R203). -/
def Obligations.HostTurnsAndIdleSteps : Prop :=
  ∀ s : State,
    (∀ m rest, s.hostTurns = .move m :: rest → step s = .next (hostMove m { s with hostTurns := rest })) ∧
    (s.hostTurns = [] → s.state ≠ .busy → step s = .next s)

/-- A table word placed by `withFetchWord` is what the very next step runs, whatever the state was (the model's own
device, log 8). -/
def Obligations.PlacedWordRunsNext : Prop :=
  ∀ (s : State) (nbits w : Nat) (i : Instr), decodeTableWord nbits w = some i →
    step (s.withFetchWord nbits w) = exec i (s.withFetchWord nbits w)

/-! CWLOAD and the tokens. -/

/-- `CWLOAD` with two bytes left loads `CW` in the order `CW_ORDER` names, sets `CW_CNT` to 16, moves the cursor by 2,
and changes nothing else (R141, R63). -/
def Obligations.CwloadLoadsControlWord : Prop :=
  ∀ (s : State) (b0 b1 : Byte), 2 ≤ s.srcEnd.toNat - s.srcPos.toNat →
    ∃ t, exec (.cwload b0 b1) s = .next t ∧
      (s.params.cwOrder = .be → t.cw.toNat = 256 * b0.toNat + b1.toNat) ∧
      (s.params.cwOrder = .le → t.cw.toNat = 256 * b1.toNat + b0.toNat) ∧
      t.cwCnt.toNat = 16 ∧ t.srcPos.toNat = s.srcPos.toNat + 2 ∧
      { t with cw := s.cw, cwCnt := s.cwCnt, srcPos := s.srcPos } = s

/-- The `k`-th token decision after a load sees bit `15 - k` of the word, `CW` having been shifted left and `CW_CNT` having
fallen by `k`; a decision changes nothing else, and of the two values of the bit 0 selects a literal (R142). -/
def Obligations.TokenDecisionOrder : Prop :=
  ∀ (s : State) (k : Nat), k ≤ 15 → k < s.cwCnt.toNat →
    (State.tokenDecision^[k] s).controlBit = s.cw.getLsbD (15 - k) ∧
    (State.tokenDecision^[k] s).cw = s.cw <<< k ∧
    (State.tokenDecision^[k] s).cwCnt.toNat = s.cwCnt.toNat - k ∧
    { State.tokenDecision^[k] s with cw := s.cw, cwCnt := s.cwCnt } = s ∧
    (State.tokenDecision^[k] s).lzContext = .token (s.cw.getLsbD (15 - k)) ∧
    ∀ (bytes rest : List Byte) (i : Instr),
      decode (State.tokenDecision^[k] s).lzContext bytes = .ok (i, rest) →
        (s.cw.getLsbD (15 - k) = false ↔ ∃ b, i = .lit b)

/-- `LIT` with a byte left and room for one byte emits its byte (R143). -/
def Obligations.LitEmitsByte : Prop :=
  ∀ (s : State) (b : Byte), 1 ≤ s.srcEnd.toNat - s.srcPos.toNat → s.outPos.toNat + 1 ≤ s.ecap →
    ∃ t, exec (.lit b) s = .next t ∧ s.TokenEffect t 1 1 ∧ Mem.read t.outMem s.outPos.toNat = some b

/-- `SRUN` with its bytes there and room for the run emits `L + 3` copies of `b` (R144). -/
def Obligations.SrunEmitsRun : Prop :=
  ∀ (s : State) (l : Nibble) (b : Byte), 2 ≤ s.srcEnd.toNat - s.srcPos.toNat →
    s.outPos.toNat + (l.toNat + 3) ≤ s.ecap →
    ∃ t, exec (.srun l b) s = .next t ∧ s.TokenEffect t (l.toNat + 3) 2 ∧
      ∀ j < l.toNat + 3, Mem.read t.outMem (s.outPos.toNat + j) = some b

/-- `LRUN` with its bytes there and room for the run emits `L + 16 * n1 + 19` copies of `b` (R145). -/
def Obligations.LrunEmitsRun : Prop :=
  ∀ (s : State) (l : Nibble) (n1 b : Byte), 3 ≤ s.srcEnd.toNat - s.srcPos.toNat →
    s.outPos.toNat + (l.toNat + 16 * n1.toNat + 19) ≤ s.ecap →
    ∃ t, exec (.lrun l n1 b) s = .next t ∧ s.TokenEffect t (l.toNat + 16 * n1.toNat + 19) 3 ∧
      ∀ j < l.toNat + 16 * n1.toNat + 19, Mem.read t.outMem (s.outPos.toNat + j) = some b

/-- `BREF` with its bytes there, its offset in range and room for the copy emits `H` bytes, each equal, after the token,
to the byte `16 * o + L + 3` before it (R146, R148). -/
def Obligations.BrefCopies : Prop :=
  ∀ (s : State) (h l : Nibble) (o : Byte), 2 ≤ s.srcEnd.toNat - s.srcPos.toNat →
    16 * o.toNat + l.toNat + 3 ≤ s.outPos.toNat → s.outPos.toNat + h.toNat ≤ s.ecap → s.OutWritten →
    ∃ t, exec (.bref h l o) s = .next t ∧ s.TokenEffect t h.toNat 2 ∧
      ∀ q, s.outPos.toNat ≤ q → q < s.outPos.toNat + h.toNat →
        Mem.read t.outMem q = Mem.read t.outMem (q - (16 * o.toNat + l.toNat + 3)) ∧ (Mem.read t.outMem q).isSome

/-- `BREFX` likewise emits `n + 16` bytes (R147, R148). -/
def Obligations.BrefxCopies : Prop :=
  ∀ (s : State) (l : Nibble) (o n : Byte), 3 ≤ s.srcEnd.toNat - s.srcPos.toNat →
    16 * o.toNat + l.toNat + 3 ≤ s.outPos.toNat → s.outPos.toNat + (n.toNat + 16) ≤ s.ecap → s.OutWritten →
    ∃ t, exec (.brefx l o n) s = .next t ∧ s.TokenEffect t (n.toNat + 16) 3 ∧
      ∀ q, s.outPos.toNat ≤ q → q < s.outPos.toNat + (n.toNat + 16) →
        Mem.read t.outMem q = Mem.read t.outMem (q - (16 * o.toNat + l.toNat + 3)) ∧ (Mem.read t.outMem q).isSome

/-- The overlap law, for every offset from 1 up: after the copy `OUT_MEM[q] = OUT_MEM[q - o]` for every `q` of the copied
range, and the copied bytes repeat the `o` bytes before the cursor cyclically (R149, C1). -/
def Obligations.CopyOverlapLaw : Prop :=
  ∀ (s : State) (offset n : Nat), 1 ≤ offset → offset ≤ s.outPos.toNat → s.outPos.toNat + n ≤ s.ecap → s.OutWritten →
    ∃ t, copyLoop offset n s = .ok t ∧ (∀ k, backCopy offset n k s = .next (t.advanceSrc k)) ∧
      (∀ q, s.outPos.toNat ≤ q → q < s.outPos.toNat + n → Mem.read t.outMem q = Mem.read t.outMem (q - offset)) ∧
      ∀ j < n, Mem.read t.outMem (s.outPos.toNat + j) = Mem.read s.outMem (s.outPos.toNat - offset + j % offset)

/-- A token that is cut short raises `TOKEN_TRUNC`, whatever else is wrong with it, and a control word `CW_TRUNC`; the
token's control bit has been consumed (R141, R151, R190, R191). -/
def Obligations.TruncationRaises : Prop :=
  ∀ s : State,
    (s.srcEnd.toNat - s.srcPos.toNat < 2 → ∀ b0 b1,
      exec (.cwload b0 b1) s = .next (s.errorEntry .decodeError .cwTrunc)) ∧
    (s.srcEnd.toNat - s.srcPos.toNat < 2 → ∀ l b,
      exec (.srun l b) s = .next (s.tokenDecision.errorEntry .decodeError .tokenTrunc)) ∧
    (s.srcEnd.toNat - s.srcPos.toNat < 3 → ∀ l n1 b,
      exec (.lrun l n1 b) s = .next (s.tokenDecision.errorEntry .decodeError .tokenTrunc)) ∧
    (s.srcEnd.toNat - s.srcPos.toNat < 2 → ∀ h l o,
      exec (.bref h l o) s = .next (s.tokenDecision.errorEntry .decodeError .tokenTrunc)) ∧
    (s.srcEnd.toNat - s.srcPos.toNat < 3 → ∀ l o n,
      exec (.brefx l o n) s = .next (s.tokenDecision.errorEntry .decodeError .tokenTrunc))

/-- A back-reference whose bytes are there but whose offset exceeds `OUT_POS` raises `BREF_RANGE`, whether or not it
would fit the capacity (R151, R192). -/
def Obligations.BackReferenceRangeRaises : Prop :=
  ∀ (s : State) (l : Nibble) (o : Byte), s.outPos.toNat < 16 * o.toNat + l.toNat + 3 →
    (2 ≤ s.srcEnd.toNat - s.srcPos.toNat → ∀ h,
      exec (.bref h l o) s = .next (s.tokenDecision.errorEntry .decodeError .brefRange)) ∧
    (3 ≤ s.srcEnd.toNat - s.srcPos.toNat → ∀ n,
      exec (.brefx l o n) s = .next (s.tokenDecision.errorEntry .decodeError .brefRange))

/-- An emitting step that passes the earlier checks but overruns the effective capacity raises `CAPACITY`, with no byte
of the step emitted (R69, R151, R193). -/
def Obligations.CapacityRaises : Prop :=
  ∀ s : State,
    (∀ b, s.ecap < s.outPos.toNat + 1 →
      exec (.lit b) s = .next (s.tokenDecision.errorEntry .decodeError .capacity)) ∧
    (∀ l b, 2 ≤ s.srcEnd.toNat - s.srcPos.toNat → s.ecap < s.outPos.toNat + (l.toNat + 3) →
      exec (.srun l b) s = .next (s.tokenDecision.errorEntry .decodeError .capacity)) ∧
    (∀ l n1 b, 3 ≤ s.srcEnd.toNat - s.srcPos.toNat → s.ecap < s.outPos.toNat + (l.toNat + 16 * n1.toNat + 19) →
      exec (.lrun l n1 b) s = .next (s.tokenDecision.errorEntry .decodeError .capacity)) ∧
    (∀ h l o, 2 ≤ s.srcEnd.toNat - s.srcPos.toNat → 16 * o.toNat + l.toNat + 3 ≤ s.outPos.toNat →
      s.ecap < s.outPos.toNat + h.toNat →
      exec (.bref h l o) s = .next (s.tokenDecision.errorEntry .decodeError .capacity)) ∧
    (∀ l o n, 3 ≤ s.srcEnd.toNat - s.srcPos.toNat → 16 * o.toNat + l.toNat + 3 ≤ s.outPos.toNat →
      s.ecap < s.outPos.toNat + (n.toNat + 16) →
      exec (.brefx l o n) s = .next (s.tokenDecision.errorEntry .decodeError .capacity)) ∧
    (s.stage = .raw → s.ecap < s.outPos.toNat + (s.srcEnd.toNat - s.srcPos.toNat) → ∀ x pre,
      exec (.blkRaw x) s = .next (s.errorEntry .decodeError .capacity) ∧
      exec (.blkHuf x pre) s = .next (s.errorEntry .decodeError .capacity))

/-- No token emits zero bytes: one that ends without an error moves `OUT_POS` by 1 for `LIT`, 3 to 18 for `SRUN`, 19 to
4114 for `LRUN`, 3 to 15 for `BREF`, 16 to 271 for `BREFX`; a control-word load moves it by 0 (R150). -/
def Obligations.EveryTokenEmits : Prop :=
  ∀ s t : State, s.state = .busy → t.state = .busy →
    (∀ b, exec (.lit b) s = .next t → t.outPos.toNat = s.outPos.toNat + 1) ∧
    (∀ l b, exec (.srun l b) s = .next t →
      s.outPos.toNat + 3 ≤ t.outPos.toNat ∧ t.outPos.toNat ≤ s.outPos.toNat + 18) ∧
    (∀ l n1 b, exec (.lrun l n1 b) s = .next t →
      s.outPos.toNat + 19 ≤ t.outPos.toNat ∧ t.outPos.toNat ≤ s.outPos.toNat + 4114) ∧
    (∀ h l o, (Instr.bref h l o).wellFormed = true → exec (.bref h l o) s = .next t →
      s.outPos.toNat + 3 ≤ t.outPos.toNat ∧ t.outPos.toNat ≤ s.outPos.toNat + 15) ∧
    (∀ l o n, exec (.brefx l o n) s = .next t →
      s.outPos.toNat + 16 ≤ t.outPos.toNat ∧ t.outPos.toNat ≤ s.outPos.toNat + 271) ∧
    (∀ b0 b1, exec (.cwload b0 b1) s = .next t → t.outPos = s.outPos)

/-- A token or control-word step that raises has written none of `OUT_MEM`, `OUT_POS` and `SRC_POS` (R152, R197). -/
def Obligations.RaisingTokenWritesNothing : Prop :=
  ∀ (s t : State) (i : Instr), s.state = .busy → i.context ≠ .header → i.context ≠ .flagByte →
    exec i s = .next t → t.state = .error →
    t.outMem = s.outMem ∧ t.outPos = s.outPos ∧ t.srcPos = s.srcPos ∧
      t.errPos = (if s.stage = .lz ∨ s.stage = .raw then s.srcPos else 0)

/-! FRAME and the block modes. -/

/-- The four FormatErrors of the FRAME step, each in its place in the order (R120, R183 to R186, R195); the writes before
a raise stand. That they hold for R131's example frame too, against what R131 says of it, is the model's choice (log 25), and so is
that the memories are kept (log 13). -/
def Obligations.FrameErrorsInOrder : Prop :=
  ∀ (s : State) (lo hi r0 r1 : Byte),
    (s.inLen.toNat < 4 → exec (.frame lo hi r0 r1) s = .next (s.errorEntry .formatError .hdrTrunc)) ∧
    (4 ≤ s.inLen.toNat → s.inLen.toNat < 4 + (lo.toNat + 256 * hi.toNat) → exec (.frame lo hi r0 r1) s = .next
      ({ s with paylen := BitVec.ofNat 16 (lo.toNat + 256 * hi.toNat) }.errorEntry .formatError .payloadTrunc)) ∧
    (4 ≤ s.inLen.toNat → lo.toNat + 256 * hi.toNat = 0 →
      exec (.frame lo hi r0 r1) s = .next ({ s with paylen := 0 }.errorEntry .formatError .noFlags)) ∧
    (∀ flg : Byte, 4 + (lo.toNat + 256 * hi.toNat) ≤ s.inLen.toNat → 1 ≤ lo.toNat + 256 * hi.toNat →
      lo.toNat + 256 * hi.toNat < 3 → Mem.read s.inMem 4 = some flg → flg.getLsbD 1 = true →
      exec (.frame lo hi r0 r1) s = .next
        ({ s with paylen := BitVec.ofNat 16 (lo.toNat + 256 * hi.toNat), flags := flg }.errorEntry
          .formatError .hufHdrTrunc))

/-- A whole frame without the Huffman bit: the source is `payload[1:]` in `IN_MEM`, and the LZ bit selects LZ or RAW
(R61, R120, R123, R126). -/
def Obligations.FrameEntersPlainBlock : Prop :=
  ∀ (s : State) (lo hi r0 r1 flg : Byte), 4 + (lo.toNat + 256 * hi.toNat) ≤ s.inLen.toNat →
    1 ≤ lo.toNat + 256 * hi.toNat → Mem.read s.inMem 4 = some flg → flg.getLsbD 1 = false →
    ∃ t, exec (.frame lo hi r0 r1) s = .next t ∧ t.paylen.toNat = lo.toNat + 256 * hi.toNat ∧ t.flags = flg ∧
      t.srcSel = .inMem ∧ t.srcPos.toNat = 5 ∧ t.srcEnd.toNat = 4 + (lo.toNat + 256 * hi.toNat) ∧
      t.stage = (if flg.getLsbD 0 then .lz else .raw) ∧
      { t with paylen := s.paylen, flags := s.flags, srcSel := s.srcSel, srcPos := s.srcPos, srcEnd := s.srcEnd,
               stage := s.stage } = s

/-- A whole frame with the Huffman bit: `PRELZ` is big-endian, the source will be `MID_MEM[0 : PRELZ]`, and stage HUFF
comes next (R62, R120, R124, R126). -/
def Obligations.FrameEntersHuffmanBlock : Prop :=
  ∀ (s : State) (lo hi r0 r1 flg p q : Byte), 4 + (lo.toNat + 256 * hi.toNat) ≤ s.inLen.toNat →
    3 ≤ lo.toNat + 256 * hi.toNat → Mem.read s.inMem 4 = some flg → flg.getLsbD 1 = true →
    Mem.read s.inMem 5 = some p → Mem.read s.inMem 6 = some q →
    ∃ t, exec (.frame lo hi r0 r1) s = .next t ∧ t.paylen.toNat = lo.toNat + 256 * hi.toNat ∧ t.flags = flg ∧
      t.prelz.toNat = 256 * p.toNat + q.toNat ∧ t.srcSel = .midMem ∧ t.srcPos.toNat = 0 ∧
      t.srcEnd.toNat = 256 * p.toNat + q.toNat ∧ t.stage = .huff ∧
      { t with paylen := s.paylen, flags := s.flags, prelz := s.prelz, srcSel := s.srcSel, srcPos := s.srcPos,
               srcEnd := s.srcEnd, stage := s.stage } = s

/-- A block mode in its FRAME stage does what the FRAME step does on a frame whose flag byte (and preLzSize) is its
encoding (R120, R130 to R133; the model's block modes act one stage a step, log 10). -/
def Obligations.BlockModeFrameStage : Prop :=
  ∀ (s : State) (i : Instr) (lo hi r0 r1 : Byte), s.stage = .frame → i.context = .flagByte →
    Mem.read s.inMem 0 = some lo → Mem.read s.inMem 1 = some hi → Mem.holds s.inMem 4 (encode i) →
    exec i s = exec (.frame lo hi r0 r1) s

/-- The HUFF stage of `BLK_HUF` and `BLK_HUFLZ`: `HUFF` on the bytes `IN_MEM[7 : 4 + PAYLEN]`; on success `MID_MEM` from 0
holds exactly its bytes and RAW or LZ comes next; on failure the error of its reason (R171 to R173, R176). Of `MID_MEM`
after a failure nothing is said (U5). -/
def Obligations.HuffStageAppliesHuff : Prop :=
  ∀ (s : State) (x : BitVec 6) (pre : BitVec 16) (enc : List Byte), s.stage = .huff →
    enc.length = s.paylen.toNat - 3 → Mem.holds s.inMem 7 enc →
    match Config.huff enc s.prelz.toNat with
    | .error r => ∃ t,
        exec (.blkHuf x pre) s = .next t ∧ exec (.blkHufLz x pre) s = .next t ∧
        { t with midMem := s.midMem } = s.errorEntry .decodeError
          (match r with
            | .invalidCode => .hufInvalidCode
            | .incompleteTable => .hufIncompleteTable
            | .exhausted => .hufExhausted)
    | .ok m => ∃ t u,
        exec (.blkHuf x pre) s = .next t ∧ t.stage = .raw ∧ exec (.blkHufLz x pre) s = .next u ∧ u.stage = .lz ∧
        t.midMem = u.midMem ∧ Mem.holds t.midMem 0 m.val ∧
        (∀ a, s.prelz.toNat ≤ a → Mem.read t.midMem a = Mem.read s.midMem a) ∧
        { t with midMem := s.midMem, stage := s.stage } = s ∧ { u with midMem := s.midMem, stage := s.stage } = s

/-- The RAW stage of `BLK_RAW` and `BLK_HUF` copies the whole source range when it fits (R127). -/
def Obligations.RawStageCopies : Prop :=
  ∀ (s : State) (x : BitVec 6) (pre : BitVec 16) (src : List Byte), s.stage = .raw →
    s.srcPos.toNat + src.length = s.srcEnd.toNat → Mem.holds s.srcMem s.srcPos.toNat src →
    s.srcEnd.toNat ≤ s.spaceSize s.srcSel.space → s.outPos.toNat + src.length ≤ s.ecap →
    ∃ t, exec (.blkRaw x) s = .next t ∧ exec (.blkHuf x pre) s = .next t ∧
      Mem.holds t.outMem s.outPos.toNat src ∧
      (∀ a, a < s.outPos.toNat ∨ s.outPos.toNat + src.length ≤ a → Mem.read t.outMem a = Mem.read s.outMem a) ∧
      t.outPos.toNat = s.outPos.toNat + src.length ∧ t.srcPos = s.srcEnd ∧ t.stage = .finish ∧
      { t with outMem := s.outMem, outPos := s.outPos, srcPos := s.srcPos, stage := s.stage } = s

/-- The FINISH stage of every block mode writes `OUT_LEN`, `CONSUMED = 4 + PAYLEN` and `STATE`, and nothing else; after it
the engine has no step of its own (R129). -/
def Obligations.FinishStageReports : Prop :=
  ∀ (s : State) (i : Instr), s.stage = .finish → i.context = .flagByte →
    ∃ t, exec i s = .next t ∧ t.outLen = s.outPos ∧ t.consumed.toNat = 4 + s.paylen.toNat ∧ t.state = .done ∧
      { t with outLen := s.outLen, consumed := s.consumed, state := s.state } = s ∧ engineTurn t = .next t

/-- Stage LZ of `BLK_LZ` and `BLK_HUFLZ`: with the source used up it ends the stage and writes nothing else, control bits
in hand or not (R153); otherwise it is the step the engine takes (R140). -/
def Obligations.LzStageOfBlockModes : Prop :=
  ∀ (s : State) (x : BitVec 6) (pre : BitVec 16), s.stage = .lz →
    (s.srcPos = s.srcEnd → exec (.blkLz x) s = .next { s with stage := .finish } ∧
      exec (.blkHufLz x pre) s = .next { s with stage := .finish }) ∧
    (s.hostTurns = [] → s.state = .busy → exec (.blkLz x) s = step s ∧ exec (.blkHufLz x pre) s = step s)

/-- A block mode asked to act in a stage its sequence does not have stops by name (R125; the model's choice, log 16). -/
def Obligations.BlockModeStopsOutsideItsStages : Prop :=
  ∀ (s : State) (x : BitVec 6) (pre : BitVec 16),
    (s.stage = .none ∨ s.stage = .huff ∨ s.stage = .lz → exec (.blkRaw x) s = .fault (.stageNotOfMode s.stage)) ∧
    (s.stage = .none ∨ s.stage = .huff ∨ s.stage = .raw → exec (.blkLz x) s = .fault (.stageNotOfMode s.stage)) ∧
    (s.stage = .none ∨ s.stage = .lz → exec (.blkHuf x pre) s = .fault (.stageNotOfMode s.stage)) ∧
    (s.stage = .none ∨ s.stage = .raw → exec (.blkHufLz x pre) s = .fault (.stageNotOfMode s.stage))

/-! Errors, reset, the host port. -/

/-- The error entry saves and changes exactly six registers, and the engine then has no step; of the contents of `OUT_MEM`
and `MID_MEM`, which are unspecified after an error, nothing is said (R196). -/
def Obligations.ErrorEntrySavesExactly : Prop :=
  ∀ (s : State) (kind : ErrKind) (cause : ErrCause),
    (s.errorEntry kind cause).errKind = kind ∧ (s.errorEntry kind cause).errCause = cause ∧
    (s.stage = .lz ∨ s.stage = .raw → (s.errorEntry kind cause).errPos = s.srcPos) ∧
    (¬(s.stage = .lz ∨ s.stage = .raw) → (s.errorEntry kind cause).errPos = 0) ∧
    (s.errorEntry kind cause).outLen = 0 ∧ (s.errorEntry kind cause).consumed = 0 ∧
    (s.errorEntry kind cause).state = .error ∧
    { s.errorEntry kind cause with errKind := s.errKind, errCause := s.errCause, errPos := s.errPos, outLen := s.outLen,
                                   consumed := s.consumed, state := s.state, outMem := s.outMem, midMem := s.midMem } = s ∧
    engineTurn (s.errorEntry kind cause) = .next (s.errorEntry kind cause)

/-- `STATUS` shows `STATE`, `STAGE`, `ERR_KIND` and `ERR_CAUSE` by their codes in their fields, every reserved bit 0
(R21, R22, R30, R181, R182). -/
def Obligations.StatusFields : Prop :=
  (∀ s : State, s.statusWord.extractLsb' 0 2 = s.state.code ∧ s.statusWord.extractLsb' 4 3 = s.stage.code ∧
    s.statusWord.extractLsb' 8 2 = s.errKind.code ∧ s.statusWord.extractLsb' 12 4 = s.errCause.code ∧
    s.statusWord &&& 0xFFFF0C8C#32 = 0#32) ∧
  [Phase.idle, .busy, .done, .error].map (fun p => p.code.toNat) = [0, 1, 2, 3] ∧
  [Stage.none, .frame, .huff, .lz, .raw, .finish].map (fun g => g.code.toNat) = [0, 1, 2, 3, 4, 5] ∧
  [ErrKind.none, .formatError, .decodeError].map (fun k => k.code.toNat) = [0, 1, 2] ∧
  [ErrCause.none, .hdrTrunc, .payloadTrunc, .noFlags, .hufHdrTrunc, .hufInvalidCode, .hufIncompleteTable, .hufExhausted,
    .cwTrunc, .tokenTrunc, .brefRange, .capacity].map (fun c => (c.code.toNat, c.kind.code.toNat)) =
    [(0, 0), (1, 1), (2, 1), (3, 1), (4, 1), (5, 2), (6, 2), (7, 2), (8, 2), (9, 2), (10, 2), (11, 2)]

/-- After reset every register is 0, no byte of the three memories has a value, and the engine fetches nothing (R45). -/
def Obligations.ResetValues : Prop :=
  State.reset.state = .idle ∧ State.reset.stage = .none ∧ State.reset.srcSel = .inMem ∧ State.reset.srcPos = 0 ∧
  State.reset.srcEnd = 0 ∧ State.reset.cw = 0 ∧ State.reset.cwCnt = 0 ∧ State.reset.outPos = 0 ∧
  State.reset.paylen = 0 ∧ State.reset.errKind = .none ∧ State.reset.errCause = .none ∧ State.reset.inLen = 0 ∧
  State.reset.outCap = 0 ∧ State.reset.outLen = 0 ∧ State.reset.consumed = 0 ∧ State.reset.flags = 0 ∧
  State.reset.prelz = 0 ∧ State.reset.errPos = 0 ∧ State.reset.statusWord = 0 ∧
  engineTurn State.reset = .next State.reset ∧ ∀ (sp : Space) (a : Nat), (State.reset.memory sp).read a = none

/-- The reset event puts every register and memory at its reset value from any state, BUSY included; the parameters of
the build are kept (R210). What the model's own fields do is its choice (log 20). -/
def Obligations.ResetEventFromAnyState : Prop :=
  ∀ s : State, ∃ t, hostMove .reset s = t ∧ t.params = s.params ∧
    { t with params := State.reset.params, hostTurns := State.reset.hostTurns, portData := State.reset.portData,
             freeIdx := State.reset.freeIdx } = State.reset

/-- A write of `CTRL` (R38, R46): `START` outside BUSY initialises the run and leaves `IN_LEN`, `OUT_CAP` and the memories;
`CLEAR` in `DONE` or `ERROR` does the same to `IDLE`; `START` wins; every other write changes nothing. -/
def Obligations.CtrlCommands : Prop :=
  ∀ (s : State) (v : BitVec 32),
    (s.state ≠ .busy → v.getLsbD 0 = true → hostMove (.writeReg 0 v) s =
      { s with stage := .frame, srcSel := .inMem, srcPos := 0, srcEnd := 0, cw := 0, cwCnt := 0, outPos := 0, paylen := 0,
               errKind := .none, errCause := .none, errPos := 0, outLen := 0, consumed := 0, flags := 0, prelz := 0,
               state := .busy }) ∧
    (s.state = .done ∨ s.state = .error → v.getLsbD 0 = false → v.getLsbD 1 = true → hostMove (.writeReg 0 v) s =
      { s with stage := .none, srcSel := .inMem, srcPos := 0, srcEnd := 0, cw := 0, cwCnt := 0, outPos := 0, paylen := 0,
               errKind := .none, errCause := .none, errPos := 0, outLen := 0, consumed := 0, flags := 0, prelz := 0,
               state := .idle }) ∧
    (s.state = .busy ∨ (v.getLsbD 0 = false ∧ (v.getLsbD 1 = false ∨ s.state = .idle)) →
      hostMove (.writeReg 0 v) s = s)

/-- Host writes: while BUSY none changes anything; otherwise `IN_LEN`, `OUT_CAP` and the bytes of `IN_MEM` take the value
written, and every other register number and every address outside the window take nothing (R38, R39, R47, R79). That a write of the
read-only registers 4 to 8 takes nothing is the model's deduction (log 23); for `STATUS` R30 states it. -/
def Obligations.HostWrites : Prop :=
  ∀ s : State,
    (s.state = .busy → ∀ n v a b, hostMove (.writeReg n v) s = s ∧ hostMove (.writeIn a b) s = s) ∧
    (s.state ≠ .busy → ∀ v, hostMove (.writeReg 2 v) s = { s with inLen := v } ∧
      hostMove (.writeReg 3 v) s = { s with outCap := v }) ∧
    (∀ n v, n ≠ 0 → n ≠ 2 → n ≠ 3 → hostMove (.writeReg n v) s = s) ∧
    (s.state ≠ .busy → ∀ a b, a < 65539 →
      Mem.read (hostMove (.writeIn a b) s).inMem a = some b ∧
      (∀ k, k ≠ a → Mem.read (hostMove (.writeIn a b) s).inMem k = Mem.read s.inMem k) ∧
      { hostMove (.writeIn a b) s with inMem := s.inMem } = s) ∧
    (∀ a b, 65539 ≤ a → hostMove (.writeIn a b) s = s)

/-- Host reads of registers outside BUSY answer each register's value, `CTRL` and numbers above 8 answer 0, and nothing
but the port changes; `STATUS` answers so in BUSY too (R30 to R39, R79). -/
def Obligations.HostRegisterReads : Prop :=
  ∀ s : State,
    hostMove (.readReg 0) s = { s with portData := 0 } ∧
    hostMove (.readReg 1) s = { s with portData := s.statusWord } ∧
    (∀ n, 8 < n → hostMove (.readReg n) s = { s with portData := 0 }) ∧
    (s.state ≠ .busy →
      hostMove (.readReg 2) s = { s with portData := s.inLen } ∧
      hostMove (.readReg 3) s = { s with portData := s.outCap } ∧
      hostMove (.readReg 4) s = { s with portData := s.outLen } ∧
      hostMove (.readReg 5) s = { s with portData := BitVec.ofNat 32 s.consumed.toNat } ∧
      hostMove (.readReg 6) s = { s with portData := BitVec.ofNat 32 s.flags.toNat } ∧
      hostMove (.readReg 7) s = { s with portData := BitVec.ofNat 32 s.prelz.toNat } ∧
      hostMove (.readReg 8) s = { s with portData := BitVec.ofNat 32 s.errPos.toNat })

/-- A host read of `OUT_MEM` in `DONE` below `OUT_LEN` answers the byte; no read, of a register or of the window, in any
state, changes anything but the port's answer and the count of free values (R47, R67, R214). -/
def Obligations.HostReadsOfOutMem : Prop :=
  ∀ s : State,
    (∀ a b, s.state = .done → a < s.outLen.toNat → a < s.params.outMemBytes → Mem.read s.outMem a = some b →
      hostMove (.readOut a) s = { s with portData := BitVec.ofNat 32 b.toNat }) ∧
    (∀ a, { hostMove (.readOut a) s with portData := s.portData, freeIdx := s.freeIdx } = s) ∧
    (∀ n, { hostMove (.readReg n) s with portData := s.portData, freeIdx := s.freeIdx } = s)

/-! The whole machine. -/

/-- The engine never writes `IN_MEM`, `IN_LEN`, `OUT_CAP`, a parameter, or the host's own fields; it writes `MID_MEM` in
stage HUFF only and `OUT_MEM` in stages LZ and RAW only (R31, R32, R40 to R42, R60). -/
def Obligations.EngineWritesOnlyItsOwn : Prop :=
  ∀ s t : State, engineTurn s = .next t →
    t.inMem = s.inMem ∧ t.inLen = s.inLen ∧ t.outCap = s.outCap ∧ t.params = s.params ∧ t.hostTurns = s.hostTurns ∧
    t.portData = s.portData ∧ t.freeIdx = s.freeIdx ∧
    (s.stage ≠ .huff → t.midMem = s.midMem) ∧ (s.stage ≠ .lz → s.stage ≠ .raw → t.outMem = s.outMem)

/-- No step of the engine changes a byte of `OUT_MEM` outside `[OUT_POS, ECAP)`, in any state whatever (R69, R157, R222). -/
def Obligations.OutputStaysInsideCapacity : Prop :=
  ∀ (s t : State) (a : Nat), engineTurn s = .next t → Mem.read t.outMem a ≠ Mem.read s.outMem a →
    s.outPos.toNat ≤ a ∧ a < s.ecap

/-- Every step of stage LZ raises, or ends the stage with the source used up, or moves the cursor forward by 1 to 3 bytes
and stays in the stage; the cursor never passes `SRC_END` (R24, R155). -/
def Obligations.LzStepProgresses : Prop :=
  ∀ s t : State, s.state = .busy → s.stage = .lz → s.srcPos.toNat ≤ s.srcEnd.toNat → engineTurn s = .next t →
    t.state = .error ∨
    (t.state = .busy ∧ t.stage = .finish ∧ s.srcPos = s.srcEnd ∧ t.srcPos = s.srcPos) ∨
    (t.state = .busy ∧ t.stage = .lz ∧ s.srcPos.toNat < t.srcPos.toNat ∧ t.srcPos.toNat ≤ s.srcPos.toNat + 3 ∧
      t.srcPos.toNat ≤ s.srcEnd.toNat ∧ t.srcEnd = s.srcEnd)

/-- The legal changes of `STATE`, the whole of them (R215), over every step: the engine's, and each move of the host. -/
def Obligations.LegalPhaseChanges : Prop :=
  ∀ s t : State, step s = .next t →
    match s.hostTurns with
    | .move .reset :: _ => t.state = .idle
    | .move (.writeReg 0 v) :: _ =>
        (s.state = .busy → t.state = .busy) ∧
        (s.state ≠ .busy → v.getLsbD 0 = true → t.state = .busy) ∧
        (s.state ≠ .busy → v.getLsbD 0 = false → v.getLsbD 1 = true → t.state = .idle) ∧
        (v.getLsbD 0 = false → v.getLsbD 1 = false → t.state = s.state)
    | .move _ :: _ => t.state = s.state
    | _ =>
        (s.state ≠ .busy → t.state = s.state) ∧
        (s.state = .busy → t.state = .busy ∨ t.state = .done ∨ t.state = .error) ∧
        (s.state = .busy → (t.state = .done ↔ s.stage = .finish))

/-- No step ever ends in a refusal: whatever is fetched decodes (R107). -/
def Obligations.StepNeverRefuses : Prop :=
  ∀ (s : State) (r : Refusal), step s ≠ .refused r

/-- Every step keeps the three memories canonical and inside their spaces (R60). -/
def Obligations.StepKeepsMemoryCanonical : Prop :=
  ∀ s t : State, s.MemOk → step s = .next t → t.MemOk

/-- Every step keeps `ERR_KIND` and `ERR_CAUSE` nonzero exactly in `ERROR`, the kind being the cause's (R30, R182). -/
def Obligations.StepKeepsErrorCodes : Prop :=
  ∀ s t : State, s.ErrorOk → step s = .next t → t.ErrorOk

/-- Every step keeps `OUT_LEN` and `CONSUMED` at 0 in every state but `DONE` (R33, R34). -/
def Obligations.StepKeepsResultsHidden : Prop :=
  ∀ s t : State, (s.state ≠ .done → s.outLen = 0 ∧ s.consumed = 0) → step s = .next t →
    (t.state ≠ .done → t.outLen = 0 ∧ t.consumed = 0)

/-- Every step, of the engine or of the host, keeps the invariant of the machine: cursors in range, status and results
consistent, every byte that can be read written, stage, flags and source in accord (R24 to R30, R33, R34, R48, R70, R125,
R126). -/
def Obligations.StepKeepsInvariant : Prop :=
  ∀ s t : State, s.Inv → step s = .next t → t.Inv

/-- The invariant holds after reset. -/
def Obligations.InvariantHoldsAtReset : Prop := State.reset.Inv

/-- Under the invariant, and with every byte that `IN_LEN` counts written (the host's duty, R213), no step faults: the
engine has a step in every BUSY state and no step reads a byte without a value (R48, R224). -/
def Obligations.LoadedMachineNeverFaults : Prop :=
  ∀ s : State, s.Inv → s.Loaded → ∃ t, step s = .next t

/-- Every run ends: from a BUSY state under the invariant, loaded and with no host turn pending, the machine is in `DONE`
or `ERROR` after at most 65539 steps, one for each of FRAME, HUFF and FINISH and 65536 for stage LZ (R155, R224). -/
def Obligations.EveryRunEnds : Prop :=
  ∀ s : State, s.Inv → s.Loaded → s.hostTurns = [] → s.state = .busy →
    ∃ t, runFor 65539 s = .next t ∧ t.ended

/-- What the engine never reads has no effect on a step: the reserved frame bytes 2 and 3, and every byte of `IN_MEM` at
or past the end of the frame (R12, R92, R121). -/
def Obligations.UnreadBytesHaveNoEffect : Prop :=
  ∀ (s : State) (m : Mem), s.Inv → s.hostTurns = [] →
    (∀ a, a ≠ 2 → a ≠ 3 →
      a < 4 + (if s.stage = .frame then
        (payloadLength ((Mem.read s.inMem 0).getD 0) ((Mem.read s.inMem 1).getD 0)).toNat else s.paylen.toNat) →
      Mem.read m a = Mem.read s.inMem a) →
    step { s with inMem := m } = Result.withInMem (step s) m

/-- Stage LZ computes `LzDecode`: entered with an empty output, it ends with `OUT_MEM[0 : OUT_POS]` the decoded bytes in
stage FINISH, or raises the same error, within one step more than the source has bytes (R154, R155). -/
def Obligations.LzStageComputesLzDecode : Prop :=
  ∀ (s : State) (src : List Byte), s.hostTurns = [] → s.state = .busy → s.stage = .lz → s.cwCnt = 0 → s.outPos = 0 →
    s.srcPos.toNat + src.length = s.srcEnd.toNat → s.srcEnd.toNat ≤ s.spaceSize s.srcSel.space →
    Mem.holds s.srcMem s.srcPos.toNat src →
    ∃ k t, k ≤ src.length + 1 ∧ runFor k s = .next t ∧
      match lzDecode s.params.cwOrder s.ecap src with
      | .ok out => t.state = .busy ∧ t.stage = .finish ∧ t.outPos.toNat = out.length ∧ Mem.holds t.outMem 0 out
      | .error cause => t.state = .error ∧ t.errCause = cause ∧ t.errKind = .decodeError ∧ t.stage = .lz

/-- A run of the machine computes `BlockDecode`: started on a loaded frame it ends in `DONE` with exactly its output and
consumed count, or in `ERROR` with its kind and cause (R134). -/
def Obligations.RunComputesBlockDecode : Prop :=
  ∀ (s : State) (f : List Byte), s.hostTurns = [] → s.state ≠ .busy → Mem.holds s.inMem 0 f → f.length ≤ 65539 →
    s.inLen.toNat ≤ f.length →
    ∃ t, runFor 65539 (hostMove (.writeReg 0 1) s) = .next t ∧
      match blockDecode s.params.cwOrder f s.inLen.toNat s.ecap with
      | .ok (out, consumed) => t.state = .done ∧ t.outLen.toNat = out.length ∧ Mem.holds t.outMem 0 out ∧
          t.consumed.toNat = consumed
      | .error cause => t.state = .error ∧ t.errCause = cause ∧ t.errKind = cause.kind ∧ t.outLen = 0 ∧ t.consumed = 0

/-- A `BLK_RAW` run (R130): FRAME, RAW and FINISH, three steps, give `payload[1:]` unchanged. -/
def Obligations.RawBlockRun : Prop :=
  ∀ (s : State) (lo hi r0 r1 flg : Byte) (body : List Byte), s.hostTurns = [] → s.state ≠ .busy →
    Mem.holds s.inMem 0 (lo :: hi :: r0 :: r1 :: flg :: body) → lo.toNat + 256 * hi.toNat = body.length + 1 →
    4 + (body.length + 1) ≤ s.inLen.toNat → flg.getLsbD 0 = false → flg.getLsbD 1 = false → body.length ≤ s.ecap →
    ∃ t, runFor 3 (hostMove (.writeReg 0 1) s) = .next t ∧ t.state = .done ∧ t.outLen.toNat = body.length ∧
      Mem.holds t.outMem 0 body ∧ t.consumed.toNat = 4 + (body.length + 1) ∧ t.flags = flg ∧ t.prelz = 0
end

