-- ==== Sys2Proof/Laws/Memory.lean ====
section
/-! SUPPORT. Memory: a read after a write, and that every memory operation keeps the canonical form. -/

namespace Sys2Proof.Machine

@[simp] theorem Mem.read_nil (a : Nat) : Mem.read [] a = none := rfl

/-- A read gives the byte just written there. -/
@[simp] theorem Mem.read_write_same (m : Mem) (k : Nat) (v : Byte) : Mem.read (Mem.write m k v) k = some v := by
  induction m with
  | nil => simp [Mem.write, Mem.read]
  | cons p rest ih =>
    obtain ⟨a, b⟩ := p
    simp only [Mem.write]
    split
    · simp [Mem.read]
    · split
      · simp [Mem.read]
      · rename_i _ hne
        simp only [Mem.read, if_neg (Ne.symm hne)]
        exact ih

/-- A write leaves every other byte alone (R67). -/
theorem Mem.read_write_ne (m : Mem) {k a : Nat} (v : Byte) (h : a ≠ k) :
    Mem.read (Mem.write m k v) a = Mem.read m a := by
  induction m with
  | nil => simp [Mem.write, Mem.read, Ne.symm h]
  | cons p rest ih =>
    obtain ⟨c, b⟩ := p
    simp only [Mem.write]
    split
    · simp [Mem.read, Ne.symm h]
    · split
      · rename_i hkc
        subst hkc
        simp [Mem.read, Ne.symm h]
      · simp only [Mem.read]
        split
        · rfl
        · exact ih

/-- Read after write, in one equation. -/
theorem Mem.read_write (m : Mem) (k a : Nat) (v : Byte) :
    Mem.read (Mem.write m k v) a = if a = k then some v else Mem.read m a := by
  split
  · subst a; simp
  · exact Mem.read_write_ne m v ‹_›

/-- Every entry after a write is an old one or the new one. -/
theorem Mem.mem_write {m : Mem} {k : Nat} {v : Byte} {p : Host.Cell} (h : p ∈ Mem.write m k v) :
    p ∈ m ∨ p = (k, v) := by
  induction m with
  | nil => simp only [Mem.write, List.mem_singleton] at h; exact .inr h
  | cons q rest ih =>
    obtain ⟨a, b⟩ := q
    simp only [Mem.write] at h
    split at h
    · simp only [List.mem_cons] at h ⊢; tauto
    · split at h
      · simp only [List.mem_cons] at h ⊢; tauto
      · rcases List.mem_cons.mp h with h | h
        · exact .inl (by simp [h])
        · rcases ih h with h | h
          · exact .inl (by simp [h])
          · exact .inr h

/-- A write keeps the canonical form. -/
theorem Mem.write_wf {m : Mem} (h : Mem.wf m) (k : Nat) (v : Byte) : Mem.wf (Mem.write m k v) := by
  induction m with
  | nil => simp [Mem.write, Mem.wf]
  | cons q rest ih =>
    obtain ⟨a, b⟩ := q
    have hq := List.pairwise_cons.mp h
    simp only [Mem.write]
    split
    · rename_i hlt
      refine List.pairwise_cons.mpr ⟨fun p hp => ?_, h⟩
      rcases List.mem_cons.mp hp with rfl | hp
      · exact hlt
      · exact Nat.lt_trans hlt (hq.1 p hp)
    · split
      · rename_i hka
        subst hka
        exact List.pairwise_cons.mpr ⟨hq.1, hq.2⟩
      · rename_i h1 h2
        refine List.pairwise_cons.mpr ⟨fun p hp => ?_, ih hq.2⟩
        rcases Mem.mem_write hp with hp | rfl
        · exact hq.1 p hp
        · show a < k
          omega

/-- A byte with a value stands in the list. -/
theorem Mem.mem_of_read {m : Mem} {a : Nat} {b : Byte} (h : Mem.read m a = some b) : (a, b) ∈ m := by
  induction m with
  | nil => simp at h
  | cons q rest ih =>
    obtain ⟨c, d⟩ := q
    simp only [Mem.read] at h
    split at h
    · rename_i hca
      simp only [Option.some.injEq] at h
      simp [hca, h]
    · exact List.mem_cons_of_mem _ (ih h)

/-- Reading after a run of writes: the written bytes where they stand, elsewhere the old ones (R172). -/
theorem Mem.read_writeList (bs : List Byte) : ∀ (m : Mem) (i a : Nat),
    Mem.read (Mem.writeList m i bs) a = if i ≤ a ∧ a < i + bs.length then bs[a - i]? else Mem.read m a := by
  induction bs with
  | nil => intro m i a; simp [Mem.writeList]
  | cons b bs ih =>
    intro m i a
    rw [Mem.writeList, ih, Mem.read_write]
    simp only [List.length_cons]
    by_cases h1 : i + 1 ≤ a ∧ a < i + 1 + bs.length
    · rw [if_pos h1, if_pos (by omega)]
      obtain ⟨j, rfl⟩ : ∃ j, a = i + 1 + j := ⟨a - (i + 1), by omega⟩
      have e1 : i + 1 + j - (i + 1) = j := by omega
      have e2 : i + 1 + j - i = j + 1 := by omega
      rw [e1, e2, List.getElem?_cons_succ]
    · rw [if_neg h1]
      by_cases h2 : a = i
      · subst h2
        rw [if_pos rfl, if_pos (by omega)]
        simp
      · rw [if_neg h2, if_neg (by omega)]

/-- A run of writes keeps the canonical form. -/
theorem Mem.writeList_wf (bs : List Byte) : ∀ {m : Mem} (i : Nat), Mem.wf m → Mem.wf (Mem.writeList m i bs) := by
  induction bs with
  | nil => intro m i h; exact h
  | cons b bs ih => intro m i h; exact ih (i + 1) (Mem.write_wf h i b)

/-- Every entry after a run of writes is an old one or lies in the written range. -/
theorem Mem.mem_writeList (bs : List Byte) : ∀ {m : Mem} {i : Nat} {p : Host.Cell},
    p ∈ Mem.writeList m i bs → p ∈ m ∨ (i ≤ p.1 ∧ p.1 < i + bs.length) := by
  induction bs with
  | nil => intro m i p h; exact .inl h
  | cons b bs ih =>
    intro m i p h
    simp only [List.length_cons]
    rcases ih h with h | h
    · rcases Mem.mem_write h with h | rfl
      · exact .inl h
      · exact .inr ⟨Nat.le_refl _, by simp⟩
    · exact .inr ⟨by omega, by omega⟩

/-- The memory after reset is canonical. -/
theorem Mem.reset_wf : Mem.wf State.reset.inMem ∧ Mem.wf State.reset.midMem ∧ Mem.wf State.reset.outMem :=
  ⟨List.Pairwise.nil, List.Pairwise.nil, List.Pairwise.nil⟩

/-- A read of memory answers a byte exactly when the space has the address and the byte has a value (R48, R60). -/
theorem memRead_ok_iff (sp : Space) (a : Nat) (s : State) (b : Byte) :
    memRead sp a s = .ok b ↔ a < s.spaceSize sp ∧ (s.memory sp).read a = some b := by
  unfold memRead
  split
  · cases h : (s.memory sp).read a <;> simp [*]
  · simp [*]

/-- `Src(a)` answers a byte exactly below `SRC_END` (R66). -/
theorem readSrc_ok_iff (a : Nat) (s : State) (b : Byte) :
    readSrc a s = .ok b ↔ a < s.srcEnd.toNat ∧ memRead s.srcSel.space a s = .ok b := by
  unfold readSrc
  split <;> simp [*]

end Sys2Proof.Machine
end

