-- ==== Sys2Proof/Laws/State.lean ====
section
/-! SUPPORT. One lemma per field for each named update of the state: what the update leaves in that field. -/

namespace Sys2Proof.Machine

/-! `State.tokenDecision`. -/

@[simp] theorem State.tokenDecision_state (s : State) : s.tokenDecision.state = s.state := rfl
@[simp] theorem State.tokenDecision_stage (s : State) : s.tokenDecision.stage = s.stage := rfl
@[simp] theorem State.tokenDecision_srcSel (s : State) : s.tokenDecision.srcSel = s.srcSel := rfl
@[simp] theorem State.tokenDecision_srcPos (s : State) : s.tokenDecision.srcPos = s.srcPos := rfl
@[simp] theorem State.tokenDecision_srcEnd (s : State) : s.tokenDecision.srcEnd = s.srcEnd := rfl
@[simp] theorem State.tokenDecision_cw (s : State) : s.tokenDecision.cw = s.cw <<< 1 := rfl
@[simp] theorem State.tokenDecision_cwCnt (s : State) :
    s.tokenDecision.cwCnt = BitVec.ofNat 5 (s.cwCnt.toNat - 1) := rfl
@[simp] theorem State.tokenDecision_outPos (s : State) : s.tokenDecision.outPos = s.outPos := rfl
@[simp] theorem State.tokenDecision_paylen (s : State) : s.tokenDecision.paylen = s.paylen := rfl
@[simp] theorem State.tokenDecision_errKind (s : State) : s.tokenDecision.errKind = s.errKind := rfl
@[simp] theorem State.tokenDecision_errCause (s : State) :
    s.tokenDecision.errCause = s.errCause := rfl
@[simp] theorem State.tokenDecision_inLen (s : State) : s.tokenDecision.inLen = s.inLen := rfl
@[simp] theorem State.tokenDecision_outCap (s : State) : s.tokenDecision.outCap = s.outCap := rfl
@[simp] theorem State.tokenDecision_outLen (s : State) : s.tokenDecision.outLen = s.outLen := rfl
@[simp] theorem State.tokenDecision_consumed (s : State) :
    s.tokenDecision.consumed = s.consumed := rfl
@[simp] theorem State.tokenDecision_flags (s : State) : s.tokenDecision.flags = s.flags := rfl
@[simp] theorem State.tokenDecision_prelz (s : State) : s.tokenDecision.prelz = s.prelz := rfl
@[simp] theorem State.tokenDecision_errPos (s : State) : s.tokenDecision.errPos = s.errPos := rfl
@[simp] theorem State.tokenDecision_inMem (s : State) : s.tokenDecision.inMem = s.inMem := rfl
@[simp] theorem State.tokenDecision_midMem (s : State) : s.tokenDecision.midMem = s.midMem := rfl
@[simp] theorem State.tokenDecision_outMem (s : State) : s.tokenDecision.outMem = s.outMem := rfl
@[simp] theorem State.tokenDecision_params (s : State) : s.tokenDecision.params = s.params := rfl
@[simp] theorem State.tokenDecision_hostTurns (s : State) :
    s.tokenDecision.hostTurns = s.hostTurns := rfl
@[simp] theorem State.tokenDecision_portData (s : State) :
    s.tokenDecision.portData = s.portData := rfl
@[simp] theorem State.tokenDecision_freeIdx (s : State) : s.tokenDecision.freeIdx = s.freeIdx := rfl

/-! `State.advanceSrc`. -/

@[simp] theorem State.advanceSrc_state (s : State) (k : Nat) :
    (s.advanceSrc k).state = s.state := rfl
@[simp] theorem State.advanceSrc_stage (s : State) (k : Nat) :
    (s.advanceSrc k).stage = s.stage := rfl
@[simp] theorem State.advanceSrc_srcSel (s : State) (k : Nat) :
    (s.advanceSrc k).srcSel = s.srcSel := rfl
@[simp] theorem State.advanceSrc_srcPos (s : State) (k : Nat) :
    (s.advanceSrc k).srcPos = BitVec.ofNat 17 (s.srcPos.toNat + k) := rfl
@[simp] theorem State.advanceSrc_srcEnd (s : State) (k : Nat) :
    (s.advanceSrc k).srcEnd = s.srcEnd := rfl
@[simp] theorem State.advanceSrc_cw (s : State) (k : Nat) : (s.advanceSrc k).cw = s.cw := rfl
@[simp] theorem State.advanceSrc_cwCnt (s : State) (k : Nat) :
    (s.advanceSrc k).cwCnt = s.cwCnt := rfl
@[simp] theorem State.advanceSrc_outPos (s : State) (k : Nat) :
    (s.advanceSrc k).outPos = s.outPos := rfl
@[simp] theorem State.advanceSrc_paylen (s : State) (k : Nat) :
    (s.advanceSrc k).paylen = s.paylen := rfl
@[simp] theorem State.advanceSrc_errKind (s : State) (k : Nat) :
    (s.advanceSrc k).errKind = s.errKind := rfl
@[simp] theorem State.advanceSrc_errCause (s : State) (k : Nat) :
    (s.advanceSrc k).errCause = s.errCause := rfl
@[simp] theorem State.advanceSrc_inLen (s : State) (k : Nat) :
    (s.advanceSrc k).inLen = s.inLen := rfl
@[simp] theorem State.advanceSrc_outCap (s : State) (k : Nat) :
    (s.advanceSrc k).outCap = s.outCap := rfl
@[simp] theorem State.advanceSrc_outLen (s : State) (k : Nat) :
    (s.advanceSrc k).outLen = s.outLen := rfl
@[simp] theorem State.advanceSrc_consumed (s : State) (k : Nat) :
    (s.advanceSrc k).consumed = s.consumed := rfl
@[simp] theorem State.advanceSrc_flags (s : State) (k : Nat) :
    (s.advanceSrc k).flags = s.flags := rfl
@[simp] theorem State.advanceSrc_prelz (s : State) (k : Nat) :
    (s.advanceSrc k).prelz = s.prelz := rfl
@[simp] theorem State.advanceSrc_errPos (s : State) (k : Nat) :
    (s.advanceSrc k).errPos = s.errPos := rfl
@[simp] theorem State.advanceSrc_inMem (s : State) (k : Nat) :
    (s.advanceSrc k).inMem = s.inMem := rfl
@[simp] theorem State.advanceSrc_midMem (s : State) (k : Nat) :
    (s.advanceSrc k).midMem = s.midMem := rfl
@[simp] theorem State.advanceSrc_outMem (s : State) (k : Nat) :
    (s.advanceSrc k).outMem = s.outMem := rfl
@[simp] theorem State.advanceSrc_params (s : State) (k : Nat) :
    (s.advanceSrc k).params = s.params := rfl
@[simp] theorem State.advanceSrc_hostTurns (s : State) (k : Nat) :
    (s.advanceSrc k).hostTurns = s.hostTurns := rfl
@[simp] theorem State.advanceSrc_portData (s : State) (k : Nat) :
    (s.advanceSrc k).portData = s.portData := rfl
@[simp] theorem State.advanceSrc_freeIdx (s : State) (k : Nat) :
    (s.advanceSrc k).freeIdx = s.freeIdx := rfl

/-! `State.setStage`. -/

@[simp] theorem State.setStage_state (s : State) (g : Stage) : (s.setStage g).state = s.state := rfl
@[simp] theorem State.setStage_stage (s : State) (g : Stage) : (s.setStage g).stage = g := rfl
@[simp] theorem State.setStage_srcSel (s : State) (g : Stage) :
    (s.setStage g).srcSel = s.srcSel := rfl
@[simp] theorem State.setStage_srcPos (s : State) (g : Stage) :
    (s.setStage g).srcPos = s.srcPos := rfl
@[simp] theorem State.setStage_srcEnd (s : State) (g : Stage) :
    (s.setStage g).srcEnd = s.srcEnd := rfl
@[simp] theorem State.setStage_cw (s : State) (g : Stage) : (s.setStage g).cw = s.cw := rfl
@[simp] theorem State.setStage_cwCnt (s : State) (g : Stage) : (s.setStage g).cwCnt = s.cwCnt := rfl
@[simp] theorem State.setStage_outPos (s : State) (g : Stage) :
    (s.setStage g).outPos = s.outPos := rfl
@[simp] theorem State.setStage_paylen (s : State) (g : Stage) :
    (s.setStage g).paylen = s.paylen := rfl
@[simp] theorem State.setStage_errKind (s : State) (g : Stage) :
    (s.setStage g).errKind = s.errKind := rfl
@[simp] theorem State.setStage_errCause (s : State) (g : Stage) :
    (s.setStage g).errCause = s.errCause := rfl
@[simp] theorem State.setStage_inLen (s : State) (g : Stage) : (s.setStage g).inLen = s.inLen := rfl
@[simp] theorem State.setStage_outCap (s : State) (g : Stage) :
    (s.setStage g).outCap = s.outCap := rfl
@[simp] theorem State.setStage_outLen (s : State) (g : Stage) :
    (s.setStage g).outLen = s.outLen := rfl
@[simp] theorem State.setStage_consumed (s : State) (g : Stage) :
    (s.setStage g).consumed = s.consumed := rfl
@[simp] theorem State.setStage_flags (s : State) (g : Stage) : (s.setStage g).flags = s.flags := rfl
@[simp] theorem State.setStage_prelz (s : State) (g : Stage) : (s.setStage g).prelz = s.prelz := rfl
@[simp] theorem State.setStage_errPos (s : State) (g : Stage) :
    (s.setStage g).errPos = s.errPos := rfl
@[simp] theorem State.setStage_inMem (s : State) (g : Stage) : (s.setStage g).inMem = s.inMem := rfl
@[simp] theorem State.setStage_midMem (s : State) (g : Stage) :
    (s.setStage g).midMem = s.midMem := rfl
@[simp] theorem State.setStage_outMem (s : State) (g : Stage) :
    (s.setStage g).outMem = s.outMem := rfl
@[simp] theorem State.setStage_params (s : State) (g : Stage) :
    (s.setStage g).params = s.params := rfl
@[simp] theorem State.setStage_hostTurns (s : State) (g : Stage) :
    (s.setStage g).hostTurns = s.hostTurns := rfl
@[simp] theorem State.setStage_portData (s : State) (g : Stage) :
    (s.setStage g).portData = s.portData := rfl
@[simp] theorem State.setStage_freeIdx (s : State) (g : Stage) :
    (s.setStage g).freeIdx = s.freeIdx := rfl

/-! `State.emit`. -/

@[simp] theorem State.emit_state (s : State) (v : Byte) : (s.emit v).state = s.state := rfl
@[simp] theorem State.emit_stage (s : State) (v : Byte) : (s.emit v).stage = s.stage := rfl
@[simp] theorem State.emit_srcSel (s : State) (v : Byte) : (s.emit v).srcSel = s.srcSel := rfl
@[simp] theorem State.emit_srcPos (s : State) (v : Byte) : (s.emit v).srcPos = s.srcPos := rfl
@[simp] theorem State.emit_srcEnd (s : State) (v : Byte) : (s.emit v).srcEnd = s.srcEnd := rfl
@[simp] theorem State.emit_cw (s : State) (v : Byte) : (s.emit v).cw = s.cw := rfl
@[simp] theorem State.emit_cwCnt (s : State) (v : Byte) : (s.emit v).cwCnt = s.cwCnt := rfl
@[simp] theorem State.emit_outPos (s : State) (v : Byte) :
    (s.emit v).outPos = BitVec.ofNat 32 (s.outPos.toNat + 1) := rfl
@[simp] theorem State.emit_paylen (s : State) (v : Byte) : (s.emit v).paylen = s.paylen := rfl
@[simp] theorem State.emit_errKind (s : State) (v : Byte) : (s.emit v).errKind = s.errKind := rfl
@[simp] theorem State.emit_errCause (s : State) (v : Byte) : (s.emit v).errCause = s.errCause := rfl
@[simp] theorem State.emit_inLen (s : State) (v : Byte) : (s.emit v).inLen = s.inLen := rfl
@[simp] theorem State.emit_outCap (s : State) (v : Byte) : (s.emit v).outCap = s.outCap := rfl
@[simp] theorem State.emit_outLen (s : State) (v : Byte) : (s.emit v).outLen = s.outLen := rfl
@[simp] theorem State.emit_consumed (s : State) (v : Byte) : (s.emit v).consumed = s.consumed := rfl
@[simp] theorem State.emit_flags (s : State) (v : Byte) : (s.emit v).flags = s.flags := rfl
@[simp] theorem State.emit_prelz (s : State) (v : Byte) : (s.emit v).prelz = s.prelz := rfl
@[simp] theorem State.emit_errPos (s : State) (v : Byte) : (s.emit v).errPos = s.errPos := rfl
@[simp] theorem State.emit_inMem (s : State) (v : Byte) : (s.emit v).inMem = s.inMem := rfl
@[simp] theorem State.emit_midMem (s : State) (v : Byte) : (s.emit v).midMem = s.midMem := rfl
@[simp] theorem State.emit_outMem (s : State) (v : Byte) :
    (s.emit v).outMem = s.outMem.write s.outPos.toNat v := rfl
@[simp] theorem State.emit_params (s : State) (v : Byte) : (s.emit v).params = s.params := rfl
@[simp] theorem State.emit_hostTurns (s : State) (v : Byte) :
    (s.emit v).hostTurns = s.hostTurns := rfl
@[simp] theorem State.emit_portData (s : State) (v : Byte) : (s.emit v).portData = s.portData := rfl
@[simp] theorem State.emit_freeIdx (s : State) (v : Byte) : (s.emit v).freeIdx = s.freeIdx := rfl

/-! `State.errorEntry`. -/

@[simp] theorem State.errorEntry_state (s : State) (k : ErrKind) (c : ErrCause) :
    (s.errorEntry k c).state = .error := rfl
@[simp] theorem State.errorEntry_stage (s : State) (k : ErrKind) (c : ErrCause) :
    (s.errorEntry k c).stage = s.stage := rfl
@[simp] theorem State.errorEntry_srcSel (s : State) (k : ErrKind) (c : ErrCause) :
    (s.errorEntry k c).srcSel = s.srcSel := rfl
@[simp] theorem State.errorEntry_srcPos (s : State) (k : ErrKind) (c : ErrCause) :
    (s.errorEntry k c).srcPos = s.srcPos := rfl
@[simp] theorem State.errorEntry_srcEnd (s : State) (k : ErrKind) (c : ErrCause) :
    (s.errorEntry k c).srcEnd = s.srcEnd := rfl
@[simp] theorem State.errorEntry_cw (s : State) (k : ErrKind) (c : ErrCause) :
    (s.errorEntry k c).cw = s.cw := rfl
@[simp] theorem State.errorEntry_cwCnt (s : State) (k : ErrKind) (c : ErrCause) :
    (s.errorEntry k c).cwCnt = s.cwCnt := rfl
@[simp] theorem State.errorEntry_outPos (s : State) (k : ErrKind) (c : ErrCause) :
    (s.errorEntry k c).outPos = s.outPos := rfl
@[simp] theorem State.errorEntry_paylen (s : State) (k : ErrKind) (c : ErrCause) :
    (s.errorEntry k c).paylen = s.paylen := rfl
@[simp] theorem State.errorEntry_errKind (s : State) (k : ErrKind) (c : ErrCause) :
    (s.errorEntry k c).errKind = k := rfl
@[simp] theorem State.errorEntry_errCause (s : State) (k : ErrKind) (c : ErrCause) :
    (s.errorEntry k c).errCause = c := rfl
@[simp] theorem State.errorEntry_inLen (s : State) (k : ErrKind) (c : ErrCause) :
    (s.errorEntry k c).inLen = s.inLen := rfl
@[simp] theorem State.errorEntry_outCap (s : State) (k : ErrKind) (c : ErrCause) :
    (s.errorEntry k c).outCap = s.outCap := rfl
@[simp] theorem State.errorEntry_outLen (s : State) (k : ErrKind) (c : ErrCause) :
    (s.errorEntry k c).outLen = 0 := rfl
@[simp] theorem State.errorEntry_consumed (s : State) (k : ErrKind) (c : ErrCause) :
    (s.errorEntry k c).consumed = 0 := rfl
@[simp] theorem State.errorEntry_flags (s : State) (k : ErrKind) (c : ErrCause) :
    (s.errorEntry k c).flags = s.flags := rfl
@[simp] theorem State.errorEntry_prelz (s : State) (k : ErrKind) (c : ErrCause) :
    (s.errorEntry k c).prelz = s.prelz := rfl
@[simp] theorem State.errorEntry_errPos (s : State) (k : ErrKind) (c : ErrCause) :
    (s.errorEntry k c).errPos = if s.stage = .lz ∨ s.stage = .raw then s.srcPos else 0 := rfl
@[simp] theorem State.errorEntry_inMem (s : State) (k : ErrKind) (c : ErrCause) :
    (s.errorEntry k c).inMem = s.inMem := rfl
@[simp] theorem State.errorEntry_midMem (s : State) (k : ErrKind) (c : ErrCause) :
    (s.errorEntry k c).midMem = s.midMem := rfl
@[simp] theorem State.errorEntry_outMem (s : State) (k : ErrKind) (c : ErrCause) :
    (s.errorEntry k c).outMem = s.outMem := rfl
@[simp] theorem State.errorEntry_params (s : State) (k : ErrKind) (c : ErrCause) :
    (s.errorEntry k c).params = s.params := rfl
@[simp] theorem State.errorEntry_hostTurns (s : State) (k : ErrKind) (c : ErrCause) :
    (s.errorEntry k c).hostTurns = s.hostTurns := rfl
@[simp] theorem State.errorEntry_portData (s : State) (k : ErrKind) (c : ErrCause) :
    (s.errorEntry k c).portData = s.portData := rfl
@[simp] theorem State.errorEntry_freeIdx (s : State) (k : ErrKind) (c : ErrCause) :
    (s.errorEntry k c).freeIdx = s.freeIdx := rfl

/-! `State.initRun`. -/

@[simp] theorem State.initRun_state (s : State) (g : Stage) (p : Phase) :
    (s.initRun g p).state = p := rfl
@[simp] theorem State.initRun_stage (s : State) (g : Stage) (p : Phase) :
    (s.initRun g p).stage = g := rfl
@[simp] theorem State.initRun_srcSel (s : State) (g : Stage) (p : Phase) :
    (s.initRun g p).srcSel = .inMem := rfl
@[simp] theorem State.initRun_srcPos (s : State) (g : Stage) (p : Phase) :
    (s.initRun g p).srcPos = 0 := rfl
@[simp] theorem State.initRun_srcEnd (s : State) (g : Stage) (p : Phase) :
    (s.initRun g p).srcEnd = 0 := rfl
@[simp] theorem State.initRun_cw (s : State) (g : Stage) (p : Phase) : (s.initRun g p).cw = 0 := rfl
@[simp] theorem State.initRun_cwCnt (s : State) (g : Stage) (p : Phase) :
    (s.initRun g p).cwCnt = 0 := rfl
@[simp] theorem State.initRun_outPos (s : State) (g : Stage) (p : Phase) :
    (s.initRun g p).outPos = 0 := rfl
@[simp] theorem State.initRun_paylen (s : State) (g : Stage) (p : Phase) :
    (s.initRun g p).paylen = 0 := rfl
@[simp] theorem State.initRun_errKind (s : State) (g : Stage) (p : Phase) :
    (s.initRun g p).errKind = .none := rfl
@[simp] theorem State.initRun_errCause (s : State) (g : Stage) (p : Phase) :
    (s.initRun g p).errCause = .none := rfl
@[simp] theorem State.initRun_inLen (s : State) (g : Stage) (p : Phase) :
    (s.initRun g p).inLen = s.inLen := rfl
@[simp] theorem State.initRun_outCap (s : State) (g : Stage) (p : Phase) :
    (s.initRun g p).outCap = s.outCap := rfl
@[simp] theorem State.initRun_outLen (s : State) (g : Stage) (p : Phase) :
    (s.initRun g p).outLen = 0 := rfl
@[simp] theorem State.initRun_consumed (s : State) (g : Stage) (p : Phase) :
    (s.initRun g p).consumed = 0 := rfl
@[simp] theorem State.initRun_flags (s : State) (g : Stage) (p : Phase) :
    (s.initRun g p).flags = 0 := rfl
@[simp] theorem State.initRun_prelz (s : State) (g : Stage) (p : Phase) :
    (s.initRun g p).prelz = 0 := rfl
@[simp] theorem State.initRun_errPos (s : State) (g : Stage) (p : Phase) :
    (s.initRun g p).errPos = 0 := rfl
@[simp] theorem State.initRun_inMem (s : State) (g : Stage) (p : Phase) :
    (s.initRun g p).inMem = s.inMem := rfl
@[simp] theorem State.initRun_midMem (s : State) (g : Stage) (p : Phase) :
    (s.initRun g p).midMem = s.midMem := rfl
@[simp] theorem State.initRun_outMem (s : State) (g : Stage) (p : Phase) :
    (s.initRun g p).outMem = s.outMem := rfl
@[simp] theorem State.initRun_params (s : State) (g : Stage) (p : Phase) :
    (s.initRun g p).params = s.params := rfl
@[simp] theorem State.initRun_hostTurns (s : State) (g : Stage) (p : Phase) :
    (s.initRun g p).hostTurns = s.hostTurns := rfl
@[simp] theorem State.initRun_portData (s : State) (g : Stage) (p : Phase) :
    (s.initRun g p).portData = s.portData := rfl
@[simp] theorem State.initRun_freeIdx (s : State) (g : Stage) (p : Phase) :
    (s.initRun g p).freeIdx = s.freeIdx := rfl

/-! `State.enterPlain`. -/

@[simp] theorem State.enterPlain_state (s : State) : s.enterPlain.state = s.state := rfl
@[simp] theorem State.enterPlain_stage (s : State) :
    s.enterPlain.stage = if flagLz s.flags then .lz else .raw := rfl
@[simp] theorem State.enterPlain_srcSel (s : State) : s.enterPlain.srcSel = .inMem := rfl
@[simp] theorem State.enterPlain_srcPos (s : State) :
    s.enterPlain.srcPos = BitVec.ofNat 17 (Config.frameHdrBytes + 1) := rfl
@[simp] theorem State.enterPlain_srcEnd (s : State) :
    s.enterPlain.srcEnd = BitVec.ofNat 17 (Config.frameHdrBytes + s.paylen.toNat) := rfl
@[simp] theorem State.enterPlain_cw (s : State) : s.enterPlain.cw = s.cw := rfl
@[simp] theorem State.enterPlain_cwCnt (s : State) : s.enterPlain.cwCnt = s.cwCnt := rfl
@[simp] theorem State.enterPlain_outPos (s : State) : s.enterPlain.outPos = s.outPos := rfl
@[simp] theorem State.enterPlain_paylen (s : State) : s.enterPlain.paylen = s.paylen := rfl
@[simp] theorem State.enterPlain_errKind (s : State) : s.enterPlain.errKind = s.errKind := rfl
@[simp] theorem State.enterPlain_errCause (s : State) : s.enterPlain.errCause = s.errCause := rfl
@[simp] theorem State.enterPlain_inLen (s : State) : s.enterPlain.inLen = s.inLen := rfl
@[simp] theorem State.enterPlain_outCap (s : State) : s.enterPlain.outCap = s.outCap := rfl
@[simp] theorem State.enterPlain_outLen (s : State) : s.enterPlain.outLen = s.outLen := rfl
@[simp] theorem State.enterPlain_consumed (s : State) : s.enterPlain.consumed = s.consumed := rfl
@[simp] theorem State.enterPlain_flags (s : State) : s.enterPlain.flags = s.flags := rfl
@[simp] theorem State.enterPlain_prelz (s : State) : s.enterPlain.prelz = s.prelz := rfl
@[simp] theorem State.enterPlain_errPos (s : State) : s.enterPlain.errPos = s.errPos := rfl
@[simp] theorem State.enterPlain_inMem (s : State) : s.enterPlain.inMem = s.inMem := rfl
@[simp] theorem State.enterPlain_midMem (s : State) : s.enterPlain.midMem = s.midMem := rfl
@[simp] theorem State.enterPlain_outMem (s : State) : s.enterPlain.outMem = s.outMem := rfl
@[simp] theorem State.enterPlain_params (s : State) : s.enterPlain.params = s.params := rfl
@[simp] theorem State.enterPlain_hostTurns (s : State) : s.enterPlain.hostTurns = s.hostTurns := rfl
@[simp] theorem State.enterPlain_portData (s : State) : s.enterPlain.portData = s.portData := rfl
@[simp] theorem State.enterPlain_freeIdx (s : State) : s.enterPlain.freeIdx = s.freeIdx := rfl

/-! `State.enterHuffman`. -/

@[simp] theorem State.enterHuffman_state (s : State) (pre : BitVec 16) :
    (s.enterHuffman pre).state = s.state := rfl
@[simp] theorem State.enterHuffman_stage (s : State) (pre : BitVec 16) :
    (s.enterHuffman pre).stage = .huff := rfl
@[simp] theorem State.enterHuffman_srcSel (s : State) (pre : BitVec 16) :
    (s.enterHuffman pre).srcSel = .midMem := rfl
@[simp] theorem State.enterHuffman_srcPos (s : State) (pre : BitVec 16) :
    (s.enterHuffman pre).srcPos = 0 := rfl
@[simp] theorem State.enterHuffman_srcEnd (s : State) (pre : BitVec 16) :
    (s.enterHuffman pre).srcEnd = pre.setWidth 17 := rfl
@[simp] theorem State.enterHuffman_cw (s : State) (pre : BitVec 16) :
    (s.enterHuffman pre).cw = s.cw := rfl
@[simp] theorem State.enterHuffman_cwCnt (s : State) (pre : BitVec 16) :
    (s.enterHuffman pre).cwCnt = s.cwCnt := rfl
@[simp] theorem State.enterHuffman_outPos (s : State) (pre : BitVec 16) :
    (s.enterHuffman pre).outPos = s.outPos := rfl
@[simp] theorem State.enterHuffman_paylen (s : State) (pre : BitVec 16) :
    (s.enterHuffman pre).paylen = s.paylen := rfl
@[simp] theorem State.enterHuffman_errKind (s : State) (pre : BitVec 16) :
    (s.enterHuffman pre).errKind = s.errKind := rfl
@[simp] theorem State.enterHuffman_errCause (s : State) (pre : BitVec 16) :
    (s.enterHuffman pre).errCause = s.errCause := rfl
@[simp] theorem State.enterHuffman_inLen (s : State) (pre : BitVec 16) :
    (s.enterHuffman pre).inLen = s.inLen := rfl
@[simp] theorem State.enterHuffman_outCap (s : State) (pre : BitVec 16) :
    (s.enterHuffman pre).outCap = s.outCap := rfl
@[simp] theorem State.enterHuffman_outLen (s : State) (pre : BitVec 16) :
    (s.enterHuffman pre).outLen = s.outLen := rfl
@[simp] theorem State.enterHuffman_consumed (s : State) (pre : BitVec 16) :
    (s.enterHuffman pre).consumed = s.consumed := rfl
@[simp] theorem State.enterHuffman_flags (s : State) (pre : BitVec 16) :
    (s.enterHuffman pre).flags = s.flags := rfl
@[simp] theorem State.enterHuffman_prelz (s : State) (pre : BitVec 16) :
    (s.enterHuffman pre).prelz = pre := rfl
@[simp] theorem State.enterHuffman_errPos (s : State) (pre : BitVec 16) :
    (s.enterHuffman pre).errPos = s.errPos := rfl
@[simp] theorem State.enterHuffman_inMem (s : State) (pre : BitVec 16) :
    (s.enterHuffman pre).inMem = s.inMem := rfl
@[simp] theorem State.enterHuffman_midMem (s : State) (pre : BitVec 16) :
    (s.enterHuffman pre).midMem = s.midMem := rfl
@[simp] theorem State.enterHuffman_outMem (s : State) (pre : BitVec 16) :
    (s.enterHuffman pre).outMem = s.outMem := rfl
@[simp] theorem State.enterHuffman_params (s : State) (pre : BitVec 16) :
    (s.enterHuffman pre).params = s.params := rfl
@[simp] theorem State.enterHuffman_hostTurns (s : State) (pre : BitVec 16) :
    (s.enterHuffman pre).hostTurns = s.hostTurns := rfl
@[simp] theorem State.enterHuffman_portData (s : State) (pre : BitVec 16) :
    (s.enterHuffman pre).portData = s.portData := rfl
@[simp] theorem State.enterHuffman_freeIdx (s : State) (pre : BitVec 16) :
    (s.enterHuffman pre).freeIdx = s.freeIdx := rfl

/-! `State.answer`. -/

@[simp] theorem State.answer_state (s : State) (v : BitVec 32) : (s.answer v).state = s.state := rfl
@[simp] theorem State.answer_stage (s : State) (v : BitVec 32) : (s.answer v).stage = s.stage := rfl
@[simp] theorem State.answer_srcSel (s : State) (v : BitVec 32) :
    (s.answer v).srcSel = s.srcSel := rfl
@[simp] theorem State.answer_srcPos (s : State) (v : BitVec 32) :
    (s.answer v).srcPos = s.srcPos := rfl
@[simp] theorem State.answer_srcEnd (s : State) (v : BitVec 32) :
    (s.answer v).srcEnd = s.srcEnd := rfl
@[simp] theorem State.answer_cw (s : State) (v : BitVec 32) : (s.answer v).cw = s.cw := rfl
@[simp] theorem State.answer_cwCnt (s : State) (v : BitVec 32) : (s.answer v).cwCnt = s.cwCnt := rfl
@[simp] theorem State.answer_outPos (s : State) (v : BitVec 32) :
    (s.answer v).outPos = s.outPos := rfl
@[simp] theorem State.answer_paylen (s : State) (v : BitVec 32) :
    (s.answer v).paylen = s.paylen := rfl
@[simp] theorem State.answer_errKind (s : State) (v : BitVec 32) :
    (s.answer v).errKind = s.errKind := rfl
@[simp] theorem State.answer_errCause (s : State) (v : BitVec 32) :
    (s.answer v).errCause = s.errCause := rfl
@[simp] theorem State.answer_inLen (s : State) (v : BitVec 32) : (s.answer v).inLen = s.inLen := rfl
@[simp] theorem State.answer_outCap (s : State) (v : BitVec 32) :
    (s.answer v).outCap = s.outCap := rfl
@[simp] theorem State.answer_outLen (s : State) (v : BitVec 32) :
    (s.answer v).outLen = s.outLen := rfl
@[simp] theorem State.answer_consumed (s : State) (v : BitVec 32) :
    (s.answer v).consumed = s.consumed := rfl
@[simp] theorem State.answer_flags (s : State) (v : BitVec 32) : (s.answer v).flags = s.flags := rfl
@[simp] theorem State.answer_prelz (s : State) (v : BitVec 32) : (s.answer v).prelz = s.prelz := rfl
@[simp] theorem State.answer_errPos (s : State) (v : BitVec 32) :
    (s.answer v).errPos = s.errPos := rfl
@[simp] theorem State.answer_inMem (s : State) (v : BitVec 32) : (s.answer v).inMem = s.inMem := rfl
@[simp] theorem State.answer_midMem (s : State) (v : BitVec 32) :
    (s.answer v).midMem = s.midMem := rfl
@[simp] theorem State.answer_outMem (s : State) (v : BitVec 32) :
    (s.answer v).outMem = s.outMem := rfl
@[simp] theorem State.answer_params (s : State) (v : BitVec 32) :
    (s.answer v).params = s.params := rfl
@[simp] theorem State.answer_hostTurns (s : State) (v : BitVec 32) :
    (s.answer v).hostTurns = s.hostTurns := rfl
@[simp] theorem State.answer_portData (s : State) (v : BitVec 32) : (s.answer v).portData = v := rfl
@[simp] theorem State.answer_freeIdx (s : State) (v : BitVec 32) :
    (s.answer v).freeIdx = s.freeIdx := rfl

/-! `State.answerFree`. -/

@[simp] theorem State.answerFree_state (s : State) (w : Nat) :
    (s.answerFree w).state = s.state := rfl
@[simp] theorem State.answerFree_stage (s : State) (w : Nat) :
    (s.answerFree w).stage = s.stage := rfl
@[simp] theorem State.answerFree_srcSel (s : State) (w : Nat) :
    (s.answerFree w).srcSel = s.srcSel := rfl
@[simp] theorem State.answerFree_srcPos (s : State) (w : Nat) :
    (s.answerFree w).srcPos = s.srcPos := rfl
@[simp] theorem State.answerFree_srcEnd (s : State) (w : Nat) :
    (s.answerFree w).srcEnd = s.srcEnd := rfl
@[simp] theorem State.answerFree_cw (s : State) (w : Nat) : (s.answerFree w).cw = s.cw := rfl
@[simp] theorem State.answerFree_cwCnt (s : State) (w : Nat) :
    (s.answerFree w).cwCnt = s.cwCnt := rfl
@[simp] theorem State.answerFree_outPos (s : State) (w : Nat) :
    (s.answerFree w).outPos = s.outPos := rfl
@[simp] theorem State.answerFree_paylen (s : State) (w : Nat) :
    (s.answerFree w).paylen = s.paylen := rfl
@[simp] theorem State.answerFree_errKind (s : State) (w : Nat) :
    (s.answerFree w).errKind = s.errKind := rfl
@[simp] theorem State.answerFree_errCause (s : State) (w : Nat) :
    (s.answerFree w).errCause = s.errCause := rfl
@[simp] theorem State.answerFree_inLen (s : State) (w : Nat) :
    (s.answerFree w).inLen = s.inLen := rfl
@[simp] theorem State.answerFree_outCap (s : State) (w : Nat) :
    (s.answerFree w).outCap = s.outCap := rfl
@[simp] theorem State.answerFree_outLen (s : State) (w : Nat) :
    (s.answerFree w).outLen = s.outLen := rfl
@[simp] theorem State.answerFree_consumed (s : State) (w : Nat) :
    (s.answerFree w).consumed = s.consumed := rfl
@[simp] theorem State.answerFree_flags (s : State) (w : Nat) :
    (s.answerFree w).flags = s.flags := rfl
@[simp] theorem State.answerFree_prelz (s : State) (w : Nat) :
    (s.answerFree w).prelz = s.prelz := rfl
@[simp] theorem State.answerFree_errPos (s : State) (w : Nat) :
    (s.answerFree w).errPos = s.errPos := rfl
@[simp] theorem State.answerFree_inMem (s : State) (w : Nat) :
    (s.answerFree w).inMem = s.inMem := rfl
@[simp] theorem State.answerFree_midMem (s : State) (w : Nat) :
    (s.answerFree w).midMem = s.midMem := rfl
@[simp] theorem State.answerFree_outMem (s : State) (w : Nat) :
    (s.answerFree w).outMem = s.outMem := rfl
@[simp] theorem State.answerFree_params (s : State) (w : Nat) :
    (s.answerFree w).params = s.params := rfl
@[simp] theorem State.answerFree_hostTurns (s : State) (w : Nat) :
    (s.answerFree w).hostTurns = s.hostTurns := rfl
@[simp] theorem State.answerFree_portData (s : State) (w : Nat) :
    (s.answerFree w).portData = ((Config.freeWord s.freeIdx).setWidth w).setWidth 32 := rfl
@[simp] theorem State.answerFree_freeIdx (s : State) (w : Nat) :
    (s.answerFree w).freeIdx = s.freeIdx + 1 := rfl

@[simp] theorem State.startRun_eq (s : State) : s.startRun = s.initRun .frame .busy := rfl

@[simp] theorem State.clearRun_eq (s : State) : s.clearRun = s.initRun .none .idle := rfl

end Sys2Proof.Machine
end

