-- ==== Sys2Proof/Laws/Loops.lean ====
section
/-! SUPPORT. What the emitting loops do: how far `OUT_POS` moves, which bytes they write, and that nothing else changes. -/

namespace Sys2Proof.Machine

/-- Only `OUT_MEM` and `OUT_POS` may differ between the two states. -/
def State.OnlyOutput (s t : State) : Prop := { t with outMem := s.outMem, outPos := s.outPos } = s

theorem State.onlyOutput_refl (s : State) : s.OnlyOutput s := rfl

theorem State.OnlyOutput.trans {s t u : State} (h : s.OnlyOutput t) (k : t.OnlyOutput u) : s.OnlyOutput u := by
  unfold State.OnlyOutput at *
  rw [← h, ← k]

theorem State.onlyOutput_emit (s : State) (v : Byte) : s.OnlyOutput (s.emit v) := rfl

/-- The states agree on everything an emitting loop reads besides the output. -/
theorem State.OnlyOutput.fields {s t : State} (h : s.OnlyOutput t) :
    t.srcPos = s.srcPos ∧ t.srcEnd = s.srcEnd ∧ t.srcSel = s.srcSel ∧ t.inMem = s.inMem ∧ t.midMem = s.midMem ∧
      t.params = s.params ∧ t.outCap = s.outCap ∧ t.stage = s.stage ∧ t.state = s.state := by
  unfold State.OnlyOutput at h
  refine ⟨?_, ?_, ?_, ?_, ?_, ?_, ?_, ?_, ?_⟩ <;> (rw [← h])

/-- One emit moves `OUT_POS` by one where the register has room. -/
theorem State.emit_outPos_toNat (s : State) (v : Byte) (h : s.outPos.toNat + 1 < 2 ^ 32) :
    (s.emit v).outPos.toNat = s.outPos.toNat + 1 := by
  simp only [State.emit_outPos, BitVec.toNat_ofNat]
  exact Nat.mod_eq_of_lt h

theorem State.emit_read (s : State) (v : Byte) (a : Nat) :
    Mem.read (s.emit v).outMem a = if a = s.outPos.toNat then some v else Mem.read s.outMem a := by
  simp only [State.emit_outMem]
  exact Mem.read_write s.outMem s.outPos.toNat a v

/-- A run changes only the output (R144). -/
theorem State.emitRun_onlyOutput (b : Byte) : ∀ (n : Nat) (s : State), s.OnlyOutput (s.emitRun b n)
  | 0, s => s.onlyOutput_refl
  | n + 1, s => (s.onlyOutput_emit b).trans (State.emitRun_onlyOutput b n (s.emit b))

/-- A run of `n` bytes moves `OUT_POS` by `n`. -/
theorem State.emitRun_outPos (b : Byte) : ∀ (n : Nat) (s : State), s.outPos.toNat + n < 2 ^ 32 →
    (s.emitRun b n).outPos.toNat = s.outPos.toNat + n
  | 0, _, _ => rfl
  | n + 1, s, h => by
    have he := s.emit_outPos_toNat b (by omega)
    have := State.emitRun_outPos b n (s.emit b) (by omega)
    rw [State.emitRun, this, he]
    omega

/-- A run writes its byte `n` times from `OUT_POS` on and no other byte. -/
theorem State.emitRun_read (b : Byte) : ∀ (n : Nat) (s : State) (a : Nat), s.outPos.toNat + n < 2 ^ 32 →
    Mem.read (s.emitRun b n).outMem a =
      if s.outPos.toNat ≤ a ∧ a < s.outPos.toNat + n then some b else Mem.read s.outMem a
  | 0, s, a, _ => by
    rw [if_neg (by omega)]
    rfl
  | n + 1, s, a, h => by
    have he := s.emit_outPos_toNat b (by omega)
    have := State.emitRun_read b n (s.emit b) a (by omega)
    rw [State.emitRun, this, he, s.emit_read]
    by_cases h1 : a = s.outPos.toNat
    · subst h1; simp
    · rw [if_neg h1]
      by_cases h2 : s.outPos.toNat + 1 ≤ a ∧ a < s.outPos.toNat + 1 + n
      · rw [if_pos h2, if_pos (by omega)]
      · rw [if_neg h2, if_neg (by omega)]

/-- A run keeps the canonical form. -/
theorem State.emitRun_wf (b : Byte) : ∀ (n : Nat) (s : State), Mem.wf s.outMem → Mem.wf (s.emitRun b n).outMem
  | 0, _, h => h
  | n + 1, s, h => State.emitRun_wf b n (s.emit b) (Mem.write_wf h _ _)

/-- Every entry of `OUT_MEM` after a run is an old one or lies in the run. -/
theorem State.mem_emitRun (b : Byte) : ∀ (n : Nat) (s : State) (p : Host.Cell), s.outPos.toNat + n < 2 ^ 32 →
    p ∈ (s.emitRun b n).outMem → p ∈ s.outMem ∨ (s.outPos.toNat ≤ p.1 ∧ p.1 < s.outPos.toNat + n)
  | 0, _, _, _, hp => .inl hp
  | n + 1, s, p, h, hp => by
    have he := s.emit_outPos_toNat b (by omega)
    rcases State.mem_emitRun b n (s.emit b) p (by omega) hp with hp | hp
    · rcases Mem.mem_write hp with hp | rfl
      · exact .inl hp
      · exact .inr ⟨Nat.le_refl _, by simp⟩
    · exact .inr ⟨by omega, by omega⟩

/-- Everything the copy loop does when it answers: `n` bytes from `OUT_POS` on, each equal, after the loop, to the byte
`offset` before it; nothing else changes (R148, R149). -/
theorem copyLoop_spec (offset : Nat) (ho : 0 < offset) : ∀ (n : Nat) (s t : State), offset ≤ s.outPos.toNat →
    s.outPos.toNat + n < 2 ^ 32 → copyLoop offset n s = .ok t →
    s.OnlyOutput t ∧ t.outPos.toNat = s.outPos.toNat + n ∧
      (∀ a, a < s.outPos.toNat ∨ s.outPos.toNat + n ≤ a → Mem.read t.outMem a = Mem.read s.outMem a) ∧
      (∀ q, s.outPos.toNat ≤ q → q < s.outPos.toNat + n →
        Mem.read t.outMem q = Mem.read t.outMem (q - offset) ∧ (Mem.read t.outMem q).isSome) ∧
      (Mem.wf s.outMem → Mem.wf t.outMem) ∧
      (∀ p ∈ t.outMem, p ∈ s.outMem ∨ (s.outPos.toNat ≤ p.1 ∧ p.1 < s.outPos.toNat + n))
  | 0, s, t, _, _, h => by
    simp only [copyLoop, Except.ok.injEq] at h
    subst h
    exact ⟨rfl, rfl, fun _ _ => rfl, fun _ _ _ => by omega, id, fun _ => .inl⟩
  | n + 1, s, t, hoff, hn, h => by
    simp only [copyLoop] at h
    cases hv : memRead .outMem (s.outPos.toNat - offset) s with
    | error f => rw [hv] at h; cases h
    | ok v =>
      rw [hv] at h
      have he := s.emit_outPos_toNat v (by omega)
      obtain ⟨h1, h2, h3, h4, h5, h6⟩ :=
        copyLoop_spec offset ho n (s.emit v) t (by omega) (by omega) h
      have hread := ((memRead_ok_iff _ _ _ _).mp hv).2
      refine ⟨(s.onlyOutput_emit v).trans h1, by omega, fun a ha => ?_, fun q hq1 hq2 => ?_,
        fun hw => h5 (Mem.write_wf hw _ _), fun p hp => ?_⟩
      · rw [h3 a (by omega), s.emit_read, if_neg (by omega)]
      · by_cases hq : q = s.outPos.toNat
        · subst hq
          rw [h3 s.outPos.toNat (by omega), h3 (s.outPos.toNat - offset) (by omega), s.emit_read, s.emit_read,
            if_pos rfl, if_neg (by omega)]
          exact ⟨hread.symm, rfl⟩
        · exact h4 q (by omega) (by omega)
      · rcases h6 p hp with hp | hp
        · rcases Mem.mem_write hp with hp | rfl
          · exact .inl hp
          · exact .inr ⟨Nat.le_refl _, by simp⟩
        · exact .inr ⟨by omega, by omega⟩

/-- The copy loop answers when every byte below `OUT_POS` has a value and the copy fits the memory (R70). -/
theorem copyLoop_answers (offset : Nat) (ho : 0 < offset) : ∀ (n : Nat) (s : State), offset ≤ s.outPos.toNat →
    s.outPos.toNat + n < 2 ^ 32 → s.outPos.toNat + n ≤ s.params.outMemBytes →
    (∀ a < s.outPos.toNat, (Mem.read s.outMem a).isSome) → ∃ t, copyLoop offset n s = .ok t
  | 0, s, _, _, _, _ => ⟨s, rfl⟩
  | n + 1, s, hoff, hn, hm, hb => by
    obtain ⟨v, hv⟩ := Option.isSome_iff_exists.mp (hb (s.outPos.toNat - offset) (by omega))
    have hr : memRead .outMem (s.outPos.toNat - offset) s = .ok v :=
      (memRead_ok_iff _ _ _ _).mpr ⟨show _ < s.params.outMemBytes by omega, hv⟩
    have he := s.emit_outPos_toNat v (by omega)
    obtain ⟨t, ht⟩ := copyLoop_answers offset ho n (s.emit v) (by omega) (by omega)
      (show (s.emit v).outPos.toNat + n ≤ s.params.outMemBytes by omega) (fun a ha => by
        rw [s.emit_read]
        split
        · rfl
        · exact hb a (by omega))
    exact ⟨t, by rw [copyLoop, hr]; exact ht⟩

/-- A source byte reads the same when only the output differs: the loops cannot change their own source (R77). -/
theorem readSrc_onlyOutput {s t : State} (h : s.OnlyOutput t) (a : Nat) : readSrc a t = readSrc a s := by
  unfold State.OnlyOutput at h
  rw [← h]
  unfold readSrc memRead
  cases t.srcSel <;> rfl

/-- Everything the raw copy does when it answers: `n` source bytes from `a` on to `OUT_POS` on, nothing else (R127). -/
theorem rawLoop_spec : ∀ (n a : Nat) (s t : State), s.outPos.toNat + n < 2 ^ 32 → rawLoop a n s = .ok t →
    s.OnlyOutput t ∧ t.outPos.toNat = s.outPos.toNat + n ∧
      (∀ k, k < s.outPos.toNat ∨ s.outPos.toNat + n ≤ k → Mem.read t.outMem k = Mem.read s.outMem k) ∧
      (∀ j < n, ∃ b, readSrc (a + j) s = .ok b ∧ Mem.read t.outMem (s.outPos.toNat + j) = some b) ∧
      (Mem.wf s.outMem → Mem.wf t.outMem) ∧
      (∀ p ∈ t.outMem, p ∈ s.outMem ∨ (s.outPos.toNat ≤ p.1 ∧ p.1 < s.outPos.toNat + n))
  | 0, a, s, t, _, h => by
    simp only [rawLoop, Except.ok.injEq] at h
    subst h
    exact ⟨rfl, rfl, fun _ _ => rfl, fun _ _ => by omega, id, fun _ => .inl⟩
  | n + 1, a, s, t, hn, h => by
    simp only [rawLoop] at h
    cases hv : readSrc a s with
    | error f => rw [hv] at h; cases h
    | ok v =>
      rw [hv] at h
      have he := s.emit_outPos_toNat v (by omega)
      obtain ⟨h1, h2, h3, h4, h5, h6⟩ := rawLoop_spec n (a + 1) (s.emit v) t (by omega) h
      refine ⟨(s.onlyOutput_emit v).trans h1, by omega, fun k hk => ?_, fun j hj => ?_,
        fun hw => h5 (Mem.write_wf hw _ _), fun p hp => ?_⟩
      · rw [h3 k (by omega), s.emit_read, if_neg (by omega)]
      · cases j with
        | zero =>
          refine ⟨v, hv, ?_⟩
          rw [Nat.add_zero, h3 s.outPos.toNat (by omega), s.emit_read, if_pos rfl]
        | succ j =>
          obtain ⟨b, hb1, hb2⟩ := h4 j (by omega)
          rw [readSrc_onlyOutput (s.onlyOutput_emit v)] at hb1
          refine ⟨b, by rw [show a + (j + 1) = a + 1 + j by omega]; exact hb1, ?_⟩
          rw [show s.outPos.toNat + (j + 1) = (s.emit v).outPos.toNat + j by omega]
          exact hb2
      · rcases h6 p hp with hp | hp
        · rcases Mem.mem_write hp with hp | rfl
          · exact .inl hp
          · exact .inr ⟨Nat.le_refl _, by simp⟩
        · exact .inr ⟨by omega, by omega⟩

/-- The raw copy answers when every source byte in its range can be read. -/
theorem rawLoop_answers : ∀ (n a : Nat) (s : State), (∀ j < n, ∃ b, readSrc (a + j) s = .ok b) →
    ∃ t, rawLoop a n s = .ok t
  | 0, _, s, _ => ⟨s, rfl⟩
  | n + 1, a, s, h => by
    obtain ⟨v, hv⟩ := h 0 (by omega)
    rw [Nat.add_zero] at hv
    obtain ⟨t, ht⟩ := rawLoop_answers n (a + 1) (s.emit v) (fun j hj => by
      obtain ⟨b, hb⟩ := h (j + 1) (by omega)
      refine ⟨b, ?_⟩
      rw [readSrc_onlyOutput (s.onlyOutput_emit v), show a + 1 + j = a + (j + 1) by omega]
      exact hb)
    exact ⟨t, by rw [rawLoop, hv]; exact ht⟩

/-- The source bytes read are those of `Src`, one after the other. -/
theorem readSrcBytes_ok_iff (s : State) : ∀ (n a : Nat) (bs : List Byte), readSrcBytes s a n = .ok bs ↔
    bs.length = n ∧ ∀ j (h : j < bs.length), readSrc (a + j) s = .ok bs[j]
  | 0, a, bs => by
    simp only [readSrcBytes, Except.ok.injEq]
    constructor
    · rintro rfl; simp
    · rintro ⟨h, -⟩; exact (List.length_eq_zero_iff.mp h).symm
  | n + 1, a, bs => by
    simp only [readSrcBytes]
    cases hv : readSrc a s with
    | error f =>
      constructor
      · intro h; cases h
      · rintro ⟨h1, h2⟩
        have := h2 0 (by omega)
        rw [Nat.add_zero, hv] at this
        cases this
    | ok v =>
      have ih := readSrcBytes_ok_iff s n (a + 1)
      cases hr : readSrcBytes s (a + 1) n with
      | error f =>
        constructor
        · intro h; cases h
        · rintro ⟨h1, h2⟩
          cases bs with
          | nil => simp at h1
          | cons b bs =>
            have hok := (ih bs).mpr ⟨by simpa using h1, fun j hj => by
              have := h2 (j + 1) (by simpa using hj)
              rw [show a + (j + 1) = a + 1 + j by omega] at this
              simpa using this⟩
            rw [hr] at hok
            cases hok
      | ok rest =>
        obtain ⟨hl, hrest⟩ := (ih rest).mp hr
        simp only [Except.ok.injEq]
        constructor
        · rintro rfl
          refine ⟨by simp [hl], fun j hj => ?_⟩
          cases j with
          | zero => simpa using hv
          | succ j =>
            have := hrest j (by simpa using hj)
            rw [show a + 1 + j = a + (j + 1) by omega] at this
            simpa using this
        · rintro ⟨h1, h2⟩
          cases bs with
          | nil => simp at h1
          | cons b bs =>
            have hb := h2 0 (by simp)
            rw [Nat.add_zero, hv] at hb
            simp only [List.getElem_cons_zero, Except.ok.injEq] at hb
            subst hb
            have hok := (ih bs).mpr ⟨by simpa using h1, fun j hj => by
              have := h2 (j + 1) (by simpa using hj)
              rw [show a + (j + 1) = a + 1 + j by omega] at this
              simpa using this⟩
            rw [hr] at hok
            simpa using hok

/-- The Huffman bitstream read is the bytes of `IN_MEM`, one after the other (R171). -/
theorem readInBytes_answers (s : State) : ∀ (n a : Nat), a + n ≤ Config.inMemBytes →
    (∀ j < n, (Mem.read s.inMem (a + j)).isSome) →
    ∃ bs, readInBytes s a n = .ok bs ∧ bs.length = n ∧ Mem.holds s.inMem a bs
  | 0, _, _, _ => ⟨[], rfl, rfl, fun _ h => by simp at h⟩
  | n + 1, a, hr, h => by
    obtain ⟨v, hv⟩ := Option.isSome_iff_exists.mp (h 0 (by omega))
    have hm : memRead .inMem a s = .ok v := (memRead_ok_iff _ _ _ _).mpr ⟨show a < Config.inMemBytes by omega, hv⟩
    obtain ⟨bs, h1, h2, h3⟩ := readInBytes_answers s n (a + 1) (by omega) (fun j hj => by
      rw [show a + 1 + j = a + (j + 1) by omega]
      exact h (j + 1) (by omega))
    refine ⟨v :: bs, by rw [readInBytes, hm, h1], by simp [h2], fun k hk => ?_⟩
    cases k with
    | zero => exact hv
    | succ k =>
      rw [show a + (k + 1) = a + 1 + k by omega]
      exact h3 k (by simpa using hk)

end Sys2Proof.Machine
end

