-- ==== Sys2Proof/Laws/Ops.lean ====
section
/-! SUPPORT. One lemma for each shared operation: everything it can answer. -/

namespace Sys2Proof.Machine

/-- Going on after a read answers a next state only through the value read. -/
theorem andThen_next_iff {α : Type} (r : Except Fault α) (k : α → Result) (t : State) :
    andThen r k = .next t ↔ ∃ v, r = .ok v ∧ k v = .next t := by
  cases r <;> simp [andThen]

/-- Going on after a read refuses only where what follows does. -/
theorem andThen_refused_iff {α : Type} (r : Except Fault α) (k : α → Result) (x : Refusal) :
    andThen r k = .refused x ↔ ∃ v, r = .ok v ∧ k v = .refused x := by
  cases r <;> simp [andThen]

/-- A raise always answers: the error entry (R196). -/
@[simp] theorem raise_eq (c : ErrCause) (s : State) : raise c s = .next (s.errorEntry c.kind c) := rfl

/-- The capacity check goes on, or raises `CAPACITY` (R69). -/
theorem withCapacity_cases (n : Nat) (s : State) (k : Result) :
    (s.outPos.toNat + n ≤ s.ecap ∧ withCapacity n s k = k) ∨
      (s.ecap < s.outPos.toNat + n ∧ withCapacity n s k = .next (s.errorEntry .decodeError .capacity)) := by
  unfold withCapacity
  split
  · exact .inl ⟨‹_›, rfl⟩
  · exact .inr ⟨by omega, rfl⟩

/-- The effective capacity fits both of its bounds (R69). -/
theorem State.ecap_le (s : State) : s.ecap ≤ s.params.outMemBytes ∧ s.ecap < 2 ^ 32 :=
  ⟨Nat.min_le_right _ _, Nat.lt_of_le_of_lt (Nat.min_le_left _ _) s.outCap.isLt⟩

@[simp] theorem State.tokenDecision_ecap (s : State) : s.tokenDecision.ecap = s.ecap := rfl

/-- A run token answers its run, or `CAPACITY` (R143 to R145). -/
theorem runToken_cases (length : Nat) (b : Byte) (k : Nat) (s : State) :
    (s.outPos.toNat + length ≤ s.ecap ∧ runToken length b k s = .next ((s.emitRun b length).advanceSrc k)) ∨
      (s.ecap < s.outPos.toNat + length ∧ runToken length b k s = .next (s.errorEntry .decodeError .capacity)) :=
  withCapacity_cases length s _

/-- A back-reference answers its copy, `BREF_RANGE`, `CAPACITY`, or the fault of a read (R148, R151). -/
theorem backCopy_cases (offset length k : Nat) (s : State) :
    (s.outPos.toNat < offset ∧ backCopy offset length k s = .next (s.errorEntry .decodeError .brefRange)) ∨
      (offset ≤ s.outPos.toNat ∧ s.ecap < s.outPos.toNat + length ∧
        backCopy offset length k s = .next (s.errorEntry .decodeError .capacity)) ∨
      (offset ≤ s.outPos.toNat ∧ s.outPos.toNat + length ≤ s.ecap ∧
        ((∃ t, copyLoop offset length s = .ok t ∧ backCopy offset length k s = .next (t.advanceSrc k)) ∨
          ∃ f, copyLoop offset length s = .error f ∧ backCopy offset length k s = .fault f)) := by
  unfold backCopy
  split
  · exact .inl ⟨‹_›, rfl⟩
  · rcases withCapacity_cases length s
      (andThen (copyLoop offset length s) fun t => .next (t.advanceSrc k)) with ⟨h1, h2⟩ | ⟨h1, h2⟩
    · refine .inr (.inr ⟨by omega, h1, ?_⟩)
      rw [h2]
      cases hc : copyLoop offset length s with
      | ok t => exact .inl ⟨t, rfl, rfl⟩
      | error f => exact .inr ⟨f, rfl, rfl⟩
    · exact .inr (.inl ⟨by omega, h1, h2⟩)

/-- A coded token raises `TOKEN_TRUNC` or runs its body, the control bit consumed either way (R151, R152). -/
theorem codedToken_cases (k : Nat) (s : State) (body : State → Result) :
    (s.srcLeft < k ∧ codedToken k s body = .next (s.tokenDecision.errorEntry .decodeError .tokenTrunc)) ∨
      (k ≤ s.srcLeft ∧ codedToken k s body = body s.tokenDecision) := by
  unfold codedToken
  split
  · exact .inl ⟨‹_›, rfl⟩
  · exact .inr ⟨by omega, rfl⟩

/-- The cursor advanced by bytes that lie below `SRC_END` does not wrap (R24). -/
theorem State.advanceSrc_toNat (s : State) (k : Nat) (h : s.srcPos.toNat + k ≤ s.srcEnd.toNat) :
    (s.advanceSrc k).srcPos.toNat = s.srcPos.toNat + k := by
  simp only [State.advanceSrc_srcPos, BitVec.toNat_ofNat]
  exact Nat.mod_eq_of_lt (Nat.lt_of_le_of_lt h s.srcEnd.isLt)

/-- The header part of the FRAME step raises one of its three errors, in this order, or goes on with `PAYLEN` (R120). -/
theorem frameHeader_cases (lo hi : Byte) (s : State) (k : State → Result) :
    (s.inLen.toNat < 4 ∧ frameHeader lo hi s k = .next (s.errorEntry .formatError .hdrTrunc)) ∨
      (4 ≤ s.inLen.toNat ∧ s.inLen.toNat < 4 + (payloadLength lo hi).toNat ∧ frameHeader lo hi s k =
        .next ({ s with paylen := payloadLength lo hi }.errorEntry .formatError .payloadTrunc)) ∨
      (4 + (payloadLength lo hi).toNat ≤ s.inLen.toNat ∧ payloadLength lo hi = 0 ∧ frameHeader lo hi s k =
        .next ({ s with paylen := payloadLength lo hi }.errorEntry .formatError .noFlags)) ∨
      (4 + (payloadLength lo hi).toNat ≤ s.inLen.toNat ∧ payloadLength lo hi ≠ 0 ∧
        frameHeader lo hi s k = k { s with paylen := payloadLength lo hi }) := by
  by_cases h1 : s.inLen.toNat < 4
  · exact .inl ⟨h1, if_pos h1⟩
  · by_cases h2 : s.inLen.toNat < 4 + (payloadLength lo hi).toNat
    · exact .inr (.inl ⟨by omega, h2, (if_neg h1).trans (if_pos h2)⟩)
    · by_cases h3 : payloadLength lo hi = 0
      · exact .inr (.inr (.inl ⟨by omega, h3, (if_neg h1).trans ((if_neg h2).trans (if_pos h3))⟩))
      · exact .inr (.inr (.inr ⟨by omega, h3, (if_neg h1).trans ((if_neg h2).trans (if_neg h3))⟩))

/-- The Huffman part of the FRAME step raises `HUF_HDR_TRUNC` or goes on (R120). -/
theorem huffmanHeader_cases (s : State) (k : State → Result) :
    (s.paylen.toNat < 3 ∧ huffmanHeader s k = .next (s.errorEntry .formatError .hufHdrTrunc)) ∨
      (3 ≤ s.paylen.toNat ∧ huffmanHeader s k = k s) := by
  unfold huffmanHeader
  split
  · exact .inl ⟨‹_›, rfl⟩
  · exact .inr ⟨by simp only [Config.hufHdrBytes] at *; omega, rfl⟩

/-- The HUFF step answers what `HUFF` says of the bitstream, or the fault of a read (R176). -/
theorem huffStep_cases (after : Stage) (s : State) :
    (∃ f, readInBytes s 7 (s.paylen.toNat - 3) = .error f ∧ huffStep after s = .fault f) ∨
      (∃ enc, readInBytes s 7 (s.paylen.toNat - 3) = .ok enc ∧
        ((∃ r, Config.huff enc s.prelz.toNat = .error r ∧
            huffStep after s = .next (s.errorEntry .decodeError (huffCause r))) ∨
          (∃ m, Config.huff enc s.prelz.toNat = .ok m ∧
            huffStep after s = .next { s with midMem := s.midMem.writeList 0 m.val, stage := after }))) := by
  cases h : readInBytes s 7 (s.paylen.toNat - 3) with
  | error f =>
    refine .inl ⟨f, rfl, ?_⟩
    change andThen (readInBytes s 7 (s.paylen.toNat - 3)) _ = _
    rw [h]
    rfl
  | ok enc =>
    refine .inr ⟨enc, rfl, ?_⟩
    have hs : huffStep after s = .next (match Config.huff enc s.prelz.toNat with
        | .error r => s.errorEntry (huffCause r).kind (huffCause r)
        | .ok m => { s with midMem := s.midMem.writeList 0 m.val, stage := after }) := by
      change andThen (readInBytes s 7 (s.paylen.toNat - 3)) _ = _
      rw [h]
      rfl
    rw [hs]
    cases hh : Config.huff enc s.prelz.toNat with
    | error r => exact .inl ⟨r, rfl, by cases r <;> rfl⟩
    | ok m => exact .inr ⟨m, rfl, rfl⟩

/-- The RAW step answers the copied range, `CAPACITY`, or the fault of a read (R127). -/
theorem rawStep_cases (s : State) :
    (s.ecap < s.outPos.toNat + s.srcLeft ∧ rawStep s = .next (s.errorEntry .decodeError .capacity)) ∨
      (s.outPos.toNat + s.srcLeft ≤ s.ecap ∧
        ((∃ t, rawLoop s.srcPos.toNat s.srcLeft s = .ok t ∧
            rawStep s = .next { t with srcPos := s.srcEnd, stage := .finish }) ∨
          ∃ f, rawLoop s.srcPos.toNat s.srcLeft s = .error f ∧ rawStep s = .fault f)) := by
  unfold rawStep
  rcases withCapacity_cases s.srcLeft s (andThen (rawLoop s.srcPos.toNat s.srcLeft s) fun t =>
    .next { t with srcPos := s.srcEnd, stage := .finish }) with ⟨h1, h2⟩ | ⟨h1, h2⟩
  · refine .inr ⟨h1, ?_⟩
    rw [h2]
    cases hc : rawLoop s.srcPos.toNat s.srcLeft s with
    | ok t => exact .inl ⟨t, rfl, rfl⟩
    | error f => exact .inr ⟨f, rfl, rfl⟩
  · exact .inl ⟨h1, h2⟩

/-- While not BUSY, and with no host turn pending, a step of the system is an idle turn of the engine. -/
theorem engineTurn_of_not_busy (s : State) (h : s.state ≠ .busy) : engineTurn s = .next s := if_neg h

/-- While BUSY the engine runs what it fetched. -/
theorem engineTurn_of_busy (s : State) (h : s.state = .busy) :
    engineTurn s = andThen (fetch s) fun f => withDecoded f fun i => exec i s := if_pos h

@[simp] theorem step_of_no_turns (s : State) (h : s.hostTurns = []) : step s = engineTurn s := by
  unfold step systemTurn
  rw [h]

end Sys2Proof.Machine
end

