-- ==== Sys2Proof/Laws/Fetch.lean ====
section
/-! SUPPORT. What a fetch hands the decoder, and what the decoder makes of it. -/

namespace Sys2Proof.Machine

/-- As many source bytes are read as were asked for. -/
theorem readSrcBytes_length (s : State) : ∀ (n a : Nat) (bs : List Byte), readSrcBytes s a n = .ok bs → bs.length = n
  | 0, _, _, h => by cases h; rfl
  | n + 1, a, bs, h => by
    unfold readSrcBytes at h
    split at h
    · cases h
    · split at h
      · cases h
      · rename_i bs' h'
        cases h
        exact congrArg (· + 1) (readSrcBytes_length s n (a + 1) bs' h')

/-- A source fetch hands over as many bytes as were asked for, read or not (log 11). -/
theorem fetchSource_length (n a : Nat) (s : State) (bs : List Byte) (h : fetchSource n a s = .ok bs) : bs.length = n := by
  unfold fetchSource at h
  split at h
  · cases h
    exact List.length_replicate
  · exact readSrcBytes_length s n a bs h

/-- A coded token has 2 or 3 bytes (R105). -/
theorem codedLength_cases (c : Byte) : codedLength c = 2 ∨ codedLength c = 3 := by
  unfold codedLength
  split <;> simp

/-- A control byte with as many operand bytes as it asks for is a coded token (R100, R107). -/
theorem decodeCoded_ok (c : Byte) (operands : List Byte) (h : operands.length = codedLength c - 1) :
    ∃ i, decodeCoded c operands = .ok (i, []) ∧ i.context = .token true := by
  unfold codedLength at h
  unfold decodeCoded
  by_cases h0 : highNibble c = 0
  · match operands, h with
    | [b], _ => exact ⟨_, if_pos h0, rfl⟩
    | [], h => simp [h0] at h
    | _ :: _ :: _, h => simp [h0] at h
  · by_cases h1 : highNibble c = 1
    · match operands, h with
      | [n1, b], _ => exact ⟨_, by rw [if_neg h0, if_pos h1], rfl⟩
      | [], h => simp [h1] at h
      | [_], h => simp [h1] at h
      | _ :: _ :: _ :: _, h => simp [h1] at h
    · by_cases h2 : highNibble c = 2
      · match operands, h with
        | [o, n], _ => exact ⟨_, by rw [if_neg h0, if_neg h1, if_pos h2], rfl⟩
        | [], h => simp [h2] at h
        | [_], h => simp [h2] at h
        | _ :: _ :: _ :: _, h => simp [h2] at h
      · rw [if_neg (not_or.mpr ⟨h1, h2⟩)] at h
        match operands, h with
        | [o], _ => exact ⟨_, by rw [if_neg h0, if_neg h1, if_neg h2], rfl⟩

/-- A flag byte built from its fields gives them back (R93). -/
theorem flagByte_fields (x : BitVec 6) (huf lz : Bool) :
    flagRest (flagByte x huf lz) = x ∧ flagHuf (flagByte x huf lz) = huf ∧ flagLz (flagByte x huf lz) = lz := by
  revert x huf lz
  decide

/-- The latched flag byte decodes to the block mode of its bits (R94, R123). -/
theorem decode_latchedBlock (huf lz : Bool) (s : State) :
    ∃ pre rest, decode (latchedBlock huf lz s).1 (latchedBlock huf lz s).2 =
      .ok (blockInstr huf lz (flagRest s.flags) pre, rest) := by
  obtain ⟨h1, h2, h3⟩ := flagByte_fields (flagRest s.flags) huf lz
  simp only [latchedBlock, decode, decodeFlag, h1, h2, h3]
  cases huf
  · exact ⟨_, _, rfl⟩
  · exact ⟨_, _, rfl⟩

/-- The items of the LZ stream have the meaning exec gives them (R140). -/
theorem execLzItem_eq_exec (i : Instr) (s : State) (hh : i.context ≠ .header) (hf : i.context ≠ .flagByte) :
    execLzItem i s = exec i s := by
  cases i <;> first | rfl | simp [Instr.context] at hh hf

end Sys2Proof.Machine
end

