-- ==== Sys2Proof/Laws/PerInstr.lean ====
section
/-! SUPPORT. Facts about each instruction as syntax, one lemma per constructor: the length of its encoding. -/

namespace Sys2Proof.Laws

/-- An encoding has the instruction's length (R90, R105). -/
def EncodeLength.Statement (i : Instr) : Prop := (encode i).length = i.byteLength

theorem EncodeLength.frame (lo hi r0 r1 : Byte) : EncodeLength.Statement (.frame lo hi r0 r1) := rfl
theorem EncodeLength.blkRaw (x : BitVec 6) : EncodeLength.Statement (.blkRaw x) := rfl
theorem EncodeLength.blkLz (x : BitVec 6) : EncodeLength.Statement (.blkLz x) := rfl
theorem EncodeLength.blkHuf (x : BitVec 6) (pre : BitVec 16) : EncodeLength.Statement (.blkHuf x pre) := rfl
theorem EncodeLength.blkHufLz (x : BitVec 6) (pre : BitVec 16) : EncodeLength.Statement (.blkHufLz x pre) := rfl
theorem EncodeLength.cwload (b0 b1 : Byte) : EncodeLength.Statement (.cwload b0 b1) := rfl
theorem EncodeLength.lit (b : Byte) : EncodeLength.Statement (.lit b) := rfl
theorem EncodeLength.srun (l : Nibble) (b : Byte) : EncodeLength.Statement (.srun l b) := rfl
theorem EncodeLength.lrun (l : Nibble) (n1 b : Byte) : EncodeLength.Statement (.lrun l n1 b) := rfl
theorem EncodeLength.brefx (l : Nibble) (o n : Byte) : EncodeLength.Statement (.brefx l o n) := rfl
theorem EncodeLength.bref (h l : Nibble) (o : Byte) : EncodeLength.Statement (.bref h l o) := rfl

end Sys2Proof.Laws
end

