-- ==== Sys2Proof/Tests/Slice0.lean ====
section
/-! SUPPORT. The model's own tests: words of the spec's encodings, one step each from the spec's vectors
(95_test_vectors.md), and a witness for the hypotheses of every statement that has any. -/

namespace Sys2Proof.Tests

open Sys2Proof Sys2Proof.Machine

/-! Helpers. -/

/-- A BUSY state in stage LZ: a stream at `IN_MEM[5]`, control bits in hand, an output so far, and a capacity. -/
def lzState (bytes : List Byte) (cw : BitVec 16) (cnt : BitVec 5) (out : List Byte) (cap : BitVec 32) : State :=
  { State.reset with
    params := ⟨.be, 4096⟩, state := .busy, stage := .lz, srcPos := 5, srcEnd := BitVec.ofNat 17 (5 + bytes.length)
    cw := cw, cwCnt := cnt, outPos := BitVec.ofNat 32 out.length, outCap := cap, flags := 1
    paylen := BitVec.ofNat 16 (bytes.length + 1), inLen := BitVec.ofNat 32 (5 + bytes.length)
    inMem := Mem.writeList [] 0 ([BitVec.ofNat 8 (bytes.length + 1), 0, 0, 0, 1] ++ bytes)
    outMem := Mem.writeList [] 0 out }

/-- A BUSY state in stage FRAME with these bytes loaded. -/
def frameState (bytes : List Byte) (cap : BitVec 32) : State :=
  { State.reset with
    params := ⟨.be, 4096⟩, state := .busy, stage := .frame, outCap := cap, inLen := BitVec.ofNat 32 bytes.length
    inMem := Mem.writeList [] 0 bytes }

/-- The loaded machine before its run. -/
def idleState (bytes : List Byte) (cap : BitVec 32) : State :=
  { frameState bytes cap with state := .idle, stage := .none }

/-- The frame of V1 in stage RAW. -/
def rawState (cap : BitVec 32) : State :=
  { frameState [0x04, 0, 0, 0, 0, 0x48, 0x69, 0x21] cap with stage := .raw, paylen := 4, srcPos := 5, srcEnd := 8 }

/-- The frame of V60 in stage HUFF. -/
def huffState : State :=
  { frameState [0x05, 0, 0, 0, 0x02, 0, 0x07, 0xDE, 0xAD] 100 with
    stage := .huff, paylen := 5, flags := 2, prelz := 7, srcSel := .midMem, srcEnd := 7 }

/-- A property of the next state an outcome gives. -/
def nextHas (r : Result) (p : State → Bool) : Bool :=
  match r with
  | .next t => p t
  | .fault _ => false
  | .refused _ => false

/-- The first `n` bytes of `OUT_MEM`. -/
def outBytes (s : State) (n : Nat) : List (Option Byte) := (List.range n).map (Mem.read s.outMem)

/-! Well-formedness and decoding (30_encoding.md). -/

theorem test_bref_h2_is_ill_formed : (Instr.bref 2 0 0).wellFormed = false := by decide
theorem test_bref_h3_is_well_formed : (Instr.bref 3 0 0).wellFormed = true := by decide

/-- V1's header. -/
theorem test_decode_frame : decode .header [0x04, 0x00, 0x00, 0x00] = .ok (.frame 0x04 0 0 0, []) := by decide
/-- V4: FLG = 1111 1100. -/
theorem test_decode_blkRaw : decode .flagByte [0xFC] = .ok (.blkRaw 0x3F, []) := by decide
/-- R108: FLG = 1111 1101 is BLK_LZ. -/
theorem test_decode_blkLz : decode .flagByte [0xFD] = .ok (.blkLz 0x3F, []) := by decide
/-- 95, section 2.8: `02 01 00` has PRELZ = 256. -/
theorem test_decode_blkHuf : decode .flagByte [0x02, 0x01, 0x00] = .ok (.blkHuf 0 256, []) := by decide
/-- V61. -/
theorem test_decode_blkHufLz : decode .flagByte [0x03, 0x00, 0x07] = .ok (.blkHufLz 0 7, []) := by decide
theorem test_decode_cwload : decode .controlWord [0x10, 0x00, 0x61] = .ok (.cwload 0x10 0x00, [0x61]) := by decide
/-- V20d: a byte that would be a control byte is a literal under control bit 0. -/
theorem test_decode_lit : decode (.token false) [0x20] = .ok (.lit 0x20, []) := by decide
/-- V22. -/
theorem test_decode_srun : decode (.token true) [0x0F, 0xEE] = .ok (.srun 15 0xEE, []) := by decide
/-- V31. -/
theorem test_decode_lrun : decode (.token true) [0x11, 0x01, 0x7A] = .ok (.lrun 1 0x01 0x7A, []) := by decide
/-- V51. -/
theorem test_decode_brefx : decode (.token true) [0x2F, 0xFF, 0xFF] = .ok (.brefx 15 0xFF 0xFF, []) := by decide
/-- 95, section 2.6, field check: `F2 01`. -/
theorem test_decode_bref : decode (.token true) [0xF2, 0x01] = .ok (.bref 15 2 0x01, []) := by decide
/-- V44: `35` alone is cut short, which the decoder refuses by name. -/
theorem test_decode_short_token : decode (.token true) [0x35] = .error .tooFewBytes := by decide
theorem test_table_words :
    [decodeTableWord 8 0x01, decodeTableWord 16 0x7802, decodeTableWord 24 0x7A0111, decodeTableWord 16 0x01F2] =
      [some (.blkLz 0), some (.srun 2 0x78), some (.lrun 1 0x01 0x7A), some (.bref 15 2 0x01)] := by decide

/-- The table of R6. -/
theorem test_constants : [Config.frameHdrBytes, Config.flagLzBit, Config.flagHufBit, Config.hufHdrBytes, Config.cwBits,
    Config.srunBias, Config.lrunBias, Config.offBias, Config.xlenBias, Config.inMemBytes, Config.midMemBytes] =
    [4, 0, 1, 3, 16, 3, 19, 3, 16, 65539, 65535] := by decide

/-! Operand formulas at their ends (R106). -/

theorem test_lengths : [srunLength 0, srunLength 15, lrunLength 0 0, lrunLength 15 0xFF, brefxLength 0, brefxLength 0xFF,
    brefOffset 0 0, brefOffset 15 0xFF] = [3, 18, 19, 4114, 16, 271, 3, 4098] := by decide
/-- V32: `n1 = 0x80` contributes 2048. -/
theorem test_lrun_does_not_truncate : lrunLength 0 0x80 = 2067 := by decide

/-! Steps. -/

/-- V1 after FRAME (P2). -/
theorem test_frame_raw : nextHas (step (frameState [0x04, 0, 0, 0, 0, 0x48, 0x69, 0x21] 3)) (fun t =>
    decide (t.stage = .raw ∧ t.srcPos = 5 ∧ t.srcEnd = 8 ∧ t.paylen = 4)) = true := by decide
/-- R131's example frame holds 6 of the 8 payload bytes it declares: by R120 it raises `PAYLOAD_TRUNC` (log 25). -/
theorem test_frame_of_r131_example : nextHas (step (frameState [0x08, 0, 0, 0, 1, 0, 0, 0x41, 0x42, 0x43] 3)) (fun t =>
    decide (t.state = .error ∧ t.errCause = .payloadTrunc ∧ t.paylen = 8)) = true := by decide
/-- V10. -/
theorem test_frame_huf_hdr_trunc : nextHas (step (frameState [0x02, 0, 0, 0, 0x02, 0] 3)) (fun t =>
    decide (t.state = .error ∧ t.errCause = .hufHdrTrunc ∧ t.errKind = .formatError ∧ t.flags = 2)) = true := by decide
/-- V13: the exact fit. -/
theorem test_blkRaw_copies : nextHas (step (rawState 3)) (fun t =>
    decide (t.stage = .finish ∧ outBytes t 4 = [some 0x48, some 0x69, some 0x21, none])) = true := by decide
/-- V12. -/
theorem test_blkRaw_capacity : nextHas (step (rawState 2)) (fun t =>
    decide (t.state = .error ∧ t.errCause = .capacity ∧ t.errPos = 5 ∧ t.outLen = 0)) = true := by decide
/-- P1's last step but one: the end test of stage LZ. -/
theorem test_blkLz_ends : nextHas (step (lzState [] 0 4 [] 22)) (fun t => decide (t.stage = .finish ∧ t.cwCnt = 4)) = true := by
  decide
/-- R173: in V60's state the HUFF step raises the error that `HUFF` names, with `ERR_POS` 0, or hands over to RAW. -/
theorem test_blkHuf_huff : nextHas (step huffState) (fun t => decide (t.stage = .raw ∧ t.state = .busy) ||
    decide (t.state = .error ∧ t.stage = .huff ∧ t.errPos = 0 ∧ t.errKind = .decodeError)) = true := by
  change nextHas (huffStep .raw huffState) _ = true
  obtain ⟨f, hf, _⟩ | ⟨_, _, ⟨r, _, h⟩ | ⟨m, _, h⟩⟩ := huffStep_cases .raw huffState
  · exact absurd hf (by rw [show readInBytes huffState 7 (huffState.paylen.toNat - 3) = .ok [0xDE, 0xAD] from rfl]; simp)
  · rw [h]; cases r <;> decide
  · rw [h]; rfl
/-- R141's example under BE. -/
theorem test_cwload_be : nextHas (step (lzState [0x10, 0x00, 0x61] 0 0 [] 9)) (fun t =>
    decide (t.cw = 0x1000 ∧ t.cwCnt = 16 ∧ t.srcPos = 7)) = true := by decide
/-- R141's example under LE. -/
theorem test_cwload_le : nextHas (step { lzState [0x10, 0x00, 0x61] 0 0 [] 9 with params := ⟨.le, 4096⟩ }) (fun t =>
    decide (t.cw = 0x0010)) = true := by decide
/-- R143's example. -/
theorem test_lit : nextHas (step (lzState [0x41] 0x4000 2 [] 1)) (fun t =>
    decide (outBytes t 1 = [some 0x41] ∧ t.cw = 0x8000 ∧ t.cwCnt = 1 ∧ t.srcPos = 6)) = true := by decide
/-- V20. -/
theorem test_srun : nextHas (step (lzState [0x02, 0x78] 0x8080 16 [] 5)) (fun t =>
    decide (t.outPos = 5 ∧ outBytes t 6 = [some 0x78, some 0x78, some 0x78, some 0x78, some 0x78, none])) = true := by decide
/-- V24. -/
theorem test_srun_capacity : nextHas (step (lzState [0x0F, 0xEE] 0x8080 16 [] 17)) (fun t =>
    decide (t.errCause = .capacity ∧ t.outMem = [] ∧ t.errPos = 5)) = true := by decide
/-- V30. -/
theorem test_lrun : nextHas (step (lzState [0x10, 0x00, 0x55] 0x8080 16 [] 19)) (fun t =>
    decide (t.outPos = 19 ∧ Mem.read t.outMem 18 = some 0x55 ∧ t.srcPos = 8)) = true := by decide
/-- V40: overlap of 4 bytes. -/
theorem test_bref_overlap : nextHas (step (lzState [0x70, 0x00] 0x8080 13 [0x61, 0x62, 0x63] 10)) (fun t =>
    decide (outBytes t 10 = [0x61, 0x62, 0x63, 0x61, 0x62, 0x63, 0x61, 0x62, 0x63, 0x61].map some ∧ t.outPos = 10)) = true := by
  decide
/-- V43: range before capacity. -/
theorem test_bref_range : nextHas (step (lzState [0x32, 0x00] 0x8080 12 [1, 2, 3, 4] 4)) (fun t =>
    decide (t.errCause = .brefRange ∧ t.errKind = .decodeError)) = true := by decide
/-- V50. -/
theorem test_brefx : nextHas (step (lzState [0x20, 0x00, 0x00] 0x8080 13 [0x61, 0x62, 0x63] 19)) (fun t =>
    decide (t.outPos = 19 ∧ Mem.read t.outMem 18 = some 0x61 ∧ Mem.read t.outMem 17 = some 0x63)) = true := by decide
/-- V52. -/
theorem test_brefx_trunc : nextHas (step (lzState [0x20, 0x00] 0x8080 13 [1, 2, 3] 100)) (fun t =>
    decide (t.errCause = .tokenTrunc ∧ t.errPos = 5 ∧ t.cwCnt = 12)) = true := by decide
/-- U14: a byte the host counted but never wrote. -/
theorem test_unwritten_byte_faults :
    step { frameState [0x04, 0, 0, 0] 3 with inLen := 8 } = .fault (.noValue .inMem 4) := by rfl
/-- R38: START from IDLE, as a host turn. -/
theorem test_start_turn : nextHas (step { idleState [] 3 with hostTurns := [.move (.writeReg 0 3), .pass] }) (fun t =>
    decide (t.state = .busy ∧ t.stage = .frame ∧ t.hostTurns = [.pass])) = true := by decide
/-- R30: STATUS of V12's end is `ERR_CAUSE = 11`, `ERR_KIND = 2`, `STAGE = RAW (4)`, `STATE = ERROR (3)`. -/
theorem test_status : ((rawState 2).errorEntry .decodeError .capacity).statusWord = 0xB243 := by decide

/-! Witnesses: hypotheses that can be met. -/

theorem witness_DecodeInvertsEncode : (Instr.bref 3 0 0).wellFormed = true := by decide
theorem witness_EncodeInvertsDecode : decode (.token true) [0x30, 0xFF, 7] = .ok (.bref 3 0 0xFF, [7]) := by decide
theorem witness_TokenOpcodeMap : 0x0F#8 &&& 0xF0#8 = 0x00#8 ∧ 0x1F#8 &&& 0xF0#8 = 0x10#8 ∧ 0x2F#8 &&& 0xF0#8 = 0x20#8 ∧
    0x30#8 &&& 0xF0#8 = 0x30#8 ∧ 0x40#8 &&& 0xC0#8 = 0x40#8 ∧ 0xFF#8 &&& 0x80#8 = 0x80#8 := by decide
theorem witness_FlagByteSelectsMode : 0xFC#8 &&& 0x03#8 = 0x00#8 ∧ 0xFD#8 &&& 0x03#8 = 0x01#8 ∧
    0xFE#8 &&& 0x03#8 = 0x02#8 ∧ 0xFF#8 &&& 0x03#8 = 0x03#8 := by decide

/-- A state with a literal to run. -/
def litState : State := lzState [0x41] 0x4000 2 [] 1

theorem witness_StepRunsDecodedInstruction :
    litState.hostTurns = [] ∧ litState.state = .busy ∧ fetch litState = .ok (.token false, [0x41]) ∧
      decode (.token false) [0x41] = .ok (.lit 0x41, []) := ⟨rfl, rfl, rfl, rfl⟩
theorem witness_StepRunsDecodedInstruction_pass :
    { litState with hostTurns := [.pass] }.hostTurns = .pass :: litState.hostTurns ∧
      litState = { { litState with hostTurns := [.pass] } with hostTurns := litState.hostTurns } := ⟨rfl, rfl⟩
theorem witness_StreamInstructionRuns :
    litState.hostTurns = [] ∧ litState.state = .busy ∧ litState.stage = .lz ∧ (Instr.lit 0x41).wellFormed = true ∧
      (Instr.lit 0x41).context = litState.lzContext ∧ Mem.holds litState.srcMem litState.srcPos.toNat (encode (.lit 0x41)) ∧
      litState.srcPos.toNat + (encode (.lit 0x41)).length ≤ litState.srcEnd.toNat ∧
      litState.srcEnd.toNat ≤ litState.spaceSize litState.srcSel.space := by
  unfold Mem.holds; decide
theorem witness_StageSelectsStep :
    (frameState [] 0).hostTurns = [] ∧ (frameState [] 0).state = .busy ∧ (frameState [] 0).stage = .frame ∧
      huffState.hostTurns = [] ∧ huffState.state = .busy ∧ huffState.stage = .huff ∧
      litState.hostTurns = [] ∧ litState.state = .busy ∧ litState.stage = .lz ∧
      (rawState 3).hostTurns = [] ∧ (rawState 3).state = .busy ∧ (rawState 3).stage = .raw ∧
      { rawState 3 with stage := .finish }.state = .busy ∧ { rawState 3 with stage := .none }.state = .busy := by decide
theorem witness_HostTurnsAndIdleSteps :
    { idleState [] 0 with hostTurns := [.move .reset] }.hostTurns = .move .reset :: [] ∧
      (idleState [] 0).hostTurns = [] ∧ (idleState [] 0).state ≠ .busy := by decide
theorem witness_PlacedWordRunsNext : decodeTableWord 8 0x30 = some (.bref 3 0 0) := by decide

theorem witness_CwloadLoadsControlWord : 2 ≤ (lzState [1, 2] 0 0 [] 0).srcEnd.toNat - (lzState [1, 2] 0 0 [] 0).srcPos.toNat ∧
    (lzState [1, 2] 0 0 [] 0).params.cwOrder = .be ∧
    { lzState [1, 2] 0 0 [] 0 with params := ⟨.le, 1⟩ }.params.cwOrder = .le := by decide
theorem witness_TokenDecisionOrder : 15 ≤ 15 ∧ 15 < (lzState [] 0x8001 16 [] 0).cwCnt.toNat ∧
    decode (State.tokenDecision^[15] (lzState [] 0x8001 16 [] 0)).lzContext [0x30, 0] = .ok (.bref 3 0 0, []) := by decide
theorem witness_LitEmitsByte : 1 ≤ litState.srcEnd.toNat - litState.srcPos.toNat ∧
    litState.outPos.toNat + 1 ≤ litState.ecap := by decide

/-- A state with three source bytes, five output bytes and a large capacity. -/
def roomy : State := lzState [1, 2, 3] 0x8000 1 [1, 2, 3, 4, 5] 4096

theorem witness_SrunEmitsRun : 2 ≤ roomy.srcEnd.toNat - roomy.srcPos.toNat ∧
    roomy.outPos.toNat + ((15 : Nibble).toNat + 3) ≤ roomy.ecap := by decide
theorem witness_LrunEmitsRun : 3 ≤ roomy.srcEnd.toNat - roomy.srcPos.toNat ∧
    roomy.outPos.toNat + ((15 : Nibble).toNat + 16 * (0xF0 : Byte).toNat + 19) ≤ roomy.ecap := by decide
theorem witness_BrefCopies : 2 ≤ roomy.srcEnd.toNat - roomy.srcPos.toNat ∧
    16 * (0 : Byte).toNat + (2 : Nibble).toNat + 3 ≤ roomy.outPos.toNat ∧
    roomy.outPos.toNat + (15 : Nibble).toNat ≤ roomy.ecap ∧ roomy.OutWritten := by
  unfold State.OutWritten; decide
theorem witness_BrefxCopies : 3 ≤ roomy.srcEnd.toNat - roomy.srcPos.toNat ∧
    16 * (0 : Byte).toNat + (0 : Nibble).toNat + 3 ≤ roomy.outPos.toNat ∧
    roomy.outPos.toNat + ((0xFF : Byte).toNat + 16) ≤ roomy.ecap ∧ roomy.OutWritten := by
  unfold State.OutWritten; decide
theorem witness_CopyOverlapLaw : 1 ≤ 1 ∧ 1 ≤ roomy.outPos.toNat ∧ roomy.outPos.toNat + 20 ≤ roomy.ecap ∧ roomy.OutWritten := by
  unfold State.OutWritten; decide
/-- One byte left: too few for every two-byte item; two left: too few for every three-byte token. -/
theorem witness_TruncationRaises :
    litState.srcEnd.toNat - litState.srcPos.toNat < 2 ∧
      (lzState [1, 2] 0 1 [] 0).srcEnd.toNat - (lzState [1, 2] 0 1 [] 0).srcPos.toNat < 3 := by decide
theorem witness_BackReferenceRangeRaises :
    roomy.outPos.toNat < 16 * (0 : Byte).toNat + (3 : Nibble).toNat + 3 ∧
      2 ≤ roomy.srcEnd.toNat - roomy.srcPos.toNat ∧ 3 ≤ roomy.srcEnd.toNat - roomy.srcPos.toNat := by decide

/-- `roomy` filled to its capacity. -/
def full : State := { roomy with outCap := 5 }

theorem witness_CapacityRaises :
    full.ecap < full.outPos.toNat + 1 ∧ 2 ≤ full.srcEnd.toNat - full.srcPos.toNat ∧
      full.ecap < full.outPos.toNat + ((0 : Nibble).toNat + 3) ∧ 3 ≤ full.srcEnd.toNat - full.srcPos.toNat ∧
      full.ecap < full.outPos.toNat + ((0 : Nibble).toNat + 16 * (0 : Byte).toNat + 19) ∧
      16 * (0 : Byte).toNat + (2 : Nibble).toNat + 3 ≤ full.outPos.toNat ∧
      full.ecap < full.outPos.toNat + (3 : Nibble).toNat ∧ full.ecap < full.outPos.toNat + ((0 : Byte).toNat + 16) ∧
      (rawState 2).stage = .raw ∧
      (rawState 2).ecap < (rawState 2).outPos.toNat + ((rawState 2).srcEnd.toNat - (rawState 2).srcPos.toNat) := by decide
theorem witness_EveryTokenEmits :
    nextHas (exec (.lit 7) roomy) (fun t => decide (roomy.state = .busy ∧ t.state = .busy)) = true ∧
    nextHas (exec (.srun 15 7) roomy) (fun t => decide (t.state = .busy)) = true ∧
    nextHas (exec (.lrun 0 0 7) roomy) (fun t => decide (t.state = .busy)) = true ∧
    nextHas (exec (.bref 3 0 0) roomy) (fun t => decide ((Instr.bref 3 0 0).wellFormed = true ∧ t.state = .busy)) = true ∧
    nextHas (exec (.brefx 0 0 0) roomy) (fun t => decide (t.state = .busy)) = true ∧
    nextHas (exec (.cwload 0 0) roomy) (fun t => decide (t.state = .busy)) = true := by decide
theorem witness_RaisingTokenWritesNothing : full.state = .busy ∧ (Instr.lit 0).context ≠ .header ∧
    (Instr.lit 0).context ≠ .flagByte ∧ nextHas (exec (.lit 0) full) (fun t => decide (t.state = .error)) = true := by decide

/-- V7, V8, V9, V10: each error of the FRAME step. -/
theorem witness_FrameErrorsInOrder :
    (frameState [1, 0, 0] 0).inLen.toNat < 4 ∧
    (4 ≤ (frameState [5, 0, 0, 0, 1, 0, 0] 0).inLen.toNat ∧
      (frameState [5, 0, 0, 0, 1, 0, 0] 0).inLen.toNat < 4 + ((5 : Byte).toNat + 256 * (0 : Byte).toNat)) ∧
    (4 ≤ (frameState [0, 0, 0, 0] 0).inLen.toNat ∧ (0 : Byte).toNat + 256 * (0 : Byte).toNat = 0) ∧
    (4 + ((2 : Byte).toNat + 256 * (0 : Byte).toNat) ≤ (frameState [2, 0, 0, 0, 2, 0] 0).inLen.toNat ∧
      1 ≤ (2 : Byte).toNat + 256 * (0 : Byte).toNat ∧ (2 : Byte).toNat + 256 * (0 : Byte).toNat < 3 ∧
      Mem.read (frameState [2, 0, 0, 0, 2, 0] 0).inMem 4 = some 2 ∧ (2 : Byte).getLsbD 1 = true) := by decide
/-- V5, the least frame. -/
theorem witness_FrameEntersPlainBlock :
    4 + ((1 : Byte).toNat + 256 * (0 : Byte).toNat) ≤ (frameState [1, 0, 0, 0, 0] 0).inLen.toNat ∧
      1 ≤ (1 : Byte).toNat + 256 * (0 : Byte).toNat ∧ Mem.read (frameState [1, 0, 0, 0, 0] 0).inMem 4 = some 0 ∧
      (0 : Byte).getLsbD 1 = false := by decide
/-- V65, the least Huffman frame. -/
theorem witness_FrameEntersHuffmanBlock :
    4 + ((3 : Byte).toNat + 256 * (0 : Byte).toNat) ≤ (frameState [3, 0, 0, 0, 2, 0, 0] 0).inLen.toNat ∧
      3 ≤ (3 : Byte).toNat + 256 * (0 : Byte).toNat ∧ Mem.read (frameState [3, 0, 0, 0, 2, 0, 0] 0).inMem 4 = some 2 ∧
      (2 : Byte).getLsbD 1 = true ∧ Mem.read (frameState [3, 0, 0, 0, 2, 0, 0] 0).inMem 5 = some 0 ∧
      Mem.read (frameState [3, 0, 0, 0, 2, 0, 0] 0).inMem 6 = some 0 := by decide
theorem witness_BlockModeFrameStage :
    (frameState [5, 0, 0, 0, 2, 0, 7, 0xDE, 0xAD] 0).stage = .frame ∧ (Instr.blkHuf 0 7).context = .flagByte ∧
      Mem.read (frameState [5, 0, 0, 0, 2, 0, 7, 0xDE, 0xAD] 0).inMem 0 = some 5 ∧
      Mem.read (frameState [5, 0, 0, 0, 2, 0, 7, 0xDE, 0xAD] 0).inMem 1 = some 0 ∧
      Mem.holds (frameState [5, 0, 0, 0, 2, 0, 7, 0xDE, 0xAD] 0).inMem 4 (encode (.blkHuf 0 7)) := by
  unfold Mem.holds; decide
theorem witness_HuffStageAppliesHuff : huffState.stage = .huff ∧ [0xDE#8, 0xAD#8].length = huffState.paylen.toNat - 3 ∧
    Mem.holds huffState.inMem 7 [0xDE#8, 0xAD#8] := by
  unfold Mem.holds; decide
theorem witness_RawStageCopies : (rawState 3).stage = .raw ∧
    (rawState 3).srcPos.toNat + [0x48#8, 0x69#8, 0x21#8].length = (rawState 3).srcEnd.toNat ∧
    Mem.holds (rawState 3).srcMem (rawState 3).srcPos.toNat [0x48#8, 0x69#8, 0x21#8] ∧
    (rawState 3).srcEnd.toNat ≤ (rawState 3).spaceSize (rawState 3).srcSel.space ∧
    (rawState 3).outPos.toNat + [0x48#8, 0x69#8, 0x21#8].length ≤ (rawState 3).ecap := by
  unfold Mem.holds; decide
theorem witness_FinishStageReports : { rawState 3 with stage := .finish }.stage = .finish ∧
    (Instr.blkRaw 0).context = .flagByte ∧ (Instr.blkLz 0).context = .flagByte ∧
    (Instr.blkHuf 0 0).context = .flagByte ∧ (Instr.blkHufLz 0 0).context = .flagByte := by decide
theorem witness_LzStageOfBlockModes : (lzState [] 0 4 [] 0).stage = .lz ∧
    (lzState [] 0 4 [] 0).srcPos = (lzState [] 0 4 [] 0).srcEnd ∧ litState.stage = .lz ∧ litState.hostTurns = [] ∧
    litState.state = .busy := by decide
theorem witness_BlockModeStopsOutsideItsStages : State.reset.stage = .none ∧ huffState.stage = .huff ∧
    litState.stage = .lz ∧ (rawState 3).stage = .raw := by decide
theorem witness_ErrorEntrySavesExactly : (litState.stage = .lz ∨ litState.stage = .raw) ∧
    ¬(huffState.stage = .lz ∨ huffState.stage = .raw) := by decide

theorem witness_CtrlCommands : (idleState [] 0).state ≠ .busy ∧ (3 : BitVec 32).getLsbD 0 = true ∧
    { idleState [] 0 with state := .error }.state = .error ∧ (2 : BitVec 32).getLsbD 0 = false ∧
    (2 : BitVec 32).getLsbD 1 = true ∧ litState.state = .busy ∧ (idleState [] 0).state = .idle ∧
    (4 : BitVec 32).getLsbD 0 = false ∧ (4 : BitVec 32).getLsbD 1 = false := by decide
theorem witness_HostWrites : litState.state = .busy ∧ (idleState [] 0).state ≠ .busy ∧ 1 ≠ 0 ∧ 1 ≠ 2 ∧ 1 ≠ 3 ∧
    65538 < 65539 ∧ 65539 ≤ 65539 := by decide
theorem witness_HostRegisterReads : 8 < 9 ∧ (idleState [] 0).state ≠ .busy := by decide

/-- A state in `DONE` with one byte of output. -/
def doneState : State :=
  { rawState 3 with state := .done, stage := .finish, outMem := [(0, 0x48)], outPos := 1, outLen := 1, consumed := 8 }

theorem witness_HostReadsOfOutMem : doneState.state = .done ∧ 0 < doneState.outLen.toNat ∧
    0 < doneState.params.outMemBytes ∧ Mem.read doneState.outMem 0 = some 0x48 := by decide

theorem witness_EngineWritesOnlyItsOwn :
    nextHas (engineTurn litState) (fun _ => decide (litState.stage ≠ .huff)) = true ∧
    nextHas (engineTurn (frameState [0, 0, 0, 0] 0))
      (fun _ => decide ((frameState [0, 0, 0, 0] 0).stage ≠ .lz ∧ (frameState [0, 0, 0, 0] 0).stage ≠ .raw)) = true := by decide
theorem witness_OutputStaysInsideCapacity :
    nextHas (engineTurn litState) (fun t => decide (Mem.read t.outMem 0 ≠ Mem.read litState.outMem 0)) = true := by decide
theorem witness_LzStepProgresses :
    nextHas (engineTurn litState) (fun _ => decide (litState.state = .busy ∧ litState.stage = .lz ∧
      litState.srcPos.toNat ≤ litState.srcEnd.toNat)) = true := by decide
theorem witness_LegalPhaseChanges :
    nextHas (step { doneState with hostTurns := [.move .reset] }) (fun _ => true) = true ∧
    nextHas (step { doneState with hostTurns := [.move (.writeReg 0 1)] })
      (fun _ => decide (doneState.state ≠ .busy ∧ (1 : BitVec 32).getLsbD 0 = true)) = true ∧
    nextHas (step { doneState with hostTurns := [.move (.writeReg 0 2)] })
      (fun _ => decide ((2 : BitVec 32).getLsbD 0 = false ∧ (2 : BitVec 32).getLsbD 1 = true)) = true ∧
    nextHas (step { doneState with hostTurns := [.move (.writeReg 0 4)] })
      (fun _ => decide ((4 : BitVec 32).getLsbD 0 = false ∧ (4 : BitVec 32).getLsbD 1 = false)) = true ∧
    nextHas (step { litState with hostTurns := [.move (.writeReg 0 1)] }) (fun _ => decide (litState.state = .busy)) = true ∧
    nextHas (step { doneState with hostTurns := [.move (.writeReg 2 9)] }) (fun _ => true) = true ∧
    nextHas (step litState) (fun _ => decide (litState.hostTurns = [])) = true ∧
    nextHas (step { doneState with hostTurns := [.pass] }) (fun _ => true) = true := by decide

/-- A concrete BUSY state meets the invariant of the machine: `OUT_MEM` partly written, a token to run. -/
theorem roomy_inv : roomy.Inv where
  outMemBytes := by decide
  mem := ⟨by decide, by decide, by decide, by decide, by decide, by decide⟩
  cursor := ⟨by decide, by decide, by decide, by decide, by decide⟩
  err := ⟨by decide, by decide⟩
  result := ⟨by decide, by decide⟩
  bytes := ⟨by decide, by decide⟩
  stage := ⟨by decide, by decide, by decide, by decide, by decide, by decide, by decide⟩

theorem roomy_loaded : roomy.Loaded := by unfold State.Loaded; decide

theorem witness_StepKeepsMemoryCanonical : roomy.MemOk ∧ nextHas (step roomy) (fun _ => true) = true :=
  ⟨roomy_inv.mem, by decide⟩
theorem witness_StepKeepsErrorCodes : roomy.ErrorOk ∧ nextHas (step roomy) (fun _ => true) = true :=
  ⟨roomy_inv.err, by decide⟩
theorem witness_StepKeepsResultsHidden : (roomy.state ≠ .done → roomy.outLen = 0 ∧ roomy.consumed = 0) ∧
    nextHas (step roomy) (fun t => decide (t.state ≠ .done)) = true := by decide
theorem witness_StepKeepsInvariant : roomy.Inv ∧ nextHas (step roomy) (fun _ => true) = true :=
  ⟨roomy_inv, by decide⟩
theorem witness_LoadedMachineNeverFaults : roomy.Inv ∧ roomy.Loaded := ⟨roomy_inv, roomy_loaded⟩
theorem witness_EveryRunEnds : roomy.Inv ∧ roomy.Loaded ∧ roomy.hostTurns = [] ∧ roomy.state = .busy :=
  ⟨roomy_inv, roomy_loaded, rfl, rfl⟩
/-- `IN_MEM` with another reserved byte and a byte past the frame. -/
theorem witness_UnreadBytesHaveNoEffect : roomy.Inv ∧ roomy.hostTurns = [] ∧
    ∀ a, a ≠ 2 → a ≠ 3 → a < 4 + (if roomy.stage = .frame then
        (payloadLength ((Mem.read roomy.inMem 0).getD 0) ((Mem.read roomy.inMem 1).getD 0)).toNat else roomy.paylen.toNat) →
      Mem.read (Mem.write (Mem.write roomy.inMem 2 0xAA) 8 0xFF) a = Mem.read roomy.inMem a := by
  refine ⟨roomy_inv, rfl, ?_⟩
  have h : ∀ a < 8, a ≠ 2 → a ≠ 3 →
      Mem.read (Mem.write (Mem.write roomy.inMem 2 0xAA) 8 0xFF) a = Mem.read roomy.inMem a := by decide
  exact fun a h2 h3 ha => h a ha h2 h3

/-- Stage LZ entered on the stream of V40. -/
def streamState : State := lzState [0x10, 0x10, 0x61, 0x62, 0x63, 0x70, 0x00] 0 0 [] 10

theorem witness_LzStageComputesLzDecode : streamState.hostTurns = [] ∧ streamState.state = .busy ∧ streamState.stage = .lz ∧
    streamState.cwCnt = 0 ∧ streamState.outPos = 0 ∧
    streamState.srcPos.toNat + [0x10#8, 0x10#8, 0x61#8, 0x62#8, 0x63#8, 0x70#8, 0x00#8].length = streamState.srcEnd.toNat ∧
    streamState.srcEnd.toNat ≤ streamState.spaceSize streamState.srcSel.space ∧
    Mem.holds streamState.srcMem streamState.srcPos.toNat [0x10#8, 0x10#8, 0x61#8, 0x62#8, 0x63#8, 0x70#8, 0x00#8] := by
  unfold Mem.holds; decide
/-- V40 through the reference of R154. -/
theorem test_lzDecode : lzDecode .be 10 [0x10, 0x10, 0x61, 0x62, 0x63, 0x70, 0x00] =
    .ok [0x61, 0x62, 0x63, 0x61, 0x62, 0x63, 0x61, 0x62, 0x63, 0x61] := by rfl
theorem witness_RunComputesBlockDecode : (idleState [4, 0, 0, 0, 0, 0x48, 0x69, 0x21] 3).hostTurns = [] ∧
    (idleState [4, 0, 0, 0, 0, 0x48, 0x69, 0x21] 3).state ≠ .busy ∧
    Mem.holds (idleState [4, 0, 0, 0, 0, 0x48, 0x69, 0x21] 3).inMem 0 [4#8, 0#8, 0#8, 0#8, 0#8, 0x48#8, 0x69#8, 0x21#8] ∧
    [4#8, 0#8, 0#8, 0#8, 0#8, 0x48#8, 0x69#8, 0x21#8].length ≤ 65539 ∧
    (idleState [4, 0, 0, 0, 0, 0x48, 0x69, 0x21] 3).inLen.toNat ≤
      [4#8, 0#8, 0#8, 0#8, 0#8, 0x48#8, 0x69#8, 0x21#8].length := by
  unfold Mem.holds; decide
theorem witness_RawBlockRun : (idleState [4, 0, 0, 0, 0, 0x48, 0x69, 0x21] 3).hostTurns = [] ∧
    (idleState [4, 0, 0, 0, 0, 0x48, 0x69, 0x21] 3).state ≠ .busy ∧
    Mem.holds (idleState [4, 0, 0, 0, 0, 0x48, 0x69, 0x21] 3).inMem 0 (4#8 :: 0#8 :: 0#8 :: 0#8 :: 0#8 :: [0x48#8, 0x69#8, 0x21#8]) ∧
    (4 : Byte).toNat + 256 * (0 : Byte).toNat = [0x48#8, 0x69#8, 0x21#8].length + 1 ∧
    4 + ([0x48#8, 0x69#8, 0x21#8].length + 1) ≤ (idleState [4, 0, 0, 0, 0, 0x48, 0x69, 0x21] 3).inLen.toNat ∧
    (0 : Byte).getLsbD 0 = false ∧ (0 : Byte).getLsbD 1 = false ∧
    [0x48#8, 0x69#8, 0x21#8].length ≤ (idleState [4, 0, 0, 0, 0, 0x48, 0x69, 0x21] 3).ecap := by
  unfold Mem.holds; decide

end Sys2Proof.Tests
end

section
/-! PROOFS. What heads the list of host turns decides what a step is (log 5); the statements `StepRunsDecodedInstruction`,
`HostTurnsAndIdleSteps` and `InvariantHoldsAtReset`. -/

namespace Sys2Proof.Machine

/-- A pass lets the engine move, with the pass taken off the list. -/
theorem step_of_pass {s : State} {rest : List HostTurn} (h : s.hostTurns = .pass :: rest) :
    step s = engineTurn { s with hostTurns := rest } := by
  unfold step systemTurn
  rw [h]

/-- A move at the head of the list is the host's, with the move taken off the list (R74). -/
theorem step_of_move {s : State} {m : HostMove} {rest : List HostTurn} (h : s.hostTurns = .move m :: rest) :
    step s = .next (hostMove m { s with hostTurns := rest }) := by
  unfold step systemTurn
  rw [h]

theorem withDecoded_of_decode {f : Fetched} {i : Instr} {rest : List Byte} (h : decode f.1 f.2 = .ok (i, rest))
    (k : Instr → Result) : withDecoded f k = k i := by
  unfold withDecoded
  rw [h]

/-- A BUSY engine runs the instruction its fetched bytes decode to (R11, R21). -/
theorem engineTurn_of_decode {s : State} {f : Fetched} {i : Instr} {rest : List Byte} (hb : s.state = .busy)
    (hf : fetch s = .ok f) (hd : decode f.1 f.2 = .ok (i, rest)) : engineTurn s = exec i s := by
  rw [engineTurn_of_busy s hb, hf]
  exact withDecoded_of_decode hd _

/-- Settles O6: with no host turn or a pass at the head the step is the engine's turn. -/
theorem stepRunsDecodedInstruction : Obligations.StepRunsDecodedInstruction := by
  unfold Obligations.StepRunsDecodedInstruction
  intro s u f i rest hturn hb hf hd
  have hstep : step s = engineTurn u := by
    obtain ⟨hnone, rfl⟩ | ⟨hpass, hu⟩ := hturn
    · exact step_of_no_turns u hnone
    · rw [step_of_pass hpass, ← hu]
  rw [hstep, engineTurn_of_decode hb hf hd]

/-- Settles O9: a move at the head is the host's, and an engine that is not BUSY keeps its state. -/
theorem hostTurnsAndIdleSteps : Obligations.HostTurnsAndIdleSteps := by
  unfold Obligations.HostTurnsAndIdleSteps
  intro s
  refine ⟨fun m rest h => step_of_move h, fun h hb => ?_⟩
  rw [step_of_no_turns s h, engineTurn_of_not_busy s hb]

/-- Settles O50: at reset every cursor is 0, no byte is listed and the machine is not BUSY; `OUT_MEM_BYTES` is open, but
at least 1 (R5). -/
theorem invariantHoldsAtReset : Obligations.InvariantHoldsAtReset := by
  unfold Obligations.InvariantHoldsAtReset
  obtain ⟨hin, hmid, hout⟩ := Mem.reset_wf
  exact {
    outMemBytes := Nat.le_add_left 1 _
    mem := ⟨hin, hmid, hout, nofun, nofun, nofun⟩
    cursor := ⟨Nat.le_refl 0, Nat.zero_le _, Nat.zero_le _, Nat.zero_le _, nofun⟩
    err := ⟨by decide, rfl⟩
    result := ⟨fun _ => ⟨rfl, rfl⟩, nofun⟩
    bytes := ⟨nofun, nofun⟩
    stage := ⟨nofun, nofun, nofun, nofun, nofun, nofun, nofun⟩ }

end Sys2Proof.Machine
end

section
/-! PROOFS. What the engine runs in each stage: the instruction a context decodes to, and the stage step it carries out. -/

namespace Sys2Proof.Machine

theorem blockInstr_context (huf lz : Bool) (x : BitVec 6) (pre : BitVec 16) :
    (blockInstr huf lz x pre).context = .flagByte := by
  cases huf <;> cases lz <;> rfl

/-- A flag byte decodes to a block mode. -/
theorem decodeFlag_context {flg : Byte} {bytes rest : List Byte} {i : Instr} (h : decodeFlag flg bytes = .ok (i, rest)) :
    i.context = .flagByte := by
  unfold decodeFlag at h
  split at h
  · split at h
    · cases h; exact blockInstr_context _ _ _ _
    · cases h
  · cases h; exact blockInstr_context _ _ _ _

/-- A control byte decodes to a coded token (R100). -/
theorem decodeCoded_context {c : Byte} {bytes rest : List Byte} {i : Instr} (h : decodeCoded c bytes = .ok (i, rest)) :
    i.context = .token true := by
  unfold decodeCoded at h
  repeat' split at h
  all_goals cases h
  all_goals rfl

/-- What is decoded in a context is an instruction of that context (R105). -/
theorem decode_context {ctx : Context} {bytes rest : List Byte} {i : Instr} (h : decode ctx bytes = .ok (i, rest)) :
    i.context = ctx := by
  cases ctx with
  | header => simp only [decode] at h; split at h <;> cases h; rfl
  | flagByte =>
    simp only [decode] at h
    split at h
    · exact decodeFlag_context h
    · cases h
  | controlWord => simp only [decode] at h; split at h <;> cases h; rfl
  | token bit =>
    cases bit with
    | false => simp only [decode] at h; split at h <;> cases h; rfl
    | true =>
      simp only [decode] at h
      split at h
      · exact decodeCoded_context h
      · cases h

/-- A latched block mode is run as the block mode of its bits, whatever `PRELZ` is (R94, R123). -/
theorem engineTurn_of_latchedBlock {s : State} (huf lz : Bool) (hb : s.state = .busy)
    (hf : fetch s = .ok (latchedBlock huf lz s)) :
    ∃ pre, engineTurn s = exec (blockInstr huf lz (flagRest s.flags) pre) s := by
  obtain ⟨pre, rest, hd⟩ := decode_latchedBlock huf lz s
  exact ⟨pre, engineTurn_of_decode hb hf hd⟩

/-- In stage FRAME the engine decodes the header (R120). -/
theorem engineTurn_of_frame {s : State} (hb : s.state = .busy) (hg : s.stage = .frame) :
    engineTurn s = andThen (fetchHeader s) fun bytes => withDecoded (.header, bytes) fun i => exec i s := by
  rw [engineTurn_of_busy s hb]
  simp only [fetch, hg]
  cases fetchHeader s <;> rfl

/-- In stage HUFF the engine takes the HUFF step, and the LZ bit selects the stage after it (R176). -/
theorem engineTurn_of_huff {s : State} (hb : s.state = .busy) (hg : s.stage = .huff) :
    engineTurn s = huffStep (if flagLz s.flags then .lz else .raw) s := by
  obtain ⟨pre, h⟩ := engineTurn_of_latchedBlock true (flagLz s.flags) hb (by simp only [fetch, hg])
  rw [h]
  cases flagLz s.flags <;> simp [blockInstr, exec, execBlkHuf, execBlkHufLz, hg]

/-- A fetch from the LZ stream is decoded as a control word or as a token (R140). -/
theorem fetchLz_context {s : State} {f : Fetched} (h : fetchLz s = .ok f) : f.1 ≠ .header ∧ f.1 ≠ .flagByte := by
  have hmap : ∀ {ctx : Context} {r : Except Fault (List Byte)}, r.map (Prod.mk ctx) = .ok f → f.1 = ctx := by
    intro ctx r hr
    cases r <;> cases hr
    rfl
  unfold fetchLz at h
  split at h
  · simp [hmap h]
  · split at h <;> simp [hmap h]

/-- In stage LZ the engine takes the LZ step: at the end of the source the block mode goes on to FINISH, before it the
fetched item runs (R140, R153). -/
theorem engineTurn_of_lz {s : State} (hb : s.state = .busy) (hg : s.stage = .lz) : engineTurn s = lzStep s := by
  by_cases hend : s.srcPos = s.srcEnd
  · obtain ⟨pre, h⟩ := engineTurn_of_latchedBlock (flagHuf s.flags) true hb (by simp only [fetch, hg]; exact if_pos hend)
    rw [h]
    cases flagHuf s.flags <;> simp [blockInstr, exec, execBlkLz, execBlkHufLz, hg]
  · rw [engineTurn_of_busy s hb]
    simp only [fetch, lzStep, hg, if_neg hend]
    cases hf : fetchLz s with
    | error e => rfl
    | ok f =>
      obtain ⟨hh, hfl⟩ := fetchLz_context hf
      cases hd : decode f.1 f.2 with
      | error r => simp only [andThen, withDecoded, hd]
      | ok p =>
        have hctx := decode_context hd
        simp only [andThen, withDecoded_of_decode hd]
        exact (execLzItem_eq_exec p.1 s (hctx ▸ hh) (hctx ▸ hfl)).symm

/-- In stage RAW the engine takes the RAW step (R127). -/
theorem engineTurn_of_raw {s : State} (hb : s.state = .busy) (hg : s.stage = .raw) : engineTurn s = rawStep s := by
  obtain ⟨pre, h⟩ := engineTurn_of_latchedBlock (flagHuf s.flags) false hb (by simp only [fetch, hg])
  rw [h]
  cases flagHuf s.flags <;> simp [blockInstr, exec, execBlkRaw, execBlkHuf, hg]

/-- In stage FINISH the engine takes the FINISH step (R129). -/
theorem engineTurn_of_finish {s : State} (hb : s.state = .busy) (hg : s.stage = .finish) :
    engineTurn s = finishStep s := by
  obtain ⟨pre, h⟩ := engineTurn_of_latchedBlock (flagHuf s.flags) (flagLz s.flags) hb (by simp only [fetch, hg])
  rw [h]
  cases flagHuf s.flags <;> cases flagLz s.flags <;>
    simp [blockInstr, exec, execBlkRaw, execBlkLz, execBlkHuf, execBlkHufLz, hg]

end Sys2Proof.Machine
end

section
/-! PROOFS. No step depends on a byte of `IN_MEM` that it does not read (R12, R92, R121): each operation, run with another
content of `IN_MEM` that agrees on the bytes it reads, answers the same up to that content. -/

namespace Sys2Proof.Machine

/-- The state with another content of `IN_MEM`. -/
def State.setInMem (s : State) (m : Mem) : State := { s with inMem := m }

/-- The meaning `f` answers in `s` the same, up to the content of `IN_MEM`, whether `IN_MEM` is the state's own or `m`. -/
def IgnoresInMem (m : Mem) (f : State → Result) (s : State) : Prop :=
  f (s.setInMem m) = Result.withInMem (f s) m

/-- The content `m` agrees with `IN_MEM` on every byte below `n` but the reserved bytes 2 and 3 (R92). -/
def State.AgreesBelow (s : State) (m : Mem) (n : Nat) : Prop :=
  ∀ a, a ≠ 2 → a ≠ 3 → a < n → Mem.read m a = Mem.read s.inMem a

/-- The content `m` agrees with `IN_MEM` on the source bytes left, where the source lies in `IN_MEM` (R126). -/
def State.SameSource (s : State) (m : Mem) : Prop :=
  s.srcSel = .inMem → ∀ a, s.srcPos.toNat ≤ a → a < s.srcEnd.toNat → Mem.read m a = Mem.read s.inMem a

/-! Sequencing: what goes on the same goes on the same after a read, a decoding or a check. -/

theorem andThen_withInMem {α : Type} {m : Mem} {r r' : Except Fault α} {k k' : α → Result} (hr : r' = r)
    (hk : ∀ v, r = .ok v → k' v = Result.withInMem (k v) m) :
    andThen r' k' = Result.withInMem (andThen r k) m := by
  subst hr
  cases r' with
  | ok v => exact hk v rfl
  | error f => rfl

theorem withDecoded_withInMem {m : Mem} {f : Fetched} {k k' : Instr → Result}
    (h : ∀ i, k' i = Result.withInMem (k i) m) :
    withDecoded f k' = Result.withInMem (withDecoded f k) m := by
  unfold withDecoded
  split
  · exact h _
  · rfl

theorem ite_withInMem {m : Mem} {c : Prop} [Decidable c] {x y x' y' : Result}
    (hx : c → x' = Result.withInMem x m) (hy : ¬ c → y' = Result.withInMem y m) :
    (if c then x' else y') = Result.withInMem (if c then x else y) m := by
  split
  · exact hx ‹_›
  · exact hy ‹_›

theorem withCapacity_withInMem {m : Mem} {n : Nat} {s : State} {k k' : Result} (h : k' = Result.withInMem k m) :
    withCapacity n (s.setInMem m) k' = Result.withInMem (withCapacity n s k) m :=
  ite_withInMem (fun _ => h) fun _ => rfl

/-! The reads. -/

theorem memRead_setInMem {s : State} {m : Mem} {sp : Space} {a : Nat}
    (h : sp = .inMem → Mem.read m a = Mem.read s.inMem a) : memRead sp a (s.setInMem m) = memRead sp a s := by
  cases sp with
  | inMem =>
    have hr : ((s.setInMem m).memory .inMem).read a = (s.memory .inMem).read a := h rfl
    unfold memRead
    rw [hr]
    rfl
  | midMem => rfl
  | outMem => rfl

theorem State.AgreesBelow.memRead {s : State} {m : Mem} {n a : Nat} (h : s.AgreesBelow m n) (h2 : a ≠ 2) (h3 : a ≠ 3)
    (ha : a < n) : memRead .inMem a (s.setInMem m) = memRead .inMem a s :=
  memRead_setInMem fun _ => h a h2 h3 ha

theorem readSrc_setInMem {s : State} {m : Mem} (h : s.SameSource m) {a : Nat} (ha : s.srcPos.toNat ≤ a) :
    readSrc a (s.setInMem m) = readSrc a s := by
  unfold readSrc
  simp only [show (s.setInMem m).srcEnd = s.srcEnd from rfl, show (s.setInMem m).srcSel = s.srcSel from rfl]
  split
  · refine memRead_setInMem fun hsp => h ?_ a ha ‹_›
    cases hs : s.srcSel with
    | inMem => rfl
    | midMem => rw [hs] at hsp; cases hsp
  · rfl

theorem readSrcBytes_setInMem {s : State} {m : Mem} (h : s.SameSource m) :
    ∀ {n a : Nat}, s.srcPos.toNat ≤ a → readSrcBytes (s.setInMem m) a n = readSrcBytes s a n
  | 0, _, _ => rfl
  | n + 1, a, ha => by
    rw [readSrcBytes, readSrcBytes, readSrc_setInMem h ha, readSrcBytes_setInMem h (Nat.le_succ_of_le ha)]

theorem readInBytes_setInMem {s : State} {m : Mem} {e : Nat} (h : s.AgreesBelow m e) :
    ∀ {n a : Nat}, 4 ≤ a → a + n ≤ e → readInBytes (s.setInMem m) a n = readInBytes s a n
  | 0, _, _, _ => rfl
  | n + 1, a, ha, he => by
    rw [readInBytes, readInBytes, h.memRead (by omega) (by omega) (by omega),
      readInBytes_setInMem h (by omega) (by omega)]

/-! The emitting loops. -/

theorem emitRun_setInMem (m : Mem) (b : Byte) : ∀ (n : Nat) (s : State),
    (s.setInMem m).emitRun b n = (s.emitRun b n).setInMem m
  | 0, _ => rfl
  | n + 1, s => emitRun_setInMem m b n (s.emit b)

theorem copyLoop_setInMem (m : Mem) (offset : Nat) : ∀ (n : Nat) (s : State),
    copyLoop offset n (s.setInMem m) = (copyLoop offset n s).map (·.setInMem m)
  | 0, _ => rfl
  | n + 1, s => by
    have hr : memRead .outMem ((s.setInMem m).outPos.toNat - offset) (s.setInMem m) =
        memRead .outMem (s.outPos.toNat - offset) s := rfl
    rw [copyLoop, copyLoop, hr]
    cases memRead .outMem (s.outPos.toNat - offset) s with
    | error f => rfl
    | ok v => exact copyLoop_setInMem m offset n (s.emit v)

theorem rawLoop_setInMem {m : Mem} : ∀ {n a : Nat} {s : State}, s.SameSource m → s.srcPos.toNat ≤ a →
    rawLoop a n (s.setInMem m) = (rawLoop a n s).map (·.setInMem m)
  | 0, _, _, _, _ => rfl
  | n + 1, a, s, h, ha => by
    rw [rawLoop, rawLoop, readSrc_setInMem h ha]
    cases readSrc a s with
    | error f => rfl
    | ok v => exact rawLoop_setInMem (s := s.emit v) h (Nat.le_succ_of_le ha)

/-- A loop that commutes with the change of `IN_MEM` hands over to a meaning that ignores it. -/
theorem andThen_loop_withInMem {m : Mem} {r r' : Except Fault State} {k : State → Result}
    (hr : r' = r.map (·.setInMem m)) (hk : ∀ t, IgnoresInMem m k t) :
    andThen r' k = Result.withInMem (andThen r k) m := by
  subst hr
  cases r with
  | ok t => exact hk t
  | error f => rfl

/-! The stream: no item reads `IN_MEM` once it is fetched. -/

theorem runToken_ignoresInMem (m : Mem) (length : Nat) (b : Byte) (k : Nat) (s : State) :
    IgnoresInMem m (runToken length b k) s :=
  withCapacity_withInMem (by rw [emitRun_setInMem]; rfl)

theorem backCopy_ignoresInMem (m : Mem) (offset length k : Nat) (s : State) :
    IgnoresInMem m (backCopy offset length k) s :=
  ite_withInMem (fun _ => rfl) fun _ =>
    withCapacity_withInMem (andThen_loop_withInMem (copyLoop_setInMem m offset length s) fun _ => rfl)

theorem codedToken_ignoresInMem {m : Mem} {k : Nat} {s : State} {body : State → Result}
    (h : IgnoresInMem m body s.tokenDecision) : IgnoresInMem m (codedToken k · body) s :=
  ite_withInMem (fun _ => rfl) fun _ => h

theorem execLzItem_ignoresInMem (m : Mem) (i : Instr) (s : State) : IgnoresInMem m (execLzItem i) s := by
  cases i with
  | cwload b0 b1 => exact ite_withInMem (fun _ => rfl) fun _ => rfl
  | lit b => exact runToken_ignoresInMem m 1 b 1 s.tokenDecision
  | srun l b => exact codedToken_ignoresInMem (runToken_ignoresInMem m _ b 2 _)
  | lrun l n1 b => exact codedToken_ignoresInMem (runToken_ignoresInMem m _ b 3 _)
  | brefx l o n => exact codedToken_ignoresInMem (backCopy_ignoresInMem m _ _ 3 _)
  | bref h l o => exact codedToken_ignoresInMem (backCopy_ignoresInMem m _ _ 2 _)
  | frame | blkRaw | blkLz | blkHuf | blkHufLz => rfl

theorem fetchSource_setInMem {s : State} {m : Mem} (h : s.SameSource m) {n a : Nat} (ha : s.srcPos.toNat ≤ a) :
    fetchSource n a (s.setInMem m) = fetchSource n a s := by
  unfold fetchSource
  rw [readSrcBytes_setInMem h ha]
  rfl

theorem fetchCoded_setInMem {s : State} {m : Mem} (h : s.SameSource m) :
    fetchCoded (s.setInMem m) = fetchCoded s := by
  unfold fetchCoded
  rw [show (s.setInMem m).srcPos = s.srcPos from rfl, readSrc_setInMem h (Nat.le_refl _)]
  simp only [fetchSource_setInMem h (Nat.le_succ _)]

theorem fetchLz_setInMem {s : State} {m : Mem} (h : s.SameSource m) : fetchLz (s.setInMem m) = fetchLz s := by
  unfold fetchLz
  rw [show (s.setInMem m).srcPos = s.srcPos from rfl, fetchSource_setInMem h (Nat.le_refl _), fetchCoded_setInMem h,
    readSrcBytes_setInMem h (Nat.le_refl _)]
  rfl

/-! The stage steps. -/

theorem lzStep_ignoresInMem {s : State} {m : Mem} (h : s.SameSource m) : IgnoresInMem m lzStep s := by
  exact ite_withInMem (fun _ => rfl) fun _ => andThen_withInMem (fetchLz_setInMem h) fun f _ =>
    withDecoded_withInMem fun i => execLzItem_ignoresInMem m i s

theorem rawStep_ignoresInMem {s : State} {m : Mem} (h : s.SameSource m) : IgnoresInMem m rawStep s :=
  withCapacity_withInMem (andThen_loop_withInMem (rawLoop_setInMem h (Nat.le_refl _)) fun _ => rfl)

/-- The HUFF step reads `payload[3:]` only (R171). -/
theorem huffStep_ignoresInMem {s : State} {m : Mem} (after : Stage) (h : s.AgreesBelow m (4 + s.paylen.toNat))
    (hlen : 3 ≤ s.paylen.toNat) : IgnoresInMem m (huffStep after) s := by
  have hread : readInBytes (s.setInMem m) 7 (s.paylen.toNat - 3) = readInBytes s 7 (s.paylen.toNat - 3) :=
    readInBytes_setInMem h (by omega) (by omega)
  refine andThen_withInMem hread fun enc _ => ?_
  dsimp only [State.setInMem]
  cases Config.huff enc s.prelz.toNat <;> rfl

theorem finishStep_ignoresInMem (m : Mem) (s : State) : IgnoresInMem m finishStep s := rfl

/-- The flag part of FRAME reads byte 4, and bytes 5 and 6 only where they lie in the frame (R120). -/
theorem frameFlags_ignoresInMem {s : State} {m : Mem} (h : s.AgreesBelow m (4 + s.paylen.toNat))
    (hlen : 1 ≤ s.paylen.toNat) : IgnoresInMem m frameFlags s := by
  have hflg : memRead .inMem 4 (s.setInMem m) = memRead .inMem 4 s := h.memRead (by decide) (by decide) (by omega)
  refine andThen_withInMem hflg fun flg _ =>
    ite_withInMem (fun _ => ite_withInMem (fun _ => rfl) fun hpre => ?_) fun _ => rfl
  have hpay : 3 ≤ s.paylen.toNat := Nat.le_of_not_lt hpre
  have hflags : { s with flags := flg }.AgreesBelow m (4 + s.paylen.toNat) := h
  exact andThen_withInMem (hflags.memRead (by decide) (by decide) (show 5 < 4 + s.paylen.toNat by omega)) fun p _ =>
    andThen_withInMem (hflags.memRead (by decide) (by decide) (show 6 < 4 + s.paylen.toNat by omega)) fun q _ => rfl

/-- `FRAME` reads below the end of the frame that its length bytes declare. -/
theorem execFrame_ignoresInMem {lo hi : Byte} (r0 r1 : Byte) {s : State} {m : Mem}
    (h : 4 ≤ s.inLen.toNat → s.AgreesBelow m (4 + (payloadLength lo hi).toNat)) :
    IgnoresInMem m (execFrame lo hi r0 r1) s := by
  refine ite_withInMem (fun _ => rfl) fun hlen => ite_withInMem (fun _ => rfl) fun _ =>
    ite_withInMem (fun _ => rfl) fun hpay => ?_
  exact frameFlags_ignoresInMem (s := { s with paylen := payloadLength lo hi }) (h (Nat.le_of_not_lt hlen))
    (Nat.one_le_iff_ne_zero.mpr fun hzero => hpay (BitVec.eq_of_toNat_eq hzero))

/-- The end of the frame: in stage FRAME as the length bytes of `IN_MEM` declare it, afterwards as `PAYLEN` holds it (R121). -/
def State.frameEnd (s : State) : Nat :=
  4 + (if s.stage = .frame then
    (payloadLength ((Mem.read s.inMem 0).getD 0) ((Mem.read s.inMem 1).getD 0)).toNat else s.paylen.toNat)

theorem State.frameEnd_of_ne_frame {s : State} (h : s.stage ≠ .frame) : s.frameEnd = 4 + s.paylen.toNat := by
  rw [State.frameEnd, if_neg h]

/-- The length bytes the fetch reads are those that declare the end of the frame. -/
theorem frameEnd_of_memRead {s : State} {lo hi : Byte} (hg : s.stage = .frame) (hlo : memRead .inMem 0 s = .ok lo)
    (hhi : memRead .inMem 1 s = .ok hi) : s.frameEnd = 4 + (payloadLength lo hi).toNat := by
  have hlo' : Mem.read s.inMem 0 = some lo := ((memRead_ok_iff ..).mp hlo).2
  have hhi' : Mem.read s.inMem 1 = some hi := ((memRead_ok_iff ..).mp hhi).2
  rw [State.frameEnd, if_pos hg, hlo', hhi']
  rfl

theorem fetchHeader_setInMem {s : State} {m : Mem} (h : s.AgreesBelow m s.frameEnd) :
    fetchHeader (s.setInMem m) = fetchHeader s := by
  have hend : 4 ≤ s.frameEnd := Nat.le_add_right 4 _
  unfold fetchHeader
  rw [h.memRead (a := 0) (by decide) (by decide) (by omega), h.memRead (a := 1) (by decide) (by decide) (by omega)]
  rfl

/-- What the fetch of a header hands over when `IN_LEN` says the header is there (R92, R120). -/
theorem fetchHeader_ok {s : State} {bytes : List Byte} (h : fetchHeader s = .ok bytes) :
    (s.inLen.toNat < 4 ∧ bytes = [0, 0, 0, 0]) ∨
      ∃ lo hi, memRead .inMem 0 s = .ok lo ∧ memRead .inMem 1 s = .ok hi ∧ bytes = [lo, hi, 0, 0] := by
  unfold fetchHeader at h
  split at h
  · cases h
    exact .inl ⟨‹_›, rfl⟩
  · split at h
    · cases h
    · split at h <;> cases h
      exact .inr ⟨_, _, ‹_›, ‹_›, rfl⟩

/-- The FRAME step reads bytes 0 and 1 and the payload they declare (R92, R121). -/
theorem frameTurn_ignoresInMem {s : State} {m : Mem} (hb : s.state = .busy) (hg : s.stage = .frame)
    (h : s.AgreesBelow m s.frameEnd) : IgnoresInMem m engineTurn s := by
  unfold IgnoresInMem
  rw [engineTurn_of_frame hb hg, engineTurn_of_frame (s := s.setInMem m) hb hg]
  refine andThen_withInMem (fetchHeader_setInMem h) fun bytes hbytes => ?_
  obtain ⟨hlen, rfl⟩ | ⟨lo, hi, hlo, hhi, rfl⟩ := fetchHeader_ok hbytes
  · exact execFrame_ignoresInMem 0 0 fun hlen' => absurd hlen (Nat.not_lt.mpr hlen')
  · exact execFrame_ignoresInMem 0 0 fun _ => frameEnd_of_memRead hg hlo hhi ▸ h

/-- After FRAME a source in `IN_MEM` is `payload[1:]`, past the reserved bytes and inside the frame (R126). -/
theorem State.Inv.sameSource {s : State} {m : Mem} (hinv : s.Inv) (hb : s.state = .busy) (hg : s.stage ≠ .frame)
    (h : s.AgreesBelow m (4 + s.paylen.toNat)) : s.SameSource m := by
  obtain ⟨hhuf, hplain⟩ := hinv.stage.source hb hg
  intro hsel a hlo hhi
  have hflag : flagHuf s.flags = false := by
    by_contra hset
    have hmid := (hhuf (by simpa using hset)).1
    rw [hsel] at hmid
    cases hmid
  obtain ⟨-, hend, hpos⟩ := hplain hflag
  exact h a (by omega) (by omega) (by omega)

/-- A turn of the engine ignores the bytes 2 and 3 of `IN_MEM` and those past the end of the frame, stage by stage. -/
theorem engineTurn_ignoresInMem {s : State} {m : Mem} (hinv : s.Inv) (h : s.AgreesBelow m s.frameEnd) :
    IgnoresInMem m engineTurn s := by
  by_cases hb : s.state = .busy
  case neg =>
    unfold IgnoresInMem
    rw [engineTurn_of_not_busy s hb]
    exact engineTurn_of_not_busy (s.setInMem m) hb
  by_cases hf : s.stage = .frame
  case pos => exact frameTurn_ignoresInMem hb hf h
  rw [State.frameEnd_of_ne_frame hf] at h
  have hsrc := hinv.sameSource hb hf h
  have hb' : (s.setInMem m).state = .busy := hb
  unfold IgnoresInMem
  cases hg : s.stage with
  | none => exact absurd hg (hinv.stage.some hb)
  | frame => exact absurd hg hf
  | huff =>
    rw [engineTurn_of_huff hb hg, engineTurn_of_huff hb' hg]
    exact huffStep_ignoresInMem _ h (hinv.stage.huff hb hg).2
  | lz =>
    rw [engineTurn_of_lz hb hg, engineTurn_of_lz hb' hg]
    exact lzStep_ignoresInMem hsrc
  | raw =>
    rw [engineTurn_of_raw hb hg, engineTurn_of_raw hb' hg]
    exact rawStep_ignoresInMem hsrc
  | finish =>
    rw [engineTurn_of_finish hb hg, engineTurn_of_finish hb' hg]
    exact finishStep_ignoresInMem m s

/-- Settles O53: with no host turn pending a step is a turn of the engine. -/
theorem unreadBytesHaveNoEffect : Obligations.UnreadBytesHaveNoEffect := by
  unfold Obligations.UnreadBytesHaveNoEffect
  intro s m hinv hturns hagree
  rw [step_of_no_turns s hturns, step_of_no_turns { s with inMem := m } hturns]
  exact engineTurn_ignoresInMem hinv hagree

end Sys2Proof.Machine
end

section
/-! PROOFS. What a turn of the engine can answer, said once: the moves of the engine, one for each end a stage step can
have, and that every answered turn is one of them. -/

namespace Sys2Proof.Machine

/-- `OUT_MEM` and `OUT_POS` replaced. -/
def State.withOutput (s : State) (mem : Mem) (pos : BitVec 32) : State := { s with outMem := mem, outPos := pos }

theorem State.OnlyOutput.eq_withOutput {s t : State} (h : s.OnlyOutput t) : t = s.withOutput t.outMem t.outPos := by
  unfold State.OnlyOutput at h
  rw [← h]
  rfl

/-- `mem` and `pos` are `OUT_MEM` and `OUT_POS` after `n` bytes that fit the capacity were emitted (R68, R69). -/
structure State.Emission (s : State) (n : Nat) (mem : Mem) (pos : BitVec 32) : Prop where
  fits : s.outPos.toNat + n ≤ s.ecap
  pos : pos.toNat = s.outPos.toNat + n
  kept : ∀ a, a < s.outPos.toNat ∨ s.outPos.toNat + n ≤ a → Mem.read mem a = Mem.read s.outMem a
  written : ∀ a, s.outPos.toNat ≤ a → a < s.outPos.toNat + n → (Mem.read mem a).isSome
  wf : Mem.wf s.outMem → Mem.wf mem
  entries : ∀ p ∈ mem, p ∈ s.outMem ∨ (s.outPos.toNat ≤ p.1 ∧ p.1 < s.outPos.toNat + n)

/-- A token decision touches nothing an emission speaks of. -/
theorem State.Emission.of_tokenDecision {s : State} {n : Nat} {mem : Mem} {pos : BitVec 32}
    (h : s.tokenDecision.Emission n mem pos) : s.Emission n mem pos :=
  ⟨h.fits, h.pos, h.kept, h.written, h.wf, h.entries⟩

/-- What a turn of the BUSY engine does when it answers. The raise stands for all eleven causes: before it, FRAME may have
written `PAYLEN` and `FLAGS`, a token may have consumed its control bit, and nothing else has changed (R152, R196). -/
inductive EngineMove (s : State) : State → Prop
  | raised {pl : BitVec 16} {flg : BitVec 8} {cw : BitVec 16} {cnt : BitVec 5} {cause : ErrCause}
      (hcause : cause ≠ .none) (hcnt : cnt.toNat ≤ s.cwCnt.toNat) :
      EngineMove s ({ s with paylen := pl, flags := flg, cw := cw, cwCnt := cnt }.errorEntry cause.kind cause)
  | enteredPlain {pl : BitVec 16} {flg : BitVec 8} (hstage : s.stage = .frame) (hpl : 1 ≤ pl.toNat)
      (hlen : 4 + pl.toNat ≤ s.inLen.toNat) (hflag : flagHuf flg = false) :
      EngineMove s { s with paylen := pl, flags := flg }.enterPlain
  | enteredHuffman {pl pre : BitVec 16} {flg : BitVec 8} (hstage : s.stage = .frame) (hpl : 3 ≤ pl.toNat)
      (hlen : 4 + pl.toNat ≤ s.inLen.toNat) (hflag : flagHuf flg = true) :
      EngineMove s ({ s with paylen := pl, flags := flg }.enterHuffman pre)
  | huffDecoded {m : List Byte} (hstage : s.stage = .huff) (hm : m.length = s.prelz.toNat) :
      EngineMove s { s with midMem := s.midMem.writeList 0 m, stage := if flagLz s.flags then .lz else .raw }
  | lzEnded (hstage : s.stage = .lz) (hend : s.srcPos = s.srcEnd) : EngineMove s (s.setStage .finish)
  | cwLoaded {w : BitVec 16} (hstage : s.stage = .lz) (hleft : s.srcPos.toNat + 2 ≤ s.srcEnd.toNat) :
      EngineMove s ({ s with cw := w, cwCnt := 16 }.advanceSrc 2)
  | tokenEmitted {n k : Nat} {mem : Mem} {pos : BitVec 32} (hstage : s.stage = .lz) (hk : 1 ≤ k ∧ k ≤ 3)
      (hleft : s.srcPos.toNat + k ≤ s.srcEnd.toNat) (hemit : s.Emission n mem pos) :
      EngineMove s ((s.tokenDecision.withOutput mem pos).advanceSrc k)
  | rawCopied {mem : Mem} {pos : BitVec 32} (hstage : s.stage = .raw) (hemit : s.Emission s.srcLeft mem pos) :
      EngineMove s { s.withOutput mem pos with srcPos := s.srcEnd, stage := .finish }
  | finished (hstage : s.stage = .finish) :
      EngineMove s { s with
        outLen := s.outPos, consumed := BitVec.ofNat 17 (4 + s.paylen.toNat), state := .done }

/-! Every raise is a move. -/

theorem engineMove_of_raise (s : State) {cause : ErrCause} (hcause : cause ≠ .none) :
    EngineMove s (s.errorEntry cause.kind cause) :=
  .raised (pl := s.paylen) (flg := s.flags) (cw := s.cw) hcause (Nat.le_refl _)

theorem engineMove_of_tokenRaise (s : State) {cause : ErrCause} (hcause : cause ≠ .none) :
    EngineMove s (s.tokenDecision.errorEntry cause.kind cause) :=
  .raised (pl := s.paylen) (flg := s.flags) hcause (by simp only [BitVec.toNat_ofNat]; omega)

theorem engineMove_of_frameRaise (s : State) (pl : BitVec 16) (flg : BitVec 8) {cause : ErrCause}
    (hcause : cause ≠ .none) :
    EngineMove s ({ s with paylen := pl, flags := flg }.errorEntry cause.kind cause) :=
  .raised (cw := s.cw) hcause (Nat.le_refl _)

/-! FRAME and HUFF. -/

/-- In stage FRAME the engine runs `FRAME` on the two length bytes, or on zeros where `IN_LEN` is below 4 (R120; log 21). -/
theorem frameTurn_next {s t : State} (hb : s.state = .busy) (hg : s.stage = .frame) (h : engineTurn s = .next t) :
    ∃ lo hi, execFrame lo hi 0 0 s = .next t := by
  rw [engineTurn_of_frame hb hg, andThen_next_iff] at h
  obtain ⟨bytes, hbytes, h⟩ := h
  obtain ⟨-, rfl⟩ | ⟨lo, hi, -, -, rfl⟩ := fetchHeader_ok hbytes
  · exact ⟨0, 0, h⟩
  · exact ⟨lo, hi, h⟩

/-- The flag part of FRAME, its header part having written `PAYLEN` (R120, R122, R123). -/
theorem frameFlags_engineMove {s t : State} {pl : BitVec 16} (hg : s.stage = .frame) (hpl : 1 ≤ pl.toNat)
    (hlen : 4 + pl.toNat ≤ s.inLen.toNat) (h : frameFlags { s with paylen := pl } = .next t) : EngineMove s t := by
  obtain ⟨flg, -, h⟩ := (andThen_next_iff ..).mp h
  cases hflag : flagHuf flg with
  | false =>
    simp only [hflag, Bool.false_eq_true, if_false, Host.Outcome.next.injEq] at h
    subst h
    exact .enteredPlain hg hpl hlen hflag
  | true =>
    simp only [hflag, if_true] at h
    obtain ⟨-, hr⟩ | ⟨hpl3, hr⟩ := huffmanHeader_cases { s with paylen := pl, flags := flg } _
    · cases hr.symm.trans h
      exact engineMove_of_frameRaise s pl flg (cause := .hufHdrTrunc) nofun
    · obtain ⟨p, -, h⟩ := (andThen_next_iff ..).mp (hr.symm.trans h)
      obtain ⟨q, -, h⟩ := (andThen_next_iff ..).mp h
      cases h
      exact .enteredHuffman hg hpl3 hlen hflag

theorem one_le_toNat_of_ne_zero {pl : BitVec 16} (h : pl ≠ 0) : 1 ≤ pl.toNat :=
  Nat.one_le_iff_ne_zero.mpr fun h0 => h (BitVec.eq_of_toNat_eq h0)

theorem execFrame_engineMove {s t : State} {lo hi r0 r1 : Byte} (hg : s.stage = .frame)
    (h : execFrame lo hi r0 r1 s = .next t) : EngineMove s t := by
  have hraise {cause : ErrCause} := engineMove_of_frameRaise s (payloadLength lo hi) s.flags (cause := cause)
  obtain ⟨-, hr⟩ | ⟨-, -, hr⟩ | ⟨-, -, hr⟩ | ⟨hlen, hpl, hr⟩ := frameHeader_cases lo hi s frameFlags
  · cases hr.symm.trans h
    exact engineMove_of_raise s (cause := .hdrTrunc) nofun
  · cases hr.symm.trans h
    exact hraise (cause := .payloadTrunc) nofun
  · cases hr.symm.trans h
    exact hraise (cause := .noFlags) nofun
  · exact frameFlags_engineMove hg (one_le_toNat_of_ne_zero hpl) hlen (hr.symm.trans h)

theorem huffStep_engineMove {s t : State} (hg : s.stage = .huff)
    (h : huffStep (if flagLz s.flags then .lz else .raw) s = .next t) : EngineMove s t := by
  obtain ⟨f, -, hr⟩ | ⟨enc, -, ⟨r, -, hr⟩ | ⟨m, -, hr⟩⟩ := huffStep_cases (if flagLz s.flags then .lz else .raw) s
  · cases hr.symm.trans h
  · cases hr.symm.trans h
    cases r
    · exact engineMove_of_raise s (cause := .hufInvalidCode) nofun
    · exact engineMove_of_raise s (cause := .hufIncompleteTable) nofun
    · exact engineMove_of_raise s (cause := .hufExhausted) nofun
  · cases hr.symm.trans h
    exact .huffDecoded hg m.property

/-! The loops emit. -/

/-- No emission within the capacity wraps `OUT_POS` (R69). -/
theorem State.no_wrap_of_fits {s : State} {n : Nat} (h : s.outPos.toNat + n ≤ s.ecap) : s.outPos.toNat + n < 2 ^ 32 :=
  Nat.lt_of_le_of_lt h s.ecap_le.2

theorem emission_of_emitRun {s : State} {n : Nat} (b : Byte) (h : s.outPos.toNat + n ≤ s.ecap) :
    s.Emission n (s.emitRun b n).outMem (s.emitRun b n).outPos := by
  have hw := State.no_wrap_of_fits h
  exact {
    fits := h
    pos := s.emitRun_outPos b n hw
    kept := fun a ha => by rw [State.emitRun_read b n s a hw, if_neg (by omega)]
    written := fun a h1 h2 => by rw [State.emitRun_read b n s a hw, if_pos ⟨h1, h2⟩]; rfl
    wf := State.emitRun_wf b n s
    entries := fun p hp => State.mem_emitRun b n s p hw hp }

theorem emission_of_copyLoop {s t : State} {offset n : Nat} (ho : 0 < offset) (hoff : offset ≤ s.outPos.toNat)
    (h : s.outPos.toNat + n ≤ s.ecap) (hc : copyLoop offset n s = .ok t) : s.Emission n t.outMem t.outPos := by
  obtain ⟨-, hpos, hkept, hcopied, hwf, hmem⟩ := copyLoop_spec offset ho n s t hoff (State.no_wrap_of_fits h) hc
  exact ⟨h, hpos, hkept, fun a h1 h2 => (hcopied a h1 h2).2, hwf, hmem⟩

theorem emission_of_rawLoop {s t : State} {a n : Nat} (h : s.outPos.toNat + n ≤ s.ecap)
    (hc : rawLoop a n s = .ok t) : s.Emission n t.outMem t.outPos := by
  obtain ⟨-, hpos, hkept, hcopied, hwf, hmem⟩ := rawLoop_spec n a s t (State.no_wrap_of_fits h) hc
  refine ⟨h, hpos, hkept, fun k h1 h2 => ?_, hwf, hmem⟩
  obtain ⟨b, -, hb⟩ := hcopied (k - s.outPos.toNat) (by omega)
  rw [show s.outPos.toNat + (k - s.outPos.toNat) = k by omega] at hb
  exact Option.isSome_of_eq_some hb

/-! Stage LZ. -/

theorem runToken_engineMove {s t : State} {n k : Nat} {b : Byte} (hg : s.stage = .lz) (hk : 1 ≤ k ∧ k ≤ 3)
    (hleft : s.srcPos.toNat + k ≤ s.srcEnd.toNat) (h : runToken n b k s.tokenDecision = .next t) : EngineMove s t := by
  obtain ⟨hfits, hr⟩ | ⟨-, hr⟩ := runToken_cases n b k s.tokenDecision
  · cases hr.symm.trans h
    rw [(State.emitRun_onlyOutput b n s.tokenDecision).eq_withOutput]
    exact .tokenEmitted hg hk hleft (emission_of_emitRun b hfits).of_tokenDecision
  · cases hr.symm.trans h
    exact engineMove_of_tokenRaise s (cause := .capacity) nofun

theorem backCopy_engineMove {s t : State} {offset n k : Nat} (hg : s.stage = .lz) (ho : 0 < offset)
    (hk : 1 ≤ k ∧ k ≤ 3) (hleft : s.srcPos.toNat + k ≤ s.srcEnd.toNat)
    (h : backCopy offset n k s.tokenDecision = .next t) : EngineMove s t := by
  obtain ⟨-, hr⟩ | ⟨-, -, hr⟩ | ⟨hoff, hfits, ⟨u, hu, hr⟩ | ⟨f, -, hr⟩⟩ := backCopy_cases offset n k s.tokenDecision
  · cases hr.symm.trans h
    exact engineMove_of_tokenRaise s (cause := .brefRange) nofun
  · cases hr.symm.trans h
    exact engineMove_of_tokenRaise s (cause := .capacity) nofun
  · cases hr.symm.trans h
    rw [(copyLoop_spec offset ho n _ u hoff (State.no_wrap_of_fits hfits) hu).1.eq_withOutput]
    exact .tokenEmitted hg hk hleft (emission_of_copyLoop ho hoff hfits hu).of_tokenDecision
  · cases hr.symm.trans h

theorem codedToken_engineMove {s t : State} {k : Nat} {body : State → Result} (hk : 1 ≤ k)
    (hbody : s.srcPos.toNat + k ≤ s.srcEnd.toNat → body s.tokenDecision = .next t → EngineMove s t)
    (h : codedToken k s body = .next t) : EngineMove s t := by
  obtain ⟨-, hr⟩ | ⟨hleft, hr⟩ := codedToken_cases k s body
  · cases hr.symm.trans h
    exact engineMove_of_tokenRaise s (cause := .tokenTrunc) nofun
  · refine hbody ?_ (hr.symm.trans h)
    unfold State.srcLeft at hleft
    omega

/-- An item of the stream is a move; a literal checks nothing of its source, so its byte must lie below `SRC_END`. -/
theorem execLzItem_engineMove {s t : State} {i : Instr} (hg : s.stage = .lz)
    (hlit : i.context = .token false → s.srcPos.toNat < s.srcEnd.toNat) (h : execLzItem i s = .next t) :
    EngineMove s t := by
  cases i with
  | cwload b0 b1 =>
    simp only [execLzItem, execCwload] at h
    split at h
    · cases h
      exact engineMove_of_raise s (cause := .cwTrunc) nofun
    · cases h
      refine .cwLoaded hg ?_
      unfold State.srcLeft at *
      omega
  | lit b => exact runToken_engineMove hg (by decide) (hlit rfl) h
  | srun l b => exact codedToken_engineMove (by decide) (runToken_engineMove hg (by decide)) h
  | lrun l n1 b => exact codedToken_engineMove (by decide) (runToken_engineMove hg (by decide)) h
  | brefx l o n =>
    exact codedToken_engineMove (by decide) (backCopy_engineMove hg (Nat.succ_pos _) (by decide)) h
  | bref hi l o =>
    exact codedToken_engineMove (by decide) (backCopy_engineMove hg (Nat.succ_pos _) (by decide)) h
  | frame | blkRaw | blkLz | blkHuf | blkHufLz => cases h

/-- The fetch of a literal reads the byte at the cursor, which lies below `SRC_END` (R66, R140). -/
theorem fetchLz_literal {s : State} {f : Fetched} (h : fetchLz s = .ok f) (hctx : f.1 = .token false) :
    s.srcPos.toNat < s.srcEnd.toNat := by
  unfold fetchLz at h
  split at h
  · cases hr : fetchSource 2 s.srcPos.toNat s <;> rw [hr] at h <;> cases h
    cases hctx
  · split at h
    · cases hr : fetchCoded s <;> rw [hr] at h <;> cases h
      cases hctx
    · cases hr : readSrcBytes s s.srcPos.toNat 1 <;> rw [hr] at h <;> cases h
      obtain ⟨hl, hread⟩ := (readSrcBytes_ok_iff ..).mp hr
      exact ((readSrc_ok_iff ..).mp (hread 0 (by omega))).1

theorem withDecoded_next {f : Fetched} {k : Instr → Result} {t : State} (h : withDecoded f k = .next t) :
    ∃ i, i.context = f.1 ∧ k i = .next t := by
  unfold withDecoded at h
  split at h
  · exact ⟨_, decode_context ‹_›, h⟩
  · cases h

theorem lzStep_engineMove {s t : State} (hg : s.stage = .lz) (h : lzStep s = .next t) : EngineMove s t := by
  unfold lzStep at h
  split at h
  · cases h
    exact .lzEnded hg ‹_›
  · obtain ⟨f, hf, h⟩ := (andThen_next_iff ..).mp h
    obtain ⟨i, hi, h⟩ := withDecoded_next h
    exact execLzItem_engineMove hg (fun hlit => fetchLz_literal hf (hi.symm.trans hlit)) h

/-! RAW and FINISH. -/

theorem rawStep_engineMove {s t : State} (hg : s.stage = .raw) (h : rawStep s = .next t) : EngineMove s t := by
  obtain ⟨-, hr⟩ | ⟨hfits, ⟨u, hu, hr⟩ | ⟨f, -, hr⟩⟩ := rawStep_cases s
  · cases hr.symm.trans h
    exact engineMove_of_raise s (cause := .capacity) nofun
  · cases hr.symm.trans h
    rw [(rawLoop_spec _ _ s u (State.no_wrap_of_fits hfits) hu).1.eq_withOutput]
    exact .rawCopied hg (emission_of_rawLoop hfits hu)
  · cases hr.symm.trans h

/-- Every turn of the BUSY engine that answers is one of the engine's moves. -/
theorem engineTurn_engineMove {s t : State} (hb : s.state = .busy) (h : engineTurn s = .next t) : EngineMove s t := by
  cases hg : s.stage with
  | none =>
    rw [engineTurn_of_busy s hb, fetch, hg] at h
    cases h
  | frame =>
    obtain ⟨lo, hi, h⟩ := frameTurn_next hb hg h
    exact execFrame_engineMove hg h
  | huff => exact huffStep_engineMove hg (engineTurn_of_huff hb hg ▸ h)
  | lz => exact lzStep_engineMove hg (engineTurn_of_lz hb hg ▸ h)
  | raw => exact rawStep_engineMove hg (engineTurn_of_raw hb hg ▸ h)
  | finish =>
    rw [engineTurn_of_finish hb hg] at h
    cases h
    exact .finished hg

end Sys2Proof.Machine
end

section
/-! PROOFS. What a move of the host can do, said once, and that every step keeps the invariant of the machine. -/

namespace Sys2Proof.Machine

/-- What a move of the host does (R38, R39, R46, R47, R79, R210). A move that changes nothing is an answer that leaves the
port as it was. -/
inductive HostEffect (s : State) : State → Prop
  | started (hb : s.state ≠ .busy) : HostEffect s (s.initRun .frame .busy)
  | cleared (hb : s.state ≠ .busy) : HostEffect s (s.initRun .none .idle)
  | inLenWritten {v : BitVec 32} (hb : s.state ≠ .busy) : HostEffect s { s with inLen := v }
  | outCapWritten {v : BitVec 32} (hb : s.state ≠ .busy) : HostEffect s { s with outCap := v }
  | inMemWritten {a : Nat} {b : Byte} (hb : s.state ≠ .busy) (ha : a < Config.inMemBytes) :
      HostEffect s { s with inMem := s.inMem.write a b }
  | answered {v : BitVec 32} {i : Nat} : HostEffect s { s with portData := v, freeIdx := i }
  | resetDone : HostEffect s s.resetEvent

theorem hostEffect_refl (s : State) : HostEffect s s := .answered (v := s.portData) (i := s.freeIdx)

theorem writeCtrl_hostEffect (s : State) (v : BitVec 32) : HostEffect s (s.writeCtrl v) := by
  unfold State.writeCtrl
  split
  · exact hostEffect_refl s
  · split
    · exact .started ‹_›
    · split
      · exact .cleared ‹_›
      · exact hostEffect_refl s

theorem writeReg_hostEffect (s : State) (n : Nat) (v : BitVec 32) : HostEffect s (s.writeReg n v) := by
  unfold State.writeReg
  split
  · exact writeCtrl_hostEffect s v
  · split
    · exact hostEffect_refl s
    · exact .inLenWritten ‹_›
  · split
    · exact hostEffect_refl s
    · exact .outCapWritten ‹_›
  · exact hostEffect_refl s

/-- A read of a register changes the port's answer and the count of free values at most (R67). -/
theorem readReg_answers (s : State) (n : Nat) : ∃ v i, s.readReg n = { s with portData := v, freeIdx := i } := by
  have hresult (w : Nat) (v : BitVec 32) : ∃ v' i, s.answerResult w v = { s with portData := v', freeIdx := i } := by
    unfold State.answerResult
    split
    · exact ⟨_, _, rfl⟩
    · exact ⟨_, _, rfl⟩
  unfold State.readReg
  split
  case h_4 | h_5 | h_6 | h_7 | h_8 => exact hresult _ _
  all_goals exact ⟨_, _, rfl⟩

/-- A read of the window changes the port's answer and the count of free values at most (R67). -/
theorem readOut_answers (s : State) (a : Nat) : ∃ v i, s.readOut a = { s with portData := v, freeIdx := i } := by
  unfold State.readOut
  split
  · split
    · exact ⟨_, _, rfl⟩
    · exact ⟨_, _, rfl⟩
  · exact ⟨_, _, rfl⟩

theorem writeIn_hostEffect (s : State) (a : Nat) (b : Byte) : HostEffect s (s.writeIn a b) := by
  unfold State.writeIn
  split
  · exact hostEffect_refl s
  · rename_i h
    obtain ⟨hb, ha⟩ := not_or.mp h
    exact .inMemWritten hb (Nat.lt_of_not_le ha)

theorem hostMove_hostEffect (m : HostMove) (s : State) : HostEffect s (hostMove m s) := by
  cases m with
  | writeReg n v => exact writeReg_hostEffect s n v
  | readReg n =>
    obtain ⟨v, i, h⟩ := readReg_answers s n
    rw [hostMove, h]
    exact .answered
  | writeIn a b => exact writeIn_hostEffect s a b
  | readOut a =>
    obtain ⟨v, i, h⟩ := readOut_answers s a
    rw [hostMove, h]
    exact .answered
  | reset => exact .resetDone

/-- What no change of the host's pending turns, no effect of a host move and no move of the engine breaks, no step breaks. -/
theorem step_keeps {P : State → Prop} (hturns : ∀ s rest, P s → P { s with hostTurns := rest })
    (hhost : ∀ s t, P s → HostEffect s t → P t) (hengine : ∀ s t, P s → s.state = .busy → EngineMove s t → P t)
    {s t : State} (hp : P s) (h : step s = .next t) : P t := by
  have hturn : ∀ u, P u → engineTurn u = .next t → P t := by
    intro u hu hnext
    by_cases hb : u.state = .busy
    · exact hengine u t hu hb (engineTurn_engineMove hb hnext)
    · cases (engineTurn_of_not_busy u hb).symm.trans hnext
      exact hu
  cases hs : s.hostTurns with
  | nil => exact hturn s hp (step_of_no_turns s hs ▸ h)
  | cons turn rest =>
    cases turn with
    | pass => exact hturn _ (hturns s rest hp) (step_of_pass hs ▸ h)
    | move m =>
      cases (step_of_move hs).symm.trans h
      exact hhost _ _ (hturns s rest hp) (hostMove_hostEffect m _)

/-! Memories. -/

theorem Mem.range_write {m : Mem} {n a : Nat} {b : Byte} (h : ∀ p ∈ m, p.1 < n) (ha : a < n) :
    ∀ p ∈ m.write a b, p.1 < n := by
  intro p hp
  obtain hp | rfl := Mem.mem_write hp
  · exact h p hp
  · exact ha

theorem HostEffect.keeps_memOk {s t : State} (he : HostEffect s t) (h : s.MemOk) : t.MemOk := by
  cases he with
  | inMemWritten hb ha => exact { h with inWf := Mem.write_wf h.inWf _ _, inRange := Mem.range_write h.inRange ha }
  | resetDone =>
    obtain ⟨hin, hmid, hout⟩ := Mem.reset_wf
    exact ⟨hin, hmid, hout, nofun, nofun, nofun⟩
  | started | cleared | inLenWritten | outCapWritten | answered => exact { h with }

/-- An emission stays inside `OUT_MEM` (R69). -/
theorem State.Emission.memOk {s : State} {n : Nat} {mem : Mem} {pos : BitVec 32} (he : s.Emission n mem pos)
    (h : s.MemOk) : (s.withOutput mem pos).MemOk :=
  { h with
    outWf := he.wf h.outWf
    outRange := fun p hp => by
      have hcap := s.ecap_le.1
      have hfits := he.fits
      obtain hp | ⟨-, hp⟩ := he.entries p hp
      · exact h.outRange p hp
      · show p.1 < s.params.outMemBytes
        omega }

theorem EngineMove.keeps_memOk {s t : State} (hm : EngineMove s t) (h : s.MemOk) : t.MemOk := by
  cases hm with
  | @huffDecoded m hstage hlen =>
    refine { h with midWf := Mem.writeList_wf m 0 h.midWf, midRange := fun p hp => ?_ }
    obtain hp | ⟨-, hp⟩ := Mem.mem_writeList m hp
    · exact h.midRange p hp
    · have := s.prelz.isLt
      show p.1 < 65535
      omega
  | tokenEmitted _ _ _ hemit => exact { hemit.memOk h with }
  | rawCopied _ hemit => exact { hemit.memOk h with }
  | raised | enteredPlain | enteredHuffman | lzEnded | cwLoaded | finished => exact { h with }

/-! Cursors. -/

theorem HostEffect.keeps_cursorOk {s t : State} (he : HostEffect s t) (h : s.CursorOk) : t.CursorOk := by
  cases he with
  | started => exact ⟨Nat.le_refl 0, Nat.zero_le _, Nat.zero_le _, Nat.zero_le _, fun _ => Nat.zero_le _⟩
  | cleared => exact ⟨Nat.le_refl 0, Nat.zero_le _, Nat.zero_le _, Nat.zero_le _, nofun⟩
  | resetDone => exact ⟨Nat.le_refl 0, Nat.zero_le _, Nat.zero_le _, Nat.zero_le _, nofun⟩
  | outCapWritten hb => exact { h with outCap := fun hb' => absurd hb' hb }
  | inLenWritten | inMemWritten | answered => exact { h with }

/-- An emission leaves `OUT_POS` inside the capacity (R28). -/
theorem State.Emission.cursorOk {s : State} {n : Nat} {mem : Mem} {pos : BitVec 32} (he : s.Emission n mem pos)
    (h : s.CursorOk) : (s.withOutput mem pos).CursorOk := by
  have hpos : pos.toNat ≤ s.ecap := he.pos ▸ he.fits
  exact { h with outMem := Nat.le_trans hpos s.ecap_le.1, outCap := fun _ => hpos }

/-- Moving the source cursor by bytes that lie below `SRC_END` keeps it in range (R24). -/
theorem State.CursorOk.advanceSrc {s : State} {k : Nat} (h : s.CursorOk) (hleft : s.srcPos.toNat + k ≤ s.srcEnd.toNat) :
    (s.advanceSrc k).CursorOk :=
  { h with src := (s.advanceSrc_toNat k hleft).symm ▸ hleft }

theorem State.CursorOk.tokenDecision {s : State} (h : s.CursorOk) : s.tokenDecision.CursorOk :=
  { h with
    cwCnt := by
      have := h.cwCnt
      simp only [State.tokenDecision_cwCnt, BitVec.toNat_ofNat]
      omega }

theorem toNat_ofNat_payloadEnd (pl : BitVec 16) : (BitVec.ofNat 17 (4 + pl.toNat)).toNat = 4 + pl.toNat :=
  Nat.mod_eq_of_lt (by have := pl.isLt; omega)

theorem EngineMove.keeps_cursorOk {s t : State} (hm : EngineMove s t) (h : s.CursorOk) : t.CursorOk := by
  cases hm with
  | raised _ hcnt => exact { h with cwCnt := Nat.le_trans hcnt h.cwCnt, outCap := nofun }
  | @enteredPlain pl flg _ hpl =>
    have hend := toNat_ofNat_payloadEnd pl
    have hlt := pl.isLt
    exact { h with
      src := show 5 ≤ (BitVec.ofNat 17 (4 + pl.toNat)).toNat by omega
      srcEnd := show (BitVec.ofNat 17 (4 + pl.toNat)).toNat ≤ 65539 by omega }
  | @enteredHuffman pl pre flg =>
    have hend : (pre.setWidth 17).toNat = pre.toNat := BitVec.toNat_setWidth_of_le (by decide)
    have hlt := pre.isLt
    exact { h with src := Nat.zero_le _, srcEnd := show (pre.setWidth 17).toNat ≤ 65535 by omega }
  | huffDecoded | lzEnded => exact { h with }
  | cwLoaded _ hleft =>
    have hcw : ∀ w, { s with cw := w, cwCnt := 16 }.CursorOk := fun w => { h with cwCnt := Nat.le_refl 16 }
    exact (hcw _).advanceSrc hleft
  | @tokenEmitted n k mem pos _ _ hleft hemit =>
    have hout : (s.tokenDecision.withOutput mem pos).CursorOk := { hemit.cursorOk h with cwCnt := h.tokenDecision.cwCnt }
    exact hout.advanceSrc hleft
  | rawCopied _ hemit => exact { hemit.cursorOk h with src := Nat.le_refl _ }
  | finished => exact { h with outCap := nofun }

/-! Errors and results. -/

theorem HostEffect.keeps_errorOk {s t : State} (he : HostEffect s t) (h : s.ErrorOk) : t.ErrorOk := by
  cases he with
  | started | cleared | resetDone => exact ⟨by simp [State.resetEvent, State.reset], rfl⟩
  | inLenWritten | outCapWritten | inMemWritten | answered => exact { h with }

/-- A BUSY machine has no cause of error (R30). -/
theorem State.ErrorOk.cause_eq_none {s : State} (h : s.ErrorOk) (hb : s.state = .busy) : s.errCause = .none := by
  by_contra hne
  have := h.cause.mp hne
  rw [hb] at this
  cases this

theorem EngineMove.keeps_errorOk {s t : State} (hm : EngineMove s t) (hb : s.state = .busy) (h : s.ErrorOk) :
    t.ErrorOk := by
  cases hm with
  | raised hcause => exact ⟨iff_of_true hcause rfl, rfl⟩
  | finished => exact ⟨iff_of_false (fun hne => hne (h.cause_eq_none hb)) nofun, h.kind⟩
  | enteredPlain | enteredHuffman | huffDecoded | lzEnded | cwLoaded | tokenEmitted | rawCopied => exact { h with }

/-- `OUT_LEN` and `CONSUMED` are 0 in every state but `DONE` (R33, R34). -/
def State.ResultsHidden (s : State) : Prop := s.state ≠ .done → s.outLen = 0 ∧ s.consumed = 0

theorem HostEffect.keeps_resultsHidden {s t : State} (he : HostEffect s t) (h : s.ResultsHidden) : t.ResultsHidden := by
  cases he with
  | started | cleared | resetDone => exact fun _ => ⟨rfl, rfl⟩
  | inLenWritten | outCapWritten | inMemWritten | answered => exact h

theorem EngineMove.keeps_resultsHidden {s t : State} (hm : EngineMove s t) (h : s.ResultsHidden) :
    t.ResultsHidden := by
  cases hm with
  | raised => exact fun _ => ⟨rfl, rfl⟩
  | finished => exact fun hne => absurd rfl hne
  | enteredPlain | enteredHuffman | huffDecoded | lzEnded | cwLoaded | tokenEmitted | rawCopied => exact h

theorem HostEffect.keeps_resultOk {s t : State} (he : HostEffect s t) (h : s.ResultOk) : t.ResultOk := by
  refine ⟨he.keeps_resultsHidden h.notDone, ?_⟩
  cases he with
  | started | cleared | resetDone => nofun
  | inLenWritten | outCapWritten | inMemWritten | answered => exact h.done

theorem EngineMove.keeps_resultOk {s t : State} (hm : EngineMove s t) (h : s.ResultOk) (hb : s.state = .busy) :
    t.ResultOk := by
  refine ⟨hm.keeps_resultsHidden h.notDone, ?_⟩
  have hdone : s.state ≠ .done := by rw [hb]; nofun
  cases hm with
  | raised => nofun
  | finished => exact fun _ => ⟨rfl, toNat_ofNat_payloadEnd s.paylen⟩
  | enteredPlain | enteredHuffman | huffDecoded | lzEnded | cwLoaded | tokenEmitted | rawCopied =>
    exact fun h' => absurd h' hdone

/-! Written bytes. -/

theorem HostEffect.keeps_bytesOk {s t : State} (he : HostEffect s t) (h : s.BytesOk) : t.BytesOk := by
  cases he with
  | started | cleared | resetDone => exact ⟨nofun, nofun⟩
  | inLenWritten | outCapWritten | inMemWritten | answered => exact { h with }

/-- After an emission every byte below the new `OUT_POS` is written (R70). -/
theorem State.Emission.outWritten {s : State} {n : Nat} {mem : Mem} {pos : BitVec 32} (he : s.Emission n mem pos)
    (h : s.OutWritten) : (s.withOutput mem pos).OutWritten := by
  intro a ha
  have hpos := he.pos
  by_cases hold : a < s.outPos.toNat
  · show (Mem.read mem a).isSome
    rw [he.kept a (.inl hold)]
    exact h a hold
  · exact he.written a (by omega) (by change a < pos.toNat at ha; omega)

/-- The HUFF stage writes every byte of the source it sets up (R172). -/
theorem Mem.isSome_read_writeList {m : Mem} {bs : List Byte} {a : Nat} (h : a < bs.length) :
    (Mem.read (m.writeList 0 bs) a).isSome := by
  rw [Mem.read_writeList, if_pos (by omega)]
  simpa using h

theorem EngineMove.keeps_bytesOk {s t : State} (hm : EngineMove s t) (hb : s.state = .busy) (hstg : s.StageOk)
    (h : s.BytesOk) : t.BytesOk := by
  cases hm with
  | raised | enteredPlain | enteredHuffman | lzEnded | finished => exact ⟨h.out, by simp⟩
  | huffDecoded hstage hlen =>
    have hflag := (hstg.huff hb hstage).1
    have hend := ((hstg.source hb (by rw [hstage]; nofun)).1 hflag).2
    exact ⟨h.out, fun _ _ _ a ha => Mem.isSome_read_writeList (by rw [hlen, ← hend]; exact ha)⟩
  | cwLoaded => exact { h with }
  | tokenEmitted _ _ _ hemit => exact ⟨hemit.outWritten h.out, h.mid⟩
  | rawCopied _ hemit => exact ⟨hemit.outWritten h.out, by simp⟩

/-! Stage, flags and source. -/

theorem State.StageOk.of_not_busy {s : State} (h : s.state ≠ .busy) : s.StageOk := by
  constructor <;> exact fun hb => absurd hb h

theorem HostEffect.keeps_stageOk {s t : State} (he : HostEffect s t) (h : s.StageOk) : t.StageOk := by
  cases he with
  | started => constructor <;> simp
  | cleared | resetDone => exact .of_not_busy nofun
  | inLenWritten hb | outCapWritten hb | inMemWritten hb => exact .of_not_busy hb
  | answered => exact { h with }

/-- The source that the Huffman bit selects: the bytes the HUFF stage writes to `MID_MEM`, or `payload[1:]` in `IN_MEM` (R126). -/
def State.SourceSelected (s : State) : Prop :=
  (flagHuf s.flags = true → s.srcSel = .midMem ∧ s.srcEnd.toNat = s.prelz.toNat) ∧
  (flagHuf s.flags = false → s.srcSel = .inMem ∧ s.srcEnd.toNat = 4 + s.paylen.toNat ∧ 5 ≤ s.srcPos.toNat)

/-- On entry to the stage that the LZ bit selects (R123). -/
theorem State.StageOk.of_selected {s : State} (hstage : s.stage = if flagLz s.flags then .lz else .raw)
    (hout : s.outPos = 0) (hlen : 4 + s.paylen.toNat ≤ s.inLen.toNat) (hsrc : s.SourceSelected) : s.StageOk := by
  cases hlz : flagLz s.flags <;> rw [hlz] at hstage <;>
    exact ⟨by simp [hstage], by simp [hstage], by simp [hstage], by simp [hstage, hlz, hout], by simp [hstage, hlz],
      fun _ _ => hlen, fun _ _ => hsrc⟩

theorem State.StageOk.of_finish {s : State} (hstage : s.stage = .finish) (hlen : 4 + s.paylen.toNat ≤ s.inLen.toNat)
    (hsrc : s.SourceSelected) : s.StageOk :=
  ⟨by simp [hstage], by simp [hstage], by simp [hstage], by simp [hstage], by simp [hstage], fun _ _ => hlen,
    fun _ _ => hsrc⟩

/-- Inside stage LZ, control bits, output and a cursor moved forward leave the stage and its source in accord. -/
theorem State.StageOk.advanceLz {s : State} {cw : BitVec 16} {cnt : BitVec 5} {mem : Mem} {pos : BitVec 32} {k : Nat}
    (h : s.StageOk) (hb : s.state = .busy) (hstage : s.stage = .lz) (hleft : s.srcPos.toNat + k ≤ s.srcEnd.toNat) :
    (({ s with cw := cw, cwCnt := cnt }.withOutput mem pos).advanceSrc k).StageOk := by
  have hne : s.stage ≠ .frame := by rw [hstage]; nofun
  obtain ⟨hhuf, hplain⟩ := h.source hb hne
  have hpos := s.advanceSrc_toNat k hleft
  refine {
    some := h.some
    start := fun _ hg => by simp [State.withOutput, hstage] at hg
    huff := h.huff
    raw := fun _ hg => by simp [State.withOutput, hstage] at hg
    lz := h.lz
    frameLen := h.frameLen
    source := fun _ _ => ⟨hhuf, fun hclear => ?_⟩ }
  obtain ⟨hsel, hend, hle⟩ := hplain hclear
  exact ⟨hsel, hend, Nat.le_trans hle (Nat.le_trans (Nat.le_add_right _ k) (Nat.le_of_eq hpos.symm))⟩

theorem EngineMove.keeps_stageOk {s t : State} (hm : EngineMove s t) (hb : s.state = .busy) (hcur : s.CursorOk)
    (h : s.StageOk) : t.StageOk := by
  cases hm with
  | raised | finished => exact .of_not_busy nofun
  | @enteredPlain pl flg hstage _ hlen hflag =>
    refine .of_selected rfl (h.start hb (.inl hstage)).1 hlen ⟨fun hset => ?_, fun _ => ⟨rfl, ?_, Nat.le_refl 5⟩⟩
    · cases hflag.symm.trans hset
    · exact toNat_ofNat_payloadEnd pl
  | @enteredHuffman pl pre flg hstage hpl hlen hflag =>
    refine ⟨nofun, fun _ _ => h.start hb (.inl hstage), fun _ _ => ⟨hflag, hpl⟩, nofun, nofun, fun _ _ => hlen,
      fun _ _ => ⟨fun _ => ⟨rfl, ?_⟩, fun hclear => ?_⟩⟩
    · exact BitVec.toNat_setWidth_of_le (by decide)
    · cases hflag.symm.trans hclear
  | huffDecoded hstage =>
    have hne : s.stage ≠ .frame := by rw [hstage]; nofun
    exact .of_selected rfl (h.start hb (.inr hstage)).1 (h.frameLen hb hne) (h.source hb hne)
  | lzEnded hstage =>
    have hne : s.stage ≠ .frame := by rw [hstage]; nofun
    exact .of_finish rfl (h.frameLen hb hne) (h.source hb hne)
  | @cwLoaded w hstage hleft =>
    exact h.advanceLz (cw := w) (cnt := 16) (mem := s.outMem) (pos := s.outPos) hb hstage hleft
  | tokenEmitted hstage _ hleft => exact h.advanceLz hb hstage hleft
  | rawCopied hstage =>
    have hne : s.stage ≠ .frame := by rw [hstage]; nofun
    obtain ⟨hhuf, hplain⟩ := h.source hb hne
    refine .of_finish rfl (h.frameLen hb hne) ⟨hhuf, fun hclear => ?_⟩
    obtain ⟨hsel, hend, hpos⟩ := hplain hclear
    exact ⟨hsel, hend, Nat.le_trans hpos hcur.src⟩

/-! The invariant. -/

theorem HostEffect.params_eq {s t : State} (he : HostEffect s t) : t.params = s.params := by
  cases he <;> rfl

theorem EngineMove.params_eq {s t : State} (hm : EngineMove s t) : t.params = s.params := by
  cases hm <;> rfl

theorem HostEffect.keeps_inv {s t : State} (he : HostEffect s t) (h : s.Inv) : t.Inv where
  outMemBytes := he.params_eq ▸ h.outMemBytes
  mem := he.keeps_memOk h.mem
  cursor := he.keeps_cursorOk h.cursor
  err := he.keeps_errorOk h.err
  result := he.keeps_resultOk h.result
  bytes := he.keeps_bytesOk h.bytes
  stage := he.keeps_stageOk h.stage

theorem EngineMove.keeps_inv {s t : State} (hm : EngineMove s t) (hb : s.state = .busy) (h : s.Inv) : t.Inv where
  outMemBytes := hm.params_eq ▸ h.outMemBytes
  mem := hm.keeps_memOk h.mem
  cursor := hm.keeps_cursorOk h.cursor
  err := hm.keeps_errorOk hb h.err
  result := hm.keeps_resultOk h.result hb
  bytes := hm.keeps_bytesOk hb h.stage h.bytes
  stage := hm.keeps_stageOk hb h.cursor h.stage

/-- Taking a turn off the host's list touches nothing the invariant speaks of. -/
theorem State.Inv.of_hostTurns {s : State} (h : s.Inv) (rest : List HostTurn) : { s with hostTurns := rest }.Inv where
  outMemBytes := h.outMemBytes
  mem := { h.mem with }
  cursor := { h.cursor with }
  err := { h.err with }
  result := { h.result with }
  bytes := { h.bytes with }
  stage := { h.stage with }

/-- Settles O49: the host's effects and the engine's moves keep the invariant, one part after the other. -/
theorem stepKeepsInvariant : Obligations.StepKeepsInvariant := by
  unfold Obligations.StepKeepsInvariant
  intro s t hinv hstep
  exact step_keeps (P := State.Inv) (fun _ rest h => h.of_hostTurns rest) (fun _ _ h he => he.keeps_inv h)
    (fun _ _ h hb hm => hm.keeps_inv hb h) hinv hstep

/-- Settles O47: among the engine's moves only a raise writes the codes, and it enters `ERROR`. -/
theorem stepKeepsErrorCodes : Obligations.StepKeepsErrorCodes := by
  unfold Obligations.StepKeepsErrorCodes
  intro s t herr hstep
  exact step_keeps (P := State.ErrorOk) (fun _ _ h => { h with }) (fun _ _ h he => he.keeps_errorOk h)
    (fun _ _ h hb hm => hm.keeps_errorOk hb h) herr hstep

/-- Settles O48: a raise clears both registers, and FINISH, which writes them, enters `DONE`. -/
theorem stepKeepsResultsHidden : Obligations.StepKeepsResultsHidden := by
  unfold Obligations.StepKeepsResultsHidden
  intro s t hres hstep
  exact step_keeps (P := State.ResultsHidden) (fun _ _ h => h) (fun _ _ h he => he.keeps_resultsHidden h)
    (fun _ _ h _ hm => hm.keeps_resultsHidden h) hres hstep

end Sys2Proof.Machine
end

section
/-! PROOFS. Under the invariant and the host's loading duty every read of the engine has its byte, so every turn answers. -/

namespace Sys2Proof.Machine

/-- The outcome is a next state. -/
def Answers (r : Result) : Prop := ∃ t, r = .next t

theorem answers_next (t : State) : Answers (.next t) := ⟨t, rfl⟩

theorem answers_andThen {α : Type} {r : Except Fault α} {k : α → Result} (hr : ∃ v, r = .ok v)
    (hk : ∀ v, r = .ok v → Answers (k v)) : Answers (andThen r k) := by
  obtain ⟨v, rfl⟩ := hr
  exact hk v rfl

/-! The reads. -/

theorem memRead_answers {s : State} {sp : Space} {a : Nat} (ha : a < s.spaceSize sp)
    (h : ((s.memory sp).read a).isSome) : ∃ b, memRead sp a s = .ok b := by
  obtain ⟨b, hb⟩ := Option.isSome_iff_exists.mp h
  exact ⟨b, (memRead_ok_iff sp a s b).mpr ⟨ha, hb⟩⟩

/-- Every byte of `IN_MEM` that `IN_LEN` counts can be read (R48, R213). -/
theorem State.Loaded.memRead_answers {s : State} (hl : s.Loaded) {a : Nat} (ha : a < s.inLen.toNat)
    (hr : a < Config.inMemBytes) : ∃ b, memRead .inMem a s = .ok b :=
  Machine.memRead_answers hr (hl a ha)

/-- Every source byte can be read. -/
def State.SourceReadable (s : State) : Prop := ∀ a < s.srcEnd.toNat, ∃ b, readSrc a s = .ok b

/-- In stages LZ and RAW the source has been written: by the HUFF stage to `MID_MEM` (R172), or by the host, since it lies
in the frame that `IN_LEN` counts (R121, R126). -/
theorem State.Inv.sourceReadable {s : State} (hinv : s.Inv) (hl : s.Loaded) (hb : s.state = .busy)
    (hg : s.stage = .lz ∨ s.stage = .raw) : s.SourceReadable := by
  intro a ha
  have hne : s.stage ≠ .frame := by rintro hf; simp [hf] at hg
  obtain ⟨hhuf, hplain⟩ := hinv.stage.source hb hne
  have hlen := hinv.stage.frameLen hb hne
  suffices hread : ((s.memory s.srcSel.space).read a).isSome by
    obtain ⟨b, hread⟩ := memRead_answers (Nat.lt_of_lt_of_le ha hinv.cursor.srcEnd) hread
    exact ⟨b, (readSrc_ok_iff a s b).mpr ⟨ha, hread⟩⟩
  cases hflag : flagHuf s.flags with
  | true =>
    have hsel := (hhuf hflag).1
    rw [hsel]
    exact hinv.bytes.mid hb hsel hg a ha
  | false =>
    obtain ⟨hsel, hend, -⟩ := hplain hflag
    rw [hsel]
    exact hl a (by omega)

theorem readSrcBytes_answers {s : State} : ∀ {n a : Nat}, (∀ j < n, ∃ b, readSrc (a + j) s = .ok b) →
    ∃ bs, readSrcBytes s a n = .ok bs
  | 0, _, _ => ⟨[], rfl⟩
  | n + 1, a, h => by
    obtain ⟨b, hb⟩ := h 0 (Nat.succ_pos n)
    obtain ⟨bs, hbs⟩ := readSrcBytes_answers (s := s) (n := n) (a := a + 1) fun j hj => by
      rw [Nat.add_right_comm]
      exact h (j + 1) (Nat.succ_lt_succ hj)
    exact ⟨b :: bs, by rw [readSrcBytes, show readSrc a s = .ok b from hb, hbs]⟩

/-! The fetch of the LZ stream, and its decoding. -/

theorem fetchSource_answers {s : State} (h : s.SourceReadable) (n a : Nat) : ∃ bs, fetchSource n a s = .ok bs := by
  unfold fetchSource
  split
  · exact ⟨_, rfl⟩
  · exact readSrcBytes_answers fun j hj => h (a + j) (by omega)

theorem fetchCoded_answers {s : State} (h : s.SourceReadable) (hpos : s.srcPos.toNat < s.srcEnd.toNat) :
    ∃ bs, fetchCoded s = .ok bs := by
  obtain ⟨c, hc⟩ := h _ hpos
  obtain ⟨operands, hops⟩ := fetchSource_answers h (codedLength c - 1) (s.srcPos.toNat + 1)
  exact ⟨c :: operands, by simp only [fetchCoded, hc, hops]⟩

theorem fetchLz_answers {s : State} (h : s.SourceReadable) (hpos : s.srcPos.toNat < s.srcEnd.toNat) :
    ∃ f, fetchLz s = .ok f := by
  unfold fetchLz
  split
  · obtain ⟨bs, hbs⟩ := fetchSource_answers h 2 s.srcPos.toNat
    exact ⟨_, by rw [hbs]; rfl⟩
  · split
    · obtain ⟨bs, hbs⟩ := fetchCoded_answers h hpos
      exact ⟨_, by rw [hbs]; rfl⟩
    · obtain ⟨bs, hbs⟩ := readSrcBytes_answers (n := 1) (a := s.srcPos.toNat) fun j hj => h _ (by omega)
      exact ⟨_, by rw [hbs]; rfl⟩

/-- The fetch of a coded token hands over as many bytes as its control byte asks for (R105). -/
theorem fetchCoded_decodes {s : State} {bytes : List Byte} (h : fetchCoded s = .ok bytes) :
    ∃ p, decode (.token true) bytes = .ok p := by
  unfold fetchCoded at h
  split at h
  · cases h
  · split at h
    · cases h
    · cases h
      obtain ⟨i, hi, -⟩ := decodeCoded_ok _ _ (fetchSource_length _ _ _ _ ‹_›)
      exact ⟨_, hi⟩

/-- What is fetched from the LZ stream decodes (R107). -/
theorem fetchLz_decodes {s : State} {f : Fetched} (h : fetchLz s = .ok f) : ∃ p, decode f.1 f.2 = .ok p := by
  unfold fetchLz at h
  split at h
  · cases hr : fetchSource 2 s.srcPos.toNat s <;> rw [hr] at h <;> cases h
    obtain ⟨b0, b1, rfl⟩ := List.length_eq_two.mp (fetchSource_length _ _ _ _ hr)
    exact ⟨_, rfl⟩
  · split at h
    · cases hr : fetchCoded s <;> rw [hr] at h <;> cases h
      exact fetchCoded_decodes hr
    · cases hr : readSrcBytes s s.srcPos.toNat 1 <;> rw [hr] at h <;> cases h
      obtain ⟨b, rfl⟩ := List.length_eq_one_iff.mp (readSrcBytes_length _ _ _ _ hr)
      exact ⟨_, rfl⟩

/-! The items of the stream. -/

theorem runToken_answers (n : Nat) (b : Byte) (k : Nat) (s : State) : Answers (runToken n b k s) := by
  obtain ⟨-, hr⟩ | ⟨-, hr⟩ := runToken_cases n b k s <;> exact ⟨_, hr⟩

theorem backCopy_answers {s : State} {offset : Nat} (n k : Nat) (ho : 0 < offset) (h : s.OutWritten) :
    Answers (backCopy offset n k s) := by
  obtain ⟨-, hr⟩ | ⟨-, -, hr⟩ | ⟨hoff, hfits, ⟨u, -, hr⟩ | ⟨f, hf, -⟩⟩ := backCopy_cases offset n k s
  · exact ⟨_, hr⟩
  · exact ⟨_, hr⟩
  · exact ⟨_, hr⟩
  · obtain ⟨u, hu⟩ := copyLoop_answers offset ho n s hoff (State.no_wrap_of_fits hfits)
      (Nat.le_trans hfits s.ecap_le.1) h
    cases hf.symm.trans hu

theorem codedToken_answers {s : State} {k : Nat} {body : State → Result} (h : Answers (body s.tokenDecision)) :
    Answers (codedToken k s body) := by
  obtain ⟨-, hr⟩ | ⟨-, hr⟩ := codedToken_cases k s body
  · exact ⟨_, hr⟩
  · exact hr ▸ h

/-- An item of the stream reads no memory but `OUT_MEM` below `OUT_POS`. -/
theorem execLzItem_answers {s : State} {i : Instr} (hh : i.context ≠ .header) (hf : i.context ≠ .flagByte)
    (h : s.OutWritten) : Answers (execLzItem i s) := by
  have hout : s.tokenDecision.OutWritten := h
  cases i with
  | cwload b0 b1 =>
    simp only [execLzItem, execCwload]
    split <;> exact answers_next _
  | lit b => exact runToken_answers 1 b 1 _
  | srun l b => exact codedToken_answers (runToken_answers _ b 2 _)
  | lrun l n1 b => exact codedToken_answers (runToken_answers _ b 3 _)
  | brefx l o n => exact codedToken_answers (backCopy_answers _ 3 (Nat.succ_pos _) hout)
  | bref hi l o => exact codedToken_answers (backCopy_answers _ 2 (Nat.succ_pos _) hout)
  | frame => exact absurd rfl hh
  | blkRaw | blkLz | blkHuf | blkHufLz => exact absurd rfl hf

/-! The stage steps. -/

theorem lzStep_answers {s : State} (hsrc : s.SourceReadable) (hle : s.srcPos.toNat ≤ s.srcEnd.toNat)
    (hout : s.OutWritten) : Answers (lzStep s) := by
  unfold lzStep
  split
  · exact answers_next _
  · rename_i hend
    have hpos : s.srcPos.toNat < s.srcEnd.toNat :=
      Nat.lt_of_le_of_ne hle fun heq => hend (BitVec.eq_of_toNat_eq heq)
    refine answers_andThen (fetchLz_answers hsrc hpos) fun f hf => ?_
    obtain ⟨⟨i, rest⟩, hd⟩ := fetchLz_decodes hf
    obtain ⟨hh, hfl⟩ := fetchLz_context hf
    rw [withDecoded_of_decode hd]
    exact execLzItem_answers (decode_context hd ▸ hh) (decode_context hd ▸ hfl) hout

theorem rawStep_answers {s : State} (hsrc : s.SourceReadable) : Answers (rawStep s) := by
  obtain ⟨-, hr⟩ | ⟨-, ⟨u, -, hr⟩ | ⟨f, hf, -⟩⟩ := rawStep_cases s
  · exact ⟨_, hr⟩
  · exact ⟨_, hr⟩
  · obtain ⟨u, hu⟩ := rawLoop_answers s.srcLeft s.srcPos.toNat s fun j hj =>
      hsrc _ (by unfold State.srcLeft at hj; omega)
    cases hf.symm.trans hu

/-- The HUFF step reads `payload[3:]`, which the frame holds (R171). -/
theorem huffStep_answers {s : State} (after : Stage) (hl : s.Loaded) (hpl : 3 ≤ s.paylen.toNat)
    (hlen : 4 + s.paylen.toNat ≤ s.inLen.toNat) : Answers (huffStep after s) := by
  have hmax := s.paylen.isLt
  obtain ⟨enc, henc, -, -⟩ := readInBytes_answers s (s.paylen.toNat - 3) 7 (show _ ≤ 65539 by omega) fun j hj =>
    hl (7 + j) (by omega)
  obtain ⟨f, hf, -⟩ | ⟨-, -, ⟨r, -, hr⟩ | ⟨m, -, hr⟩⟩ := huffStep_cases after s
  · cases hf.symm.trans henc
  · exact ⟨_, hr⟩
  · exact ⟨_, hr⟩

theorem fetchHeader_answers {s : State} (hl : s.Loaded) : ∃ bytes, fetchHeader s = .ok bytes := by
  unfold fetchHeader
  split
  · exact ⟨_, rfl⟩
  · rename_i hlen
    have hlen : 4 ≤ s.inLen.toNat := Nat.le_of_not_lt hlen
    obtain ⟨lo, hlo⟩ := hl.memRead_answers (a := 0) (by omega) (by decide)
    obtain ⟨hi, hhi⟩ := hl.memRead_answers (a := 1) (by omega) (by decide)
    exact ⟨_, by rw [hlo, hhi]⟩

theorem huffmanHeader_answers {s : State} {k : State → Result} (h : 3 ≤ s.paylen.toNat → Answers (k s)) :
    Answers (huffmanHeader s k) := by
  obtain ⟨-, hr⟩ | ⟨hpl, hr⟩ := huffmanHeader_cases s k
  · exact ⟨_, hr⟩
  · exact hr ▸ h hpl

theorem frameFlags_answers {s : State} (hl : s.Loaded) (hpl : 1 ≤ s.paylen.toNat)
    (hlen : 4 + s.paylen.toNat ≤ s.inLen.toNat) : Answers (frameFlags s) := by
  have hmax := s.paylen.isLt
  have hread : ∀ flg, ∀ a < 4 + s.paylen.toNat, ∃ b, memRead .inMem a { s with flags := flg } = .ok b := fun flg a ha =>
    memRead_answers (show a < 65539 by omega) (hl a (by omega))
  refine answers_andThen (hread s.flags 4 (by omega)) fun flg _ => ?_
  cases flagHuf flg with
  | false => exact answers_next _
  | true =>
    simp only [if_true]
    refine huffmanHeader_answers fun hpl3 => ?_
    have hpl3 : 3 ≤ s.paylen.toNat := hpl3
    exact answers_andThen (hread flg 5 (by omega)) fun p _ =>
      answers_andThen (hread flg 6 (by omega)) fun q _ => answers_next _

theorem execFrame_answers {s : State} (lo hi r0 r1 : Byte) (hl : s.Loaded) : Answers (execFrame lo hi r0 r1 s) := by
  unfold execFrame
  obtain ⟨-, hr⟩ | ⟨-, -, hr⟩ | ⟨-, -, hr⟩ | ⟨hlen, hpl, hr⟩ := frameHeader_cases lo hi s frameFlags
  · exact ⟨_, hr⟩
  · exact ⟨_, hr⟩
  · exact ⟨_, hr⟩
  · exact hr ▸ frameFlags_answers (s := { s with paylen := payloadLength lo hi }) hl (one_le_toNat_of_ne_zero hpl) hlen

/-- Under the invariant the engine of a loaded machine has a turn that answers, in every stage. -/
theorem engineTurn_answers {s : State} (hinv : s.Inv) (hl : s.Loaded) : Answers (engineTurn s) := by
  by_cases hb : s.state = .busy
  case neg => exact ⟨s, engineTurn_of_not_busy s hb⟩
  cases hg : s.stage with
  | none => exact absurd hg (hinv.stage.some hb)
  | frame =>
    rw [engineTurn_of_frame hb hg]
    refine answers_andThen (fetchHeader_answers hl) fun bytes hbytes => ?_
    obtain ⟨-, rfl⟩ | ⟨lo, hi, -, -, rfl⟩ := fetchHeader_ok hbytes
    · exact execFrame_answers 0 0 0 0 hl
    · exact execFrame_answers lo hi 0 0 hl
  | huff =>
    rw [engineTurn_of_huff hb hg]
    exact huffStep_answers _ hl (hinv.stage.huff hb hg).2 (hinv.stage.frameLen hb (by rw [hg]; nofun))
  | lz =>
    rw [engineTurn_of_lz hb hg]
    exact lzStep_answers (hinv.sourceReadable hl hb (.inl hg)) hinv.cursor.src hinv.bytes.out
  | raw =>
    rw [engineTurn_of_raw hb hg]
    exact rawStep_answers (hinv.sourceReadable hl hb (.inr hg))
  | finish =>
    rw [engineTurn_of_finish hb hg]
    exact answers_next _

/-- Settles O51: a move of the host always answers, and so does a turn of the engine of a loaded machine. -/
theorem loadedMachineNeverFaults : Obligations.LoadedMachineNeverFaults := by
  unfold Obligations.LoadedMachineNeverFaults
  intro s hinv hl
  cases hs : s.hostTurns with
  | nil => exact step_of_no_turns s hs ▸ engineTurn_answers hinv hl
  | cons turn rest =>
    cases turn with
    | pass => exact step_of_pass hs ▸ engineTurn_answers (hinv.of_hostTurns rest) hl
    | move m => exact ⟨_, step_of_move hs⟩

end Sys2Proof.Machine
end

section
/-! PROOFS. The stage steps as equations, and what the engine's moves say of its writes and of its progress. -/

namespace Sys2Proof.Machine

/-! The FRAME step. -/

theorem toNat_append_byte (p q : Byte) : (p ++ q).toNat = 256 * p.toNat + q.toNat := by
  rw [BitVec.toNat_append, ← Nat.shiftLeft_add_eq_or_of_lt q.isLt, Nat.shiftLeft_eq]
  omega

/-- `preLzSize` is big-endian, and `SRC_END` has room for it (R62, R95, R124). -/
theorem enterHuffman_preLzSize (s : State) (p q : Byte) : s.enterHuffman (preLzSize p q) =
    { s with
      prelz := p ++ q, srcSel := .midMem, srcPos := 0, srcEnd := BitVec.ofNat 17 (256 * p.toNat + q.toNat),
      stage := .huff } := by
  have hend : (p ++ q).setWidth 17 = BitVec.ofNat 17 (256 * p.toNat + q.toNat) :=
    BitVec.eq_of_toNat_eq (by rw [BitVec.toNat_setWidth, toNat_append_byte, BitVec.toNat_ofNat])
  simp only [State.enterHuffman, preLzSize]
  rw [← hend]

/-- In stage FRAME the engine takes the FRAME step of R120. -/
theorem engineTurn_eq_frameStep {s : State} (hb : s.state = .busy) (hg : s.stage = .frame) :
    engineTurn s = frameStep s := by
  rw [engineTurn_of_frame hb hg]
  unfold fetchHeader frameStep
  split
  · exact if_pos ‹_›
  · rename_i hlen
    cases memRead .inMem 0 s with
    | error f => rfl
    | ok lo =>
      cases memRead .inMem 1 s with
      | error f => rfl
      | ok hi =>
        refine (if_neg hlen).trans ?_
        simp only [frameFlags, huffmanHeader, enterHuffman_preLzSize]
        rfl

/-- Settles O8: each stage's turn is its step, and `NONE` has nothing to fetch. -/
theorem stageSelectsStep : Obligations.StageSelectsStep := by
  unfold Obligations.StageSelectsStep
  intro s hturns hb
  rw [step_of_no_turns s hturns]
  refine ⟨engineTurn_eq_frameStep hb, engineTurn_of_huff hb, engineTurn_of_lz hb, engineTurn_of_raw hb,
    engineTurn_of_finish hb, fun hg => ?_⟩
  rw [engineTurn_of_busy s hb, fetch, hg]
  rfl

/-! What the moves write, and how the LZ stage proceeds. -/

/-- Settles O41: no move of the engine writes what the host owns; the moves that write `MID_MEM` and `OUT_MEM` are those
of their stages. -/
theorem engineWritesOnlyItsOwn : Obligations.EngineWritesOnlyItsOwn := by
  unfold Obligations.EngineWritesOnlyItsOwn
  intro s t h
  by_cases hb : s.state = .busy
  case neg =>
    cases (engineTurn_of_not_busy s hb).symm.trans h
    simp
  cases engineTurn_engineMove hb h with
  | huffDecoded hstage => simp [hstage]
  | tokenEmitted hstage => simp [hstage, State.withOutput]
  | rawCopied hstage => simp [hstage, State.withOutput]
  | raised | enteredPlain | enteredHuffman | lzEnded | cwLoaded | finished => simp

theorem State.advanceSrc_progress (s : State) {k : Nat} (hk : 1 ≤ k ∧ k ≤ 3)
    (hleft : s.srcPos.toNat + k ≤ s.srcEnd.toNat) :
    s.srcPos.toNat < (s.advanceSrc k).srcPos.toNat ∧ (s.advanceSrc k).srcPos.toNat ≤ s.srcPos.toNat + 3 ∧
      (s.advanceSrc k).srcPos.toNat ≤ s.srcEnd.toNat := by
  have hpos := s.advanceSrc_toNat k hleft
  omega

/-- Settles O43: in stage LZ the engine's moves are the raise, the end of the stage, the control word and the token. -/
theorem lzStepProgresses : Obligations.LzStepProgresses := by
  unfold Obligations.LzStepProgresses
  intro s t hb hg hle h
  cases engineTurn_engineMove hb h with
  | raised => exact .inl rfl
  | lzEnded hstage hend => exact .inr (.inl ⟨hb, rfl, hend, rfl⟩)
  | cwLoaded hstage hleft =>
    obtain ⟨hlt, hmax, hend⟩ := s.advanceSrc_progress (by decide) hleft
    exact .inr (.inr ⟨hb, hg, hlt, hmax, hend, rfl⟩)
  | tokenEmitted hstage hk hleft =>
    obtain ⟨hlt, hmax, hend⟩ := s.advanceSrc_progress hk hleft
    exact .inr (.inr ⟨hb, hg, hlt, hmax, hend, rfl⟩)
  | enteredPlain hstage | enteredHuffman hstage | huffDecoded hstage | rawCopied hstage | finished hstage =>
    cases hg.symm.trans hstage

/-! A `BLK_RAW` run. -/

/-- What FRAME makes of a whole frame without the Huffman bit, of this length and flag byte (R120, R126). -/
def State.plainEntry (s : State) (pl : BitVec 16) (flg : Byte) : State :=
  { s with paylen := pl, flags := flg }.enterPlain

/-- The FRAME step on a whole frame without the Huffman bit (R120, R126). -/
theorem engineTurn_of_plainFrame {s : State} {lo hi flg : Byte} (hb : s.state = .busy) (hg : s.stage = .frame)
    (hlo : Mem.read s.inMem 0 = some lo) (hhi : Mem.read s.inMem 1 = some hi) (hflg : Mem.read s.inMem 4 = some flg)
    (hpl : payloadLength lo hi ≠ 0) (hlen : 4 + (payloadLength lo hi).toNat ≤ s.inLen.toNat)
    (hflag : flagHuf flg = false) :
    engineTurn s = .next (s.plainEntry (payloadLength lo hi) flg) := by
  have hread : ∀ {a b}, a < Config.inMemBytes → Mem.read s.inMem a = some b → memRead .inMem a s = .ok b :=
    fun ha hb => (memRead_ok_iff ..).mpr ⟨ha, hb⟩
  rw [engineTurn_eq_frameStep hb hg, frameStep, if_neg (show ¬ s.inLen.toNat < 4 by omega), hread (by decide) hlo,
    hread (by decide) hhi]
  refine (if_neg (Nat.not_lt.mpr hlen)).trans ((if_neg hpl).trans ?_)
  change andThen (memRead .inMem 4 s) _ = _
  rw [hread (by decide) hflg]
  exact if_neg (Bool.eq_false_iff.mp hflag)

/-- The RAW step on a source that can be read and fits the capacity (R127). -/
theorem rawStep_copies {s : State} {src : List Byte} (hend : s.srcPos.toNat + src.length = s.srcEnd.toNat)
    (hsize : s.srcEnd.toNat ≤ s.spaceSize s.srcSel.space) (hsrc : Mem.holds s.srcMem s.srcPos.toNat src)
    (hfits : s.outPos.toNat + src.length ≤ s.ecap) :
    ∃ mem pos, rawStep s = .next { s.withOutput mem pos with srcPos := s.srcEnd, stage := .finish } ∧
      s.Emission src.length mem pos ∧ Mem.holds mem s.outPos.toNat src := by
  have hread : ∀ j (hj : j < src.length), readSrc (s.srcPos.toNat + j) s = .ok src[j] := fun j hj =>
    (readSrc_ok_iff ..).mpr ⟨by omega, (memRead_ok_iff ..).mpr ⟨by omega, hsrc j hj⟩⟩
  have hleft : s.srcLeft = src.length := by unfold State.srcLeft; omega
  obtain ⟨hover, -⟩ | ⟨-, ⟨u, hu, hr⟩ | ⟨f, hf, -⟩⟩ := rawStep_cases s
  · omega
  · rw [hleft] at hu
    obtain ⟨honly, -, -, hcopied, -, -⟩ := rawLoop_spec _ _ s u (State.no_wrap_of_fits hfits) hu
    refine ⟨u.outMem, u.outPos, honly.eq_withOutput ▸ hr, emission_of_rawLoop hfits hu, fun j hj => ?_⟩
    obtain ⟨b, hb, hout⟩ := hcopied j hj
    cases (hread j hj).symm.trans hb
    exact hout
  · obtain ⟨u, hu⟩ := rawLoop_answers s.srcLeft s.srcPos.toNat s fun j hj => ⟨_, hread j (hleft ▸ hj)⟩
    cases hf.symm.trans hu

theorem Mem.holds.append_right {m : Mem} {a : Nat} {xs ys : List Byte} (h : Mem.holds m a (xs ++ ys)) :
    Mem.holds m (a + xs.length) ys := by
  intro k hk
  have hread := h (xs.length + k) (by rw [List.length_append]; omega)
  rw [List.getElem_append_right (Nat.le_add_right ..)] at hread
  simpa [Nat.add_assoc] using hread

theorem runFor_succ_of_step {s t : State} (h : step s = .next t) (k : Nat) : runFor (k + 1) s = runFor k t := by
  rw [runFor, h]

/-- RAW and FINISH, the source being readable and its length within the capacity (R127, R129). -/
theorem runFor_rawFinish {s : State} {src : List Byte} (hturns : s.hostTurns = []) (hb : s.state = .busy)
    (hg : s.stage = .raw) (hend : s.srcPos.toNat + src.length = s.srcEnd.toNat)
    (hsize : s.srcEnd.toNat ≤ s.spaceSize s.srcSel.space) (hsrc : Mem.holds s.srcMem s.srcPos.toNat src)
    (hfits : s.outPos.toNat + src.length ≤ s.ecap) :
    ∃ mem pos, s.Emission src.length mem pos ∧ Mem.holds mem s.outPos.toNat src ∧
      runFor 2 s = .next { s.withOutput mem pos with
        srcPos := s.srcEnd, stage := .finish, outLen := pos
        consumed := BitVec.ofNat 17 (4 + s.paylen.toNat), state := .done } := by
  obtain ⟨mem, pos, hraw, hemit, hout⟩ := rawStep_copies hend hsize hsrc hfits
  refine ⟨mem, pos, hemit, hout, ?_⟩
  have hstep : step s = .next { s.withOutput mem pos with srcPos := s.srcEnd, stage := .finish } := by
    rw [step_of_no_turns s hturns, engineTurn_of_raw hb hg, hraw]
  rw [runFor_succ_of_step hstep,
    runFor_succ_of_step ((step_of_no_turns _ (by exact hturns)).trans (engineTurn_of_finish (by exact hb) rfl))]
  rfl

/-- A write of `CTRL` with the bit of `START` begins a run unless one is going on (R38, R46). -/
theorem hostMove_start {s : State} {v : BitVec 32} (hb : s.state ≠ .busy) (hv : v.getLsbD 0 = true) :
    hostMove (.writeReg 0 v) s = s.startRun :=
  (if_neg hb).trans (if_pos hv)

/-- Settles O56: FRAME selects RAW, RAW copies the body, FINISH reports it. -/
theorem rawBlockRun : Obligations.RawBlockRun := by
  unfold Obligations.RawBlockRun
  intro s lo hi r0 r1 flg body hturns hidle hframe hpl hlen hlz hhuf hcap
  have hpay : (payloadLength lo hi).toNat = body.length + 1 := by
    rw [payloadLength, toNat_append_byte]
    omega
  have hmax := (payloadLength lo hi).isLt
  have hfirst := engineTurn_of_plainFrame (s := s.startRun) (lo := lo) (hi := hi) (flg := flg) rfl rfl
    (hframe 0 (by simp)) (hframe 1 (by simp)) (hframe 4 (by simp)) (fun h0 => by simp [h0] at hpay)
    (show 4 + (payloadLength lo hi).toNat ≤ s.inLen.toNat by omega) hhuf
  have hend := toNat_ofNat_payloadEnd (payloadLength lo hi)
  have hbody : Mem.holds s.inMem 5 body := hframe.append_right (xs := [lo, hi, r0, r1, flg])
  obtain ⟨mem, pos, hemit, hout, hrest⟩ := runFor_rawFinish (s := s.startRun.plainEntry (payloadLength lo hi) flg)
    hturns rfl (if_neg (Bool.eq_false_iff.mp hlz)) (src := body)
    (show 5 + body.length = (BitVec.ofNat 17 (4 + (payloadLength lo hi).toNat)).toNat by omega)
    (show (BitVec.ofNat 17 (4 + (payloadLength lo hi).toNat)).toNat ≤ 65539 by omega) hbody
    (show 0 + body.length ≤ s.ecap by omega)
  rw [hostMove_start hidle rfl, runFor_succ_of_step ((step_of_no_turns s.startRun hturns).trans hfirst), hrest]
  exact ⟨_, rfl, rfl, hemit.pos.trans (Nat.zero_add _), hout, hend.trans (congrArg (4 + ·) hpay), rfl, rfl⟩

end Sys2Proof.Machine
end

section
/-! PROOFS. What the host sees and does: the `STATUS` view, the reset event, and each access of the port. -/

namespace Sys2Proof.Machine

/-! `STATUS` (R30). -/

/-- The fields of the `STATUS` view laid side by side, from `ERR_CAUSE` down to `STATE`, with the reserved bits between. -/
def statusLayout (cause : BitVec 4) (kind : BitVec 2) (stage : BitVec 3) (phase : BitVec 2) :
    BitVec (16 + 4 + 2 + 2 + 1 + 3 + 2 + 2) :=
  (0 : BitVec 16) ++ cause ++ (0 : BitVec 2) ++ kind ++ (0 : BitVec 1) ++ stage ++ (0 : BitVec 2) ++ phase

theorem State.statusWord_eq_layout (s : State) :
    s.statusWord = statusLayout s.errCause.code s.errKind.code s.stage.code s.state.code := rfl

theorem statusLayout_fields (cause : BitVec 4) (kind : BitVec 2) (stage : BitVec 3) (phase : BitVec 2) :
    (statusLayout cause kind stage phase).extractLsb' 0 2 = phase ∧
    (statusLayout cause kind stage phase).extractLsb' 4 3 = stage ∧
    (statusLayout cause kind stage phase).extractLsb' 8 2 = kind ∧
    (statusLayout cause kind stage phase).extractLsb' 12 4 = cause := by
  unfold statusLayout
  refine ⟨?_, ?_, ?_, ?_⟩ <;>
    simp (disch := decide) only [BitVec.extractLsb'_append_eq_of_le, BitVec.extractLsb'_append_eq_of_add_le,
      BitVec.extractLsb'_eq_self, Nat.reduceSub]

/-- Every bit that the mask of the reserved bits has is 0. -/
theorem statusLayout_reserved (cause : BitVec 4) (kind : BitVec 2) (stage : BitVec 3) (phase : BitVec 2) :
    statusLayout cause kind stage phase &&& 0xFFFF0C8C#32 = 0#32 := by
  refine BitVec.eq_of_getLsbD_eq fun i hi => ?_
  rw [BitVec.getLsbD_and, statusLayout]
  simp only [BitVec.getLsbD_append]
  interval_cases i <;> simp

/-- Settles O34: the word is the layout of the four codes, and the codes are those of the tables. -/
theorem statusFields : Obligations.StatusFields := by
  unfold Obligations.StatusFields
  refine ⟨fun s => ?_, by decide, by decide, by decide, by decide⟩
  rw [s.statusWord_eq_layout]
  obtain ⟨hphase, hstage, hkind, hcause⟩ :=
    statusLayout_fields s.errCause.code s.errKind.code s.stage.code s.state.code
  exact ⟨hphase, hstage, hkind, hcause, statusLayout_reserved ..⟩

/-! Reset (R45, R210). -/

/-- Settles O35: each register is read off `State.reset`, whose engine is idle and whose memories list no byte. -/
theorem resetValues : Obligations.ResetValues := by
  unfold Obligations.ResetValues
  have hidle : engineTurn State.reset = .next State.reset := engineTurn_of_not_busy State.reset nofun
  have hempty : ∀ (sp : Space) (a : Nat), (State.reset.memory sp).read a = none := by
    intro sp a
    cases sp <;> exact Mem.read_nil a
  exact ⟨rfl, rfl, rfl, rfl, rfl, rfl, rfl, rfl, rfl, rfl, rfl, rfl, rfl, rfl, rfl, rfl, rfl, rfl, by decide, hidle, hempty⟩

/-- Settles O36: the event sets every field from `State.reset` but the parameters and the model's own. -/
theorem resetEventFromAnyState : Obligations.ResetEventFromAnyState := by
  unfold Obligations.ResetEventFromAnyState
  exact fun s => ⟨s.resetEvent, rfl, rfl, rfl⟩

/-! Writes. -/

/-- A write of `CTRL` with the bit of `CLEAR` alone ends the run that is over (R38, R198). -/
theorem hostMove_clear {s : State} {v : BitVec 32} (hend : s.ended) (h0 : v.getLsbD 0 = false)
    (h1 : v.getLsbD 1 = true) : hostMove (.writeReg 0 v) s = s.clearRun := by
  have hphase : s.state ≠ .busy ∧ s.state ≠ .idle := by
    obtain h | h := hend <;> simp [h]
  exact (if_neg hphase.1).trans ((if_neg (Bool.eq_false_iff.mp h0)).trans (if_pos ⟨h1, hphase.2⟩))

/-- Settles O37: the three answers of a write of `CTRL`. -/
theorem ctrlCommands : Obligations.CtrlCommands := by
  unfold Obligations.CtrlCommands
  intro s v
  refine ⟨hostMove_start, hostMove_clear, ?_⟩
  rintro (hb | ⟨h0, hclear⟩)
  · exact if_pos hb
  · have hkept : ¬(v.getLsbD 1 = true ∧ s.state ≠ .idle) := by
      rintro ⟨h1, hne⟩
      obtain h1' | hidle := hclear
      · cases h1'.symm.trans h1
      · exact hne hidle
    simp only [hostMove, State.writeReg, State.writeCtrl, h0, if_neg hkept, Bool.false_eq_true, if_false, ite_self]

/-- While BUSY the port takes no write (R79). -/
theorem hostMove_write_of_busy {s : State} (hb : s.state = .busy) (n : Nat) (v : BitVec 32) (a : Nat) (b : Byte) :
    hostMove (.writeReg n v) s = s ∧ hostMove (.writeIn a b) s = s := by
  refine ⟨?_, if_pos (.inl hb)⟩
  simp only [hostMove, State.writeReg, State.writeCtrl, if_pos hb]
  split <;> rfl

/-- Outside BUSY a write inside the window writes its byte (R47). -/
theorem hostMove_writeIn {s : State} (hb : s.state ≠ .busy) {a : Nat} (ha : a < 65539) (b : Byte) :
    hostMove (.writeIn a b) s = { s with inMem := s.inMem.write a b } :=
  if_neg (not_or.mpr ⟨hb, Nat.not_le.mpr ha⟩)

/-- Settles O38: register by register, and address by address inside and outside the window. -/
theorem hostWrites : Obligations.HostWrites := by
  unfold Obligations.HostWrites
  intro s
  refine ⟨hostMove_write_of_busy, fun hb v => ⟨if_neg hb, if_neg hb⟩, fun n v h0 h2 h3 => ?_, fun hb a b ha => ?_,
    fun a b ha => if_pos (.inr ha)⟩
  · simp only [hostMove]
    unfold State.writeReg
    split
    · exact absurd rfl h0
    · exact absurd rfl h2
    · exact absurd rfl h3
    · rfl
  · rw [hostMove_writeIn hb ha]
    exact ⟨Mem.read_write_same _ _ _, fun k hk => Mem.read_write_ne _ _ hk, rfl⟩

/-! Reads. -/

theorem State.answerResult_of_not_busy {s : State} (hb : s.state ≠ .busy) (w : Nat) (v : BitVec 32) :
    s.answerResult w v = { s with portData := v } := if_neg hb

/-- Settles O39: a result register narrower than the port is answered with zeros above it. -/
theorem hostRegisterReads : Obligations.HostRegisterReads := by
  unfold Obligations.HostRegisterReads
  intro s
  refine ⟨rfl, rfl, fun n hn => ?_, fun hb => ⟨rfl, rfl, ?_⟩⟩
  · obtain ⟨k, rfl⟩ := Nat.exists_eq_add_of_lt hn
    rw [show 8 + k + 1 = k + 9 by omega]
    rfl
  · simp only [hostMove, State.readReg, State.answerResult_of_not_busy hb, BitVec.ofNat_toNat, and_self]

/-- Settles O40: the byte is answered in `DONE` below `OUT_LEN`, and no read writes a register or a memory. -/
theorem hostReadsOfOutMem : Obligations.HostReadsOfOutMem := by
  unfold Obligations.HostReadsOfOutMem
  intro s
  refine ⟨fun a b hd hlen hmem hb => ?_, fun a => ?_, fun n => ?_⟩
  · simp only [hostMove, State.readOut, hb, if_pos (And.intro hd (And.intro hlen hmem)), BitVec.ofNat_toNat]
    rfl
  · obtain ⟨v, i, h⟩ := readOut_answers s a
    rw [hostMove, h]
  · obtain ⟨v, i, h⟩ := readReg_answers s n
    rw [hostMove, h]

end Sys2Proof.Machine
end

section
/-! PROOFS. What every step keeps of the memories: the canonical form, and `OUT_MEM` outside the room the capacity leaves. -/

namespace Sys2Proof.Machine

/-- Settles O46: the host's effects and the engine's moves keep the canonical memories. -/
theorem stepKeepsMemoryCanonical : Obligations.StepKeepsMemoryCanonical := by
  unfold Obligations.StepKeepsMemoryCanonical
  intro s t hmem hstep
  exact step_keeps (P := State.MemOk) (fun _ _ h => { h with }) (fun _ _ h he => he.keeps_memOk h)
    (fun _ _ h _ hm => hm.keeps_memOk h) hmem hstep

/-- A move of the engine leaves `OUT_MEM` alone or emits into it. -/
theorem EngineMove.outMem_cases {s t : State} (hm : EngineMove s t) :
    t.outMem = s.outMem ∨ ∃ n pos, s.Emission n t.outMem pos := by
  cases hm with
  | tokenEmitted _ _ _ hemit | rawCopied _ hemit => exact .inr ⟨_, _, hemit⟩
  | raised | enteredPlain | enteredHuffman | huffDecoded | lzEnded | cwLoaded | finished => exact .inl rfl

/-- A byte that an emission changes lies from `OUT_POS` to below the capacity (R69). -/
theorem State.Emission.changed_range {s : State} {n a : Nat} {mem : Mem} {pos : BitVec 32} (he : s.Emission n mem pos)
    (h : Mem.read mem a ≠ Mem.read s.outMem a) : s.outPos.toNat ≤ a ∧ a < s.ecap := by
  have hfits := he.fits
  have hin : ¬(a < s.outPos.toNat ∨ s.outPos.toNat + n ≤ a) := fun hout => h (he.kept a hout)
  omega

/-- Settles O42: only an emission changes `OUT_MEM`, and it was checked against the capacity. -/
theorem outputStaysInsideCapacity : Obligations.OutputStaysInsideCapacity := by
  unfold Obligations.OutputStaysInsideCapacity
  intro s t a hturn hne
  by_cases hb : s.state = .busy
  case neg =>
    cases (engineTurn_of_not_busy s hb).symm.trans hturn
    exact absurd rfl hne
  obtain hsame | ⟨n, pos, hemit⟩ := (engineTurn_engineMove hb hturn).outMem_cases
  · exact absurd (by rw [hsame]) hne
  · exact hemit.changed_range hne

end Sys2Proof.Machine
end

section
/-! PROOFS. The encoding as the flag byte and the stream use it: what a flag byte decodes to, that decoding inverts
encoding, and that the LZ stage fetches the encoding that stands at the source cursor. -/

namespace Sys2Proof.Machine

/-! The flag byte (R93 to R95). -/

theorem flagHuf_and_three (flg : Byte) : flagHuf (flg &&& 0x03#8) = flagHuf flg := by
  unfold flagHuf
  rw [BitVec.getLsbD_and]
  exact Bool.and_true _

theorem flagLz_and_three (flg : Byte) : flagLz (flg &&& 0x03#8) = flagLz flg := by
  unfold flagLz
  rw [BitVec.getLsbD_and]
  exact Bool.and_true _

theorem decode_flagByte_plain {flg : Byte} (h : flagHuf flg = false) (rest : List Byte) :
    decode .flagByte (flg :: rest) = .ok (blockInstr false (flagLz flg) (flagRest flg) 0, rest) :=
  if_neg (Bool.eq_false_iff.mp h)

theorem decode_flagByte_huffman {flg : Byte} (h : flagHuf flg = true) (p q : Byte) (rest : List Byte) :
    decode .flagByte (flg :: p :: q :: rest) =
      .ok (blockInstr true (flagLz flg) (flagRest flg) (preLzSize p q), rest) :=
  if_pos h

/-- `preLzSize` is big-endian (R62, R95). -/
theorem preLzSize_eq_ofNat (p q : Byte) : preLzSize p q = BitVec.ofNat 16 (256 * p.toNat + q.toNat) := by
  rw [← toNat_append_byte, BitVec.ofNat_toNat, BitVec.setWidth_eq, preLzSize]

/-- Settles O4: what the mask leaves of the flag byte has its two mode bits, and these select the block mode. -/
theorem flagByteSelectsMode : Obligations.FlagByteSelectsMode := by
  unfold Obligations.FlagByteSelectsMode
  intro flg p q rest
  have hbits : ∀ {m : Byte}, flg &&& 0x03#8 = m → flagHuf flg = flagHuf m ∧ flagLz flg = flagLz m := by
    rintro m rfl
    exact ⟨(flagHuf_and_three flg).symm, (flagLz_and_three flg).symm⟩
  refine ⟨fun h => ?_, fun h => ?_, fun h => ?_, fun h => ?_⟩ <;> obtain ⟨hhuf, hlz⟩ := hbits h
  · rw [decode_flagByte_plain hhuf, hlz]; rfl
  · rw [decode_flagByte_plain hhuf, hlz]; rfl
  · rw [decode_flagByte_huffman hhuf, hlz, preLzSize_eq_ofNat]; rfl
  · rw [decode_flagByte_huffman hhuf, hlz, preLzSize_eq_ofNat]; rfl

/-! Decoding inverts encoding. -/

@[simp] theorem highNibble_append (h l : Nibble) : highNibble (h ++ l) = h := BitVec.extractLsb'_append_eq_left

@[simp] theorem lowNibble_append (h l : Nibble) : lowNibble (h ++ l) = l := BitVec.extractLsb'_append_eq_right

theorem preLzSize_bytes (v : BitVec 16) : preLzSize (highByte v) (lowByte v) = v := by
  unfold preLzSize highByte lowByte
  rw [BitVec.extractLsb'_append_extractLsb'_eq_extractLsb' (by decide)]
  simp

/-- The `H` of a well-formed `BREF` is no other token's (R100). -/
theorem Instr.bref_wellFormed_ne {h l : Nibble} {o : Byte} (hwf : (Instr.bref h l o).wellFormed = true) :
    h ≠ 0#4 ∧ h ≠ 1#4 ∧ h ≠ 2#4 := by
  have h3 : 3 ≤ h.toNat := of_decide_eq_true hwf
  refine ⟨?_, ?_, ?_⟩ <;> rintro rfl <;> exact absurd h3 (by decide)

theorem decode_encode_append {i : Instr} (hwf : i.wellFormed = true) (rest : List Byte) :
    decode i.context (encode i ++ rest) = .ok (i, rest) := by
  cases i with
  | frame | cwload | lit => rfl
  | blkRaw x | blkLz x => simp [decode, decodeFlag, encode, Instr.context, flagByte_fields, blockInstr]
  | blkHuf x pre | blkHufLz x pre =>
    simp [decode, decodeFlag, encode, Instr.context, flagByte_fields, blockInstr, preLzSize_bytes]
  | srun l b | lrun l n1 b | brefx l o n => simp [decode, decodeCoded, encode, Instr.context]
  | bref h l o =>
    obtain ⟨h0, h1, h2⟩ := Instr.bref_wellFormed_ne hwf
    simp [decode, decodeCoded, encode, Instr.context, h0, h1, h2]

/-! The length of an item in its context (R97, R98, R105). -/

theorem encode_length_of_controlWord {i : Instr} (h : i.context = .controlWord) : (encode i).length = 2 := by
  cases i with
  | cwload => rfl
  | _ => cases h

theorem encode_length_of_literal {i : Instr} (h : i.context = .token false) : (encode i).length = 1 := by
  cases i with
  | lit => rfl
  | _ => cases h

/-- A coded token is its control byte and as many operand bytes as that byte asks for. -/
theorem encode_coded {i : Instr} (hwf : i.wellFormed = true) (h : i.context = .token true) :
    ∃ c operands, encode i = c :: operands ∧ operands.length = codedLength c - 1 := by
  cases i with
  | srun | lrun | brefx => exact ⟨_, _, rfl, by simp [codedLength]⟩
  | bref hi l o =>
    obtain ⟨-, h1, h2⟩ := Instr.bref_wellFormed_ne hwf
    exact ⟨_, _, rfl, by simp [codedLength, h1, h2]⟩
  | _ => cases h

theorem encode_length_pos (i : Instr) : 0 < (encode i).length := by
  cases i <;> exact Nat.succ_pos _

/-! The fetch of an item whose bytes stand at the source cursor. -/

/-- The source has these bytes from address `a` on, all of them below `SRC_END` and inside the memory it lies in (R66). -/
structure State.SourceHolds (s : State) (a : Nat) (bytes : List Byte) : Prop where
  holds : Mem.holds s.srcMem a bytes
  left : a + bytes.length ≤ s.srcEnd.toNat
  size : s.srcEnd.toNat ≤ s.spaceSize s.srcSel.space

theorem State.SourceHolds.tail {s : State} {a : Nat} {c : Byte} {bytes : List Byte} (h : s.SourceHolds a (c :: bytes)) :
    s.SourceHolds (a + 1) bytes where
  holds := h.holds.append_right (xs := [c])
  left := by
    have := h.left
    rw [List.length_cons] at this
    omega
  size := h.size

theorem State.SourceHolds.readSrc {s : State} {a : Nat} {bytes : List Byte} (h : s.SourceHolds a bytes) (j : Nat)
    (hj : j < bytes.length) : readSrc (a + j) s = .ok bytes[j] := by
  obtain ⟨hholds, hleft, hsize⟩ := h
  exact (readSrc_ok_iff ..).mpr ⟨by omega, (memRead_ok_iff ..).mpr ⟨by omega, hholds j hj⟩⟩

theorem State.SourceHolds.readSrcBytes {s : State} {a n : Nat} {bytes : List Byte} (h : s.SourceHolds a bytes)
    (hn : bytes.length = n) : readSrcBytes s a n = .ok bytes :=
  (readSrcBytes_ok_iff ..).mpr ⟨hn, h.readSrc⟩

theorem State.SourceHolds.fetchSource {s : State} {a n : Nat} {bytes : List Byte} (h : s.SourceHolds a bytes)
    (hn : bytes.length = n) : fetchSource n a s = .ok bytes := by
  have hleft := h.left
  unfold Machine.fetchSource
  rw [if_neg (by omega), h.readSrcBytes hn]

theorem State.SourceHolds.fetchCoded {s : State} {c : Byte} {operands : List Byte}
    (h : s.SourceHolds s.srcPos.toNat (c :: operands)) (hlen : operands.length = codedLength c - 1) :
    fetchCoded s = .ok (c :: operands) := by
  have hc : Machine.readSrc s.srcPos.toNat s = .ok c := h.readSrc 0 (Nat.succ_pos _)
  simp only [Machine.fetchCoded, hc, h.tail.fetchSource hlen]

/-- Stage LZ fetches the item of its context that stands at the source cursor (R105, R140). -/
theorem State.SourceHolds.fetchLz {s : State} {i : Instr} (h : s.SourceHolds s.srcPos.toNat (encode i))
    (hwf : i.wellFormed = true) (hctx : i.context = s.lzContext) : fetchLz s = .ok (i.context, encode i) := by
  unfold Machine.fetchLz
  unfold State.lzContext at hctx
  split at hctx
  · rw [if_pos ‹_›, h.fetchSource (encode_length_of_controlWord hctx), hctx]
    rfl
  · rw [if_neg ‹_›]
    cases hbit : s.controlBit <;> rw [hbit] at hctx
    · rw [h.readSrcBytes (encode_length_of_literal hctx), hctx]
      rfl
    · obtain ⟨c, operands, henc, hlen⟩ := encode_coded hwf hctx
      rw [henc] at h ⊢
      rw [h.fetchCoded hlen, hctx]
      rfl

/-- Settles O7: what stage LZ fetches is the encoding at the cursor, and it decodes to its instruction. -/
theorem streamInstructionRuns : Obligations.StreamInstructionRuns := by
  unfold Obligations.StreamInstructionRuns
  intro s i hturns hb hg hwf hctx hholds hleft hsize
  have hsrc : s.SourceHolds s.srcPos.toNat (encode i) := ⟨hholds, hleft, hsize⟩
  have hend : s.srcPos ≠ s.srcEnd := by
    have hpos := encode_length_pos i
    rintro heq
    rw [heq] at hleft
    omega
  have hfetch : fetch s = .ok (i.context, encode i) := by
    simp only [fetch, hg, if_neg hend]
    exact hsrc.fetchLz hwf hctx
  have hdec : decode i.context (encode i) = .ok (i, []) := by
    simpa using decode_encode_append hwf []
  rw [step_of_no_turns s hturns, engineTurn_of_decode hb hfetch hdec]

end Sys2Proof.Machine
end

section
/-! PROOFS. CWLOAD and the tokens: what each does when its bytes are there and its output fits, and that an output that
does not fit raises `CAPACITY`. -/

namespace Sys2Proof.Machine

/-- `CW_ORDER` names the high byte of a control word (R63). -/
theorem controlWord_toNat (order : ByteOrder) (b0 b1 : Byte) :
    (order = .be → (controlWord order b0 b1).toNat = 256 * b0.toNat + b1.toNat) ∧
      (order = .le → (controlWord order b0 b1).toNat = 256 * b1.toNat + b0.toNat) := by
  refine ⟨?_, ?_⟩ <;> rintro rfl <;> exact toNat_append_byte _ _

/-- Settles O11: the control word is loaded and the cursor moves by its two bytes, which lie below `SRC_END`. -/
theorem cwloadLoadsControlWord : Obligations.CwloadLoadsControlWord := by
  unfold Obligations.CwloadLoadsControlWord
  intro s b0 b1 hleft
  obtain ⟨hbe, hle⟩ := controlWord_toNat s.params.cwOrder b0 b1
  exact ⟨_, if_neg (Nat.not_lt.mpr hleft), hbe, hle, rfl, s.advanceSrc_toNat 2 (by omega), rfl⟩

/-! The effect of a token. -/

/-- A token that emitted within the capacity and whose bytes lie below `SRC_END` has the effect of a token (R142 to R147). -/
theorem State.Emission.tokenEffect {s : State} {n k : Nat} {mem : Mem} {pos : BitVec 32} (he : s.Emission n mem pos)
    (hleft : s.srcPos.toNat + k ≤ s.srcEnd.toNat) :
    s.TokenEffect ((s.tokenDecision.withOutput mem pos).advanceSrc k) n k where
  cw := rfl
  cwCnt _ := by
    have hlt := s.cwCnt.isLt
    show (BitVec.ofNat 5 (s.cwCnt.toNat - 1)).toNat = _
    rw [BitVec.toNat_ofNat]
    exact Nat.mod_eq_of_lt (by omega)
  srcPos := s.advanceSrc_toNat k hleft
  outPos := he.pos
  outside := he.kept
  rest := rfl

theorem andThen_of_ok {α : Type} {r : Except Fault α} {v : α} (h : r = .ok v) (k : α → Result) :
    andThen r k = k v := by
  rw [h]
  rfl

/-- A run token that fits has its effect and writes its byte throughout (R143 to R145). -/
theorem runToken_effect {s : State} {n k : Nat} (b : Byte) (hleft : s.srcPos.toNat + k ≤ s.srcEnd.toNat)
    (hfits : s.outPos.toNat + n ≤ s.ecap) :
    ∃ t, runToken n b k s.tokenDecision = .next t ∧ s.TokenEffect t n k ∧
      ∀ j < n, Mem.read t.outMem (s.outPos.toNat + j) = some b := by
  have hemit := (emission_of_emitRun (s := s.tokenDecision) b hfits).of_tokenDecision
  refine ⟨(s.tokenDecision.emitRun b n).advanceSrc k, if_pos hfits, ?_, fun j hj => ?_⟩
  · rw [(State.emitRun_onlyOutput b n s.tokenDecision).eq_withOutput]
    exact hemit.tokenEffect hleft
  · exact (State.emitRun_read b n s.tokenDecision _ (State.no_wrap_of_fits hfits)).trans
      (if_pos ⟨Nat.le_add_right .., Nat.add_lt_add_left hj _⟩)

/-- A back-reference in range that fits has its effect, and each byte it emits is the byte `offset` before it (R148). -/
theorem backCopy_effect {s : State} {offset n k : Nat} (ho : 0 < offset) (hoff : offset ≤ s.outPos.toNat)
    (hleft : s.srcPos.toNat + k ≤ s.srcEnd.toNat) (hfits : s.outPos.toNat + n ≤ s.ecap) (hout : s.OutWritten) :
    ∃ t, backCopy offset n k s.tokenDecision = .next t ∧ s.TokenEffect t n k ∧
      ∀ q, s.outPos.toNat ≤ q → q < s.outPos.toNat + n →
        Mem.read t.outMem q = Mem.read t.outMem (q - offset) ∧ (Mem.read t.outMem q).isSome := by
  have hwrap := State.no_wrap_of_fits hfits
  obtain ⟨u, hu⟩ := copyLoop_answers offset ho n s.tokenDecision hoff hwrap (Nat.le_trans hfits s.ecap_le.1) hout
  obtain ⟨honly, -, -, hcopied, -, -⟩ := copyLoop_spec offset ho n s.tokenDecision u hoff hwrap hu
  have hemit := (emission_of_copyLoop ho hoff (s := s.tokenDecision) hfits hu).of_tokenDecision
  refine ⟨u.advanceSrc k, ?_, ?_, hcopied⟩
  · exact (if_neg (Nat.not_lt.mpr hoff)).trans ((if_pos hfits).trans (andThen_of_ok hu _))
  · rw [honly.eq_withOutput]
    exact hemit.tokenEffect hleft

/-- A coded token whose bytes are there runs its body (R151). -/
theorem codedToken_of_left {k : Nat} {s : State} (hleft : k ≤ s.srcEnd.toNat - s.srcPos.toNat) (body : State → Result) :
    codedToken k s body = body s.tokenDecision :=
  if_neg (Nat.not_lt.mpr hleft)

/-- Settles O13: a literal is a run of one byte. -/
theorem litEmitsByte : Obligations.LitEmitsByte := by
  unfold Obligations.LitEmitsByte
  intro s b hleft hfits
  obtain ⟨t, ht, heffect, hread⟩ := runToken_effect (k := 1) b (by omega) hfits
  exact ⟨t, ht, heffect, hread 0 Nat.one_pos⟩

/-- Settles O16: the copy of `BREF`. -/
theorem brefCopies : Obligations.BrefCopies := by
  unfold Obligations.BrefCopies
  intro s h l o hleft hoff hfits hout
  obtain ⟨t, ht, hcopy⟩ := backCopy_effect (k := 2) (Nat.succ_pos _) hoff (by omega) hfits hout
  exact ⟨t, (codedToken_of_left hleft _).trans ht, hcopy⟩

/-- Settles O17: the copy of `BREFX`. -/
theorem brefxCopies : Obligations.BrefxCopies := by
  unfold Obligations.BrefxCopies
  intro s l o n hleft hoff hfits hout
  obtain ⟨t, ht, hcopy⟩ := backCopy_effect (k := 3) (Nat.succ_pos _) hoff (by omega) hfits hout
  exact ⟨t, (codedToken_of_left hleft _).trans ht, hcopy⟩

/-! The capacity (R69, R151). -/

theorem withCapacity_of_over {n : Nat} {s : State} (h : s.ecap < s.outPos.toNat + n) (k : Result) :
    withCapacity n s k = .next (s.errorEntry .decodeError .capacity) :=
  if_neg (Nat.not_le.mpr h)

theorem runToken_of_over {n : Nat} {s : State} (h : s.ecap < s.outPos.toNat + n) (b : Byte) (k : Nat) :
    runToken n b k s = .next (s.errorEntry .decodeError .capacity) :=
  withCapacity_of_over h _

theorem backCopy_of_over {offset n : Nat} {s : State} (hoff : offset ≤ s.outPos.toNat)
    (h : s.ecap < s.outPos.toNat + n) (k : Nat) :
    backCopy offset n k s = .next (s.errorEntry .decodeError .capacity) :=
  (if_neg (Nat.not_lt.mpr hoff)).trans (withCapacity_of_over h _)

theorem rawStep_of_over {s : State} (h : s.ecap < s.outPos.toNat + s.srcLeft) :
    rawStep s = .next (s.errorEntry .decodeError .capacity) :=
  withCapacity_of_over h _

/-- In stage RAW the two block modes without the LZ bit take the RAW step (R130, R132). -/
theorem exec_of_raw {s : State} (hg : s.stage = .raw) (x : BitVec 6) (pre : BitVec 16) :
    exec (.blkRaw x) s = rawStep s ∧ exec (.blkHuf x pre) s = rawStep s := by
  simp only [exec, execBlkRaw, execBlkHuf, hg, and_self]

/-- Settles O21: token by token, the checks before the capacity having passed, and the RAW step. -/
theorem capacityRaises : Obligations.CapacityRaises := by
  unfold Obligations.CapacityRaises
  intro s
  refine ⟨fun b h => runToken_of_over (s := s.tokenDecision) h b 1, fun l b hleft h => ?_, fun l n1 b hleft h => ?_,
    fun hi l o hleft hoff h => ?_, fun l o n hleft hoff h => ?_, fun hg h x pre => ?_⟩
  · exact (codedToken_of_left hleft _).trans (runToken_of_over (s := s.tokenDecision) h b 2)
  · exact (codedToken_of_left hleft _).trans (runToken_of_over (s := s.tokenDecision) h b 3)
  · exact (codedToken_of_left hleft _).trans (backCopy_of_over (s := s.tokenDecision) hoff h 2)
  · exact (codedToken_of_left hleft _).trans (backCopy_of_over (s := s.tokenDecision) hoff h 3)
  · obtain ⟨hraw, hhuf⟩ := exec_of_raw hg x pre
    rw [hraw, hhuf]
    exact ⟨rawStep_of_over h, rawStep_of_over h⟩

end Sys2Proof.Machine
end

section
/-! PROOFS. FRAME on a whole frame, with and without the Huffman bit, and the RAW stage on a source that fits. -/

namespace Sys2Proof.Machine

/-- `payloadLength` is little-endian (R61). -/
theorem payloadLength_toNat (lo hi : Byte) : (payloadLength lo hi).toNat = lo.toNat + 256 * hi.toNat := by
  rw [payloadLength, toNat_append_byte, Nat.add_comm]

theorem memRead_inMem_of_read {s : State} {a : Nat} {b : Byte} (ha : a < Config.inMemBytes)
    (h : Mem.read s.inMem a = some b) : memRead .inMem a s = .ok b :=
  (memRead_ok_iff ..).mpr ⟨ha, h⟩

/-- On a whole frame with a flag byte the header part of FRAME goes on with `PAYLEN` (R120). -/
theorem frameHeader_of_whole {s : State} {lo hi : Byte} (hlen : 4 + (lo.toNat + 256 * hi.toNat) ≤ s.inLen.toNat)
    (hpl : 1 ≤ lo.toNat + 256 * hi.toNat) (k : State → Result) :
    frameHeader lo hi s k = k { s with paylen := payloadLength lo hi } := by
  rw [← payloadLength_toNat] at hlen hpl
  obtain ⟨h, -⟩ | ⟨-, h, -⟩ | ⟨-, h, -⟩ | ⟨-, -, hr⟩ := frameHeader_cases lo hi s k
  · omega
  · omega
  · simp [h] at hpl
  · exact hr

/-- Without the Huffman bit the flag part of FRAME enters the plain block (R122, R126). -/
theorem frameFlags_of_plain {s : State} {flg : Byte} (hflg : Mem.read s.inMem 4 = some flg) (h : flagHuf flg = false) :
    frameFlags s = .next { s with flags := flg }.enterPlain := by
  have hread : memRead .inMem 4 s = .ok flg := memRead_inMem_of_read (by decide) hflg
  exact (andThen_of_ok hread _).trans (if_neg (Bool.eq_false_iff.mp h))

/-- With the Huffman bit and its header in the frame, the flag part of FRAME latches `PRELZ` (R122, R124). -/
theorem frameFlags_of_huffman {s : State} {flg p q : Byte} (hflg : Mem.read s.inMem 4 = some flg)
    (h : flagHuf flg = true) (hpl : 3 ≤ s.paylen.toNat) (hp : Mem.read s.inMem 5 = some p)
    (hq : Mem.read s.inMem 6 = some q) :
    frameFlags s = .next ({ s with flags := flg }.enterHuffman (preLzSize p q)) := by
  have hread : memRead .inMem 4 s = .ok flg := memRead_inMem_of_read (by decide) hflg
  have hread1 : memRead .inMem 5 { s with flags := flg } = .ok p := memRead_inMem_of_read (by decide) hp
  have hread2 : memRead .inMem 6 { s with flags := flg } = .ok q := memRead_inMem_of_read (by decide) hq
  refine (andThen_of_ok hread _).trans ((if_pos h).trans ((if_neg (Nat.not_lt.mpr hpl)).trans ?_))
  exact (andThen_of_ok hread1 _).trans (andThen_of_ok hread2 _)

/-- Settles O25: the header part goes on, and the flag part enters the plain block. -/
theorem frameEntersPlainBlock : Obligations.FrameEntersPlainBlock := by
  unfold Obligations.FrameEntersPlainBlock
  intro s lo hi r0 r1 flg hlen hpl hflg hhuf
  have hpay := payloadLength_toNat lo hi
  exact ⟨_, (frameHeader_of_whole hlen hpl frameFlags).trans (frameFlags_of_plain hflg hhuf), hpay, rfl, rfl, rfl,
    (toNat_ofNat_payloadEnd _).trans (congrArg (4 + ·) hpay), rfl, rfl⟩

/-- Settles O26: the header part goes on, and the flag part latches `PRELZ`, which `SRC_END` has room for. -/
theorem frameEntersHuffmanBlock : Obligations.FrameEntersHuffmanBlock := by
  unfold Obligations.FrameEntersHuffmanBlock
  intro s lo hi r0 r1 flg p q hlen hpl hflg hhuf hp hq
  have hpay := payloadLength_toNat lo hi
  have hpre : (preLzSize p q).toNat = 256 * p.toNat + q.toNat := toNat_append_byte p q
  have hend : ((preLzSize p q).setWidth 17).toNat = (preLzSize p q).toNat := BitVec.toNat_setWidth_of_le (by decide)
  exact ⟨_, (frameHeader_of_whole hlen (by omega) frameFlags).trans
    (frameFlags_of_huffman hflg hhuf (hpl.trans hpay.ge) hp hq), hpay, rfl, hpre, rfl, rfl, hend.trans hpre, rfl, rfl⟩

/-- Settles O29: both block modes take the RAW step, which emits the source. -/
theorem rawStageCopies : Obligations.RawStageCopies := by
  unfold Obligations.RawStageCopies
  intro s x pre src hg hend hsrc hsize hfits
  obtain ⟨hraw, hhuf⟩ := exec_of_raw hg x pre
  obtain ⟨mem, pos, hstep, hemit, hout⟩ := rawStep_copies hend hsize hsrc hfits
  exact ⟨_, hraw.trans hstep, hhuf.trans hstep, hout, hemit.kept, hemit.pos, rfl, rfl, rfl⟩

end Sys2Proof.Machine
end

section
/-! PROOFS. Decoding and encoding are inverse to each other, and the opcode map of the coded tokens by match and mask. -/

namespace Sys2Proof.Machine

/-- Settles O1: instruction by instruction, `rest` being what the decoder leaves. -/
theorem decodeInvertsEncode : Obligations.DecodeInvertsEncode := by
  unfold Obligations.DecodeInvertsEncode
  intro i rest hwf
  exact decode_encode_append hwf rest

/-! Encoding inverts decoding. -/

theorem flagByte_of_fields (flg : Byte) : flagByte (flagRest flg) (flagHuf flg) (flagLz flg) = flg := by
  revert flg
  decide

@[simp] theorem highByte_preLzSize (p q : Byte) : highByte (preLzSize p q) = p := BitVec.extractLsb'_append_eq_left

@[simp] theorem lowByte_preLzSize (p q : Byte) : lowByte (preLzSize p q) = q := BitVec.extractLsb'_append_eq_right

@[simp] theorem highNibble_append_lowNibble (c : Byte) : highNibble c ++ lowNibble c = c := by
  unfold highNibble lowNibble
  rw [BitVec.extractLsb'_append_extractLsb'_eq_extractLsb' (by decide)]
  simp

/-- A block mode is its flag byte, and `preLzSize` where the Huffman bit is set (R93, R95). -/
theorem encode_blockInstr (huf lz : Bool) (x : BitVec 6) (pre : BitVec 16) :
    encode (blockInstr huf lz x pre) =
      flagByte x huf lz :: if huf then [highByte pre, lowByte pre] else [] := by
  cases huf <;> cases lz <;> rfl

theorem blockInstr_wellFormed (huf lz : Bool) (x : BitVec 6) (pre : BitVec 16) :
    (blockInstr huf lz x pre).wellFormed = true := by
  cases huf <;> cases lz <;> rfl

theorem encode_of_decodeFlag {flg : Byte} {bytes rest : List Byte} {i : Instr}
    (h : decodeFlag flg bytes = .ok (i, rest)) : i.wellFormed = true ∧ encode i ++ rest = flg :: bytes := by
  have hflg := flagByte_of_fields flg
  unfold decodeFlag at h
  split at h
  case isTrue hhuf =>
    split at h <;> cases h
    rw [hhuf] at hflg
    exact ⟨blockInstr_wellFormed .., by simp [encode_blockInstr, hflg]⟩
  case isFalse hhuf =>
    cases h
    rw [Bool.eq_false_iff.mpr hhuf] at hflg
    exact ⟨blockInstr_wellFormed .., by simp [encode_blockInstr, hflg]⟩

/-- A high nibble that is no other token's is the `H` of a `BREF` (R100). -/
theorem Instr.bref_wellFormed_of_ne {h l : Nibble} {o : Byte} (h0 : h ≠ 0) (h1 : h ≠ 1) (h2 : h ≠ 2) :
    (Instr.bref h l o).wellFormed = true := by
  have key : ∀ h : Nibble, h ≠ 0 → h ≠ 1 → h ≠ 2 → 3 ≤ h.toNat := by decide
  exact decide_eq_true (key h h0 h1 h2)

theorem encode_of_decodeCoded {c : Byte} {bytes rest : List Byte} {i : Instr}
    (h : decodeCoded c bytes = .ok (i, rest)) : i.wellFormed = true ∧ encode i ++ rest = c :: bytes := by
  have hc := highNibble_append_lowNibble c
  unfold decodeCoded at h
  split at h
  case isTrue h0 =>
    split at h <;> cases h
    rw [h0] at hc
    exact ⟨rfl, congrArg (· :: _) hc⟩
  case isFalse h0 =>
    split at h
    case isTrue h1 =>
      split at h <;> cases h
      rw [h1] at hc
      exact ⟨rfl, congrArg (· :: _) hc⟩
    case isFalse h1 =>
      split at h
      case isTrue h2 =>
        split at h <;> cases h
        rw [h2] at hc
        exact ⟨rfl, congrArg (· :: _) hc⟩
      case isFalse h2 =>
        split at h <;> cases h
        exact ⟨Instr.bref_wellFormed_of_ne h0 h1 h2, by simp [encode]⟩

/-- What the decoder reads encodes to the bytes it took (R100, R107). -/
theorem encode_of_decode {ctx : Context} {bytes rest : List Byte} {i : Instr} (h : decode ctx bytes = .ok (i, rest)) :
    i.wellFormed = true ∧ encode i ++ rest = bytes := by
  cases ctx with
  | header | controlWord =>
    simp only [decode] at h
    split at h <;> cases h
    exact ⟨rfl, rfl⟩
  | flagByte =>
    simp only [decode] at h
    split at h
    · exact encode_of_decodeFlag h
    · cases h
  | token bit =>
    cases bit with
    | false =>
      simp only [decode] at h
      split at h <;> cases h
      exact ⟨rfl, rfl⟩
    | true =>
      simp only [decode] at h
      split at h
      · exact encode_of_decodeCoded h
      · cases h

/-- Settles O2: context by context, and in a token's by its high nibble. -/
theorem encodeInvertsDecode : Obligations.EncodeInvertsDecode := by
  unfold Obligations.EncodeInvertsDecode
  intro ctx bytes rest i h
  obtain ⟨hwf, henc⟩ := encode_of_decode h
  exact ⟨hwf, decode_context h, henc⟩

/-! The token opcode map (R100). -/

theorem highNibble_and (c m : Byte) : highNibble (c &&& m) = highNibble c &&& highNibble m := BitVec.extractLsb'_and

/-- The mask `F0` tests the whole high nibble. -/
theorem highNibble_of_and_F0 {c v : Byte} (h : c &&& 0xF0#8 = v) : highNibble c = highNibble v := by
  rw [← h, highNibble_and]
  exact (BitVec.and_allOnes (x := highNibble c)).symm

/-- The three pairs of `BREF` meet no high nibble of another token. -/
theorem highNibble_of_bref_pairs {c : Byte}
    (h : c &&& 0xF0#8 = 0x30#8 ∨ c &&& 0xC0#8 = 0x40#8 ∨ c &&& 0x80#8 = 0x80#8) :
    highNibble c ≠ 0 ∧ highNibble c ≠ 1 ∧ highNibble c ≠ 2 := by
  revert c
  decide

/-- A control byte whose high nibble is no other token's begins a `BREF`. -/
theorem decodeCoded_bref {c : Byte} (h0 : highNibble c ≠ 0) (h1 : highNibble c ≠ 1) (h2 : highNibble c ≠ 2) (o : Byte)
    (rest : List Byte) : decodeCoded c (o :: rest) = .ok (.bref (highNibble c) (lowNibble c) o, rest) :=
  (if_neg h0).trans ((if_neg h1).trans (if_neg h2))

theorem exactly_one_opcode_pair (c : Byte) :
    [decide (c &&& 0xF0#8 = 0x00#8), decide (c &&& 0xF0#8 = 0x10#8), decide (c &&& 0xF0#8 = 0x20#8),
      decide (c &&& 0xF0#8 = 0x30#8), decide (c &&& 0xC0#8 = 0x40#8), decide (c &&& 0x80#8 = 0x80#8)].count true = 1 := by
  revert c
  decide

/-- Settles O3: each pair fixes what the decoder asks of the high nibble. -/
theorem tokenOpcodeMap : Obligations.TokenOpcodeMap := by
  unfold Obligations.TokenOpcodeMap
  intro c o n rest
  refine ⟨rfl, fun h => ?srun, fun h => ?lrun, fun h => ?brefx, fun h => ?bref, exactly_one_opcode_pair c⟩
  case srun =>
    have h0 : highNibble c = 0 := highNibble_of_and_F0 h
    exact if_pos h0
  case lrun =>
    have h1 : highNibble c = 1 := highNibble_of_and_F0 h
    simp [decode, decodeCoded, h1]
  case brefx =>
    have h2 : highNibble c = 2 := highNibble_of_and_F0 h
    simp [decode, decodeCoded, h2]
  case bref =>
    obtain ⟨h0, h1, h2⟩ := highNibble_of_bref_pairs h
    exact decodeCoded_bref h0 h1 h2 o rest

/-- Settles O5: the decoder evaluated on seven words. -/
theorem wordsOfTheSpecDecode : Obligations.WordsOfTheSpecDecode := by
  unfold Obligations.WordsOfTheSpecDecode
  decide

end Sys2Proof.Machine
end

section
/-! PROOFS. The runs SRUN and LRUN when their bytes are there and their output fits. -/

namespace Sys2Proof.Machine

/-- A coded run token whose bytes are there and that fits has the effect of a run (R144, R145). -/
theorem codedRun_effect {s : State} {n k : Nat} (b : Byte) (hk : 1 ≤ k) (hleft : k ≤ s.srcEnd.toNat - s.srcPos.toNat)
    (hfits : s.outPos.toNat + n ≤ s.ecap) :
    ∃ t, codedToken k s (runToken n b k) = .next t ∧ s.TokenEffect t n k ∧
      ∀ j < n, Mem.read t.outMem (s.outPos.toNat + j) = some b := by
  rw [codedToken_of_left hleft]
  exact runToken_effect b (by omega) hfits

/-- Settles O14: a run of `L + 3` bytes. -/
theorem srunEmitsRun : Obligations.SrunEmitsRun := by
  unfold Obligations.SrunEmitsRun
  intro s l b hleft hfits
  exact codedRun_effect b (by decide) hleft hfits

/-- Settles O15: a run of `L + 16 * n1 + 19` bytes. -/
theorem lrunEmitsRun : Obligations.LrunEmitsRun := by
  unfold Obligations.LrunEmitsRun
  intro s l n1 b hleft hfits
  exact codedRun_effect b (by decide) hleft hfits

end Sys2Proof.Machine
end

section
/-! PROOFS. An instruction placed for the next step is what that step runs (log 8). -/

namespace Sys2Proof.Machine

/-- The instruction placed, and no host turn pending. -/
def State.placed (s : State) (i : Instr) : State := { placeInstr s i with hostTurns := [] }

theorem State.withFetchWord_of_some {nbits w : Nat} {i : Instr} (h : decodeTableWord nbits w = some i) (s : State) :
    s.withFetchWord nbits w = s.placed i := by
  unfold State.withFetchWord
  rw [h]
  rfl

theorem wellFormed_of_decodeTableWord {nbits w : Nat} {i : Instr} (h : decodeTableWord nbits w = some i) :
    i.wellFormed = true := by
  unfold decodeTableWord at h
  split at h <;> cases h
  exact (encode_of_decode ‹_›).1

theorem Mem.holds_writeList (m : Mem) (a : Nat) (bytes : List Byte) : Mem.holds (Mem.writeList m a bytes) a bytes := by
  intro k hk
  rw [Mem.read_writeList, if_pos ⟨Nat.le_add_right .., Nat.add_lt_add_left hk _⟩, Nat.add_sub_cancel_left]
  exact List.getElem?_eq_getElem hk

theorem encode_length_le (i : Instr) : (encode i).length ≤ 4 := by
  cases i <;> simp [encode]

/-- An item of the stream, placed as the whole source of stage LZ, is run (R140). -/
theorem step_placeStream (s : State) {i : Instr} {cw : BitVec 16} {cnt : BitVec 5} (hwf : i.wellFormed = true)
    (hctx : i.context = if cnt = 0 then .controlWord else .token (cw.getLsbD 15)) :
    step { placeStream s (encode i) cw cnt with hostTurns := [] } =
      exec i { placeStream s (encode i) cw cnt with hostTurns := [] } := by
  have hlen := encode_length_le i
  have hend : (BitVec.ofNat 17 (4 + 1 + (encode i).length)).toNat = 5 + (encode i).length :=
    (BitVec.toNat_ofNat ..).trans (Nat.mod_eq_of_lt (by omega))
  refine streamInstructionRuns _ i rfl rfl rfl hwf hctx (Mem.holds_writeList s.inMem 5 (encode i)) hend.ge ?_
  exact hend.le.trans (show 5 + (encode i).length ≤ 65539 by omega)

/-- A placed header is fetched but for its reserved bytes, which have no effect (R92). -/
theorem step_placed_frame (s : State) (lo hi r0 r1 : Byte) :
    step (s.placed (.frame lo hi r0 r1)) = exec (.frame lo hi r0 r1) (s.placed (.frame lo hi r0 r1)) := by
  have hread := Mem.holds_writeList s.inMem 0 [lo, hi, r0, r1]
  have hlo : memRead .inMem 0 (s.placed (.frame lo hi r0 r1)) = .ok lo :=
    memRead_inMem_of_read (by decide) (hread 0 (Nat.succ_pos _))
  have hhi : memRead .inMem 1 (s.placed (.frame lo hi r0 r1)) = .ok hi :=
    memRead_inMem_of_read (by decide) (hread 1 (Nat.succ_lt_succ (Nat.succ_pos _)))
  have hlen : ¬ (s.placed (.frame lo hi r0 r1)).inLen.toNat < Config.frameHdrBytes := (by decide : ¬ 4 < 4)
  have hfetch : fetchHeader (s.placed (.frame lo hi r0 r1)) = .ok [lo, hi, 0, 0] := by
    unfold fetchHeader
    rw [if_neg hlen, hlo, hhi]
  rw [step_of_no_turns _ rfl, engineTurn_of_frame rfl rfl, andThen_of_ok hfetch]
  rfl

/-- A placed block is BUSY in the stage it is placed in, with its flag byte latched. -/
theorem placeBlock_fields (s : State) (flg : Byte) (pre : BitVec 16) (g : Stage) :
    (placeBlock s flg pre g).state = .busy ∧ (placeBlock s flg pre g).stage = g ∧
      (placeBlock s flg pre g).flags = flg := by
  unfold placeBlock
  split <;> exact ⟨rfl, rfl, rfl⟩

theorem exec_blkLz_of_lz {s : State} (hg : s.stage = .lz) (x : BitVec 6) : exec (.blkLz x) s = lzStep s := by
  simp only [exec, execBlkLz, hg]

/-- In stage HUFF the two block modes with the Huffman bit take the HUFF step (R132, R133). -/
theorem exec_of_huff {s : State} (hg : s.stage = .huff) (x : BitVec 6) (pre : BitVec 16) :
    exec (.blkHuf x pre) s = huffStep .raw s ∧ exec (.blkHufLz x pre) s = huffStep .lz s := by
  simp only [exec, execBlkHuf, execBlkHufLz, hg, and_self]

theorem State.placed_blockInstr_fields (s : State) (huf lz : Bool) (x : BitVec 6) (pre : BitVec 16) :
    (s.placed (blockInstr huf lz x pre)).state = .busy ∧
      (s.placed (blockInstr huf lz x pre)).stage = (bif huf then .huff else bif lz then .lz else .raw) ∧
      (s.placed (blockInstr huf lz x pre)).flags = flagByte x huf lz := by
  cases huf <;> cases lz <;> exact placeBlock_fields s ..

/-- A placed block mode takes the stage step of its first stage after FRAME, and so does its meaning (R125). -/
theorem step_placed_blockInstr (s : State) (huf lz : Bool) (x : BitVec 6) (pre : BitVec 16) :
    step (s.placed (blockInstr huf lz x pre)) = exec (blockInstr huf lz x pre) (s.placed (blockInstr huf lz x pre)) := by
  obtain ⟨hb, hg, hflags⟩ := s.placed_blockInstr_fields huf lz x pre
  rw [step_of_no_turns _ rfl]
  match huf, lz with
  | false, false => exact (engineTurn_of_raw hb hg).trans (exec_of_raw hg x pre).1.symm
  | false, true => exact (engineTurn_of_lz hb hg).trans (exec_blkLz_of_lz hg x).symm
  | true, lz =>
    obtain ⟨-, -, hlz⟩ := flagByte_fields x true lz
    rw [engineTurn_of_huff hb hg, hflags, hlz]
    cases lz with
    | false => exact (exec_of_huff hg x pre).1.symm
    | true => exact (exec_of_huff hg x pre).2.symm

theorem step_placed {i : Instr} (hwf : i.wellFormed = true) (s : State) : step (s.placed i) = exec i (s.placed i) := by
  cases i with
  | frame lo hi r0 r1 => exact step_placed_frame s lo hi r0 r1
  | blkRaw x => exact step_placed_blockInstr s false false x 0
  | blkLz x => exact step_placed_blockInstr s false true x 0
  | blkHuf x pre => exact step_placed_blockInstr s true false x pre
  | blkHufLz x pre => exact step_placed_blockInstr s true true x pre
  | cwload | lit | srun | lrun | brefx | bref => exact step_placeStream s hwf rfl

/-- Settles O10: a decoded word is well formed, and a well-formed instruction placed is run. -/
theorem placedWordRunsNext : Obligations.PlacedWordRunsNext := by
  unfold Obligations.PlacedWordRunsNext
  intro s nbits w i h
  rw [State.withFetchWord_of_some h]
  exact step_placed (wellFormed_of_decodeTableWord h) s

end Sys2Proof.Machine
end

section
/-! PROOFS. No step is refused: what follows a fetch refuses nothing, and whatever is fetched decodes. -/

namespace Sys2Proof.Machine

/-- The outcome is a next state or a fault. -/
def NeverRefuses (r : Result) : Prop := ∀ x, r ≠ .refused x

theorem neverRefuses_next (t : State) : NeverRefuses (.next t) := nofun

theorem neverRefuses_fault (f : Fault) : NeverRefuses (.fault f) := nofun

theorem Answers.neverRefuses {r : Result} (h : Answers r) : NeverRefuses r := by
  obtain ⟨t, rfl⟩ := h
  exact neverRefuses_next t

theorem neverRefuses_andThen {α : Type} {r : Except Fault α} {k : α → Result}
    (hk : ∀ v, r = .ok v → NeverRefuses (k v)) : NeverRefuses (andThen r k) := by
  intro x hx
  obtain ⟨v, hv, hx⟩ := (andThen_refused_iff ..).mp hx
  exact hk v hv x hx

/-! The items of the stream. -/

theorem backCopy_neverRefuses (offset n k : Nat) (s : State) : NeverRefuses (backCopy offset n k s) := by
  obtain ⟨-, hr⟩ | ⟨-, -, hr⟩ | ⟨-, -, ⟨u, -, hr⟩ | ⟨f, -, hr⟩⟩ := backCopy_cases offset n k s <;> rw [hr]
  · exact neverRefuses_next _
  · exact neverRefuses_next _
  · exact neverRefuses_next _
  · exact neverRefuses_fault f

theorem codedToken_neverRefuses {s : State} {k : Nat} {body : State → Result}
    (h : NeverRefuses (body s.tokenDecision)) : NeverRefuses (codedToken k s body) := by
  obtain ⟨-, hr⟩ | ⟨-, hr⟩ := codedToken_cases k s body <;> rw [hr]
  · exact neverRefuses_next _
  · exact h

theorem execLzItem_neverRefuses (i : Instr) (s : State) : NeverRefuses (execLzItem i s) := by
  have hrun (n : Nat) (b : Byte) (k : Nat) := (runToken_answers n b k s.tokenDecision).neverRefuses
  have hcopy (offset n k : Nat) := backCopy_neverRefuses offset n k s.tokenDecision
  cases i with
  | cwload b0 b1 =>
    simp only [execLzItem, execCwload]
    split <;> exact neverRefuses_next _
  | lit b => exact hrun 1 b 1
  | srun l b => exact codedToken_neverRefuses (hrun _ b 2)
  | lrun l n1 b => exact codedToken_neverRefuses (hrun _ b 3)
  | brefx l o n => exact codedToken_neverRefuses (hcopy _ _ 3)
  | bref h l o => exact codedToken_neverRefuses (hcopy _ _ 2)
  | frame | blkRaw | blkLz | blkHuf | blkHufLz => exact neverRefuses_fault _

/-! The stage steps. -/

theorem frameFlags_neverRefuses (s : State) : NeverRefuses (frameFlags s) := by
  refine neverRefuses_andThen fun flg _ => ?_
  cases flagHuf flg with
  | false => exact neverRefuses_next _
  | true =>
    simp only [if_true]
    obtain ⟨-, hr⟩ | ⟨-, hr⟩ := huffmanHeader_cases { s with flags := flg } _ <;> rw [hr]
    · exact neverRefuses_next _
    · exact neverRefuses_andThen fun p _ => neverRefuses_andThen fun q _ => neverRefuses_next _

theorem execFrame_neverRefuses (lo hi r0 r1 : Byte) (s : State) : NeverRefuses (execFrame lo hi r0 r1 s) := by
  unfold execFrame
  obtain ⟨-, hr⟩ | ⟨-, -, hr⟩ | ⟨-, -, hr⟩ | ⟨-, -, hr⟩ := frameHeader_cases lo hi s frameFlags <;> rw [hr]
  · exact neverRefuses_next _
  · exact neverRefuses_next _
  · exact neverRefuses_next _
  · exact frameFlags_neverRefuses _

theorem lzStep_neverRefuses (s : State) : NeverRefuses (lzStep s) := by
  unfold lzStep
  split
  · exact neverRefuses_next _
  · refine neverRefuses_andThen fun f hf => ?_
    obtain ⟨⟨i, rest⟩, hd⟩ := fetchLz_decodes hf
    rw [withDecoded_of_decode hd]
    exact execLzItem_neverRefuses i s

theorem rawStep_neverRefuses (s : State) : NeverRefuses (rawStep s) := by
  obtain ⟨-, hr⟩ | ⟨-, ⟨u, -, hr⟩ | ⟨f, -, hr⟩⟩ := rawStep_cases s <;> rw [hr]
  · exact neverRefuses_next _
  · exact neverRefuses_next _
  · exact neverRefuses_fault f

theorem engineTurn_neverRefuses (s : State) : NeverRefuses (engineTurn s) := by
  by_cases hb : s.state = .busy
  case neg => exact engineTurn_of_not_busy s hb ▸ neverRefuses_next s
  cases hg : s.stage with
  | none =>
    rw [engineTurn_of_busy s hb, fetch, hg]
    exact neverRefuses_fault _
  | frame =>
    rw [engineTurn_of_frame hb hg]
    refine neverRefuses_andThen fun bytes hbytes => ?_
    obtain ⟨-, rfl⟩ | ⟨lo, hi, -, -, rfl⟩ := fetchHeader_ok hbytes
    · exact execFrame_neverRefuses 0 0 0 0 s
    · exact execFrame_neverRefuses lo hi 0 0 s
  | huff =>
    rw [engineTurn_of_huff hb hg]
    exact neverRefuses_andThen fun enc _ => neverRefuses_next _
  | lz => exact engineTurn_of_lz hb hg ▸ lzStep_neverRefuses s
  | raw => exact engineTurn_of_raw hb hg ▸ rawStep_neverRefuses s
  | finish => exact engineTurn_of_finish hb hg ▸ neverRefuses_next _

/-- Settles O45: a move of the host answers, and no turn of the engine is refused. -/
theorem stepNeverRefuses : Obligations.StepNeverRefuses := by
  unfold Obligations.StepNeverRefuses
  intro s
  show NeverRefuses (step s)
  cases hs : s.hostTurns with
  | nil => exact step_of_no_turns s hs ▸ engineTurn_neverRefuses s
  | cons turn rest =>
    cases turn with
    | pass => exact step_of_pass hs ▸ engineTurn_neverRefuses _
    | move m => exact step_of_move hs ▸ neverRefuses_next _

end Sys2Proof.Machine
end

section
/-! PROOFS. The block modes stage by stage: FINISH, LZ, the stages a mode lacks, the four errors of FRAME, and that a
block mode in stage FRAME does what FRAME does. -/

namespace Sys2Proof.Machine

/-! The stages after FRAME. -/

/-- Every block mode is the one its two flag bits select (R94). -/
theorem Instr.eq_blockInstr_of_context {i : Instr} (h : i.context = .flagByte) :
    ∃ huf lz x pre, i = blockInstr huf lz x pre := by
  cases i with
  | blkRaw x => exact ⟨false, false, x, 0, rfl⟩
  | blkLz x => exact ⟨false, true, x, 0, rfl⟩
  | blkHuf x pre => exact ⟨true, false, x, pre, rfl⟩
  | blkHufLz x pre => exact ⟨true, true, x, pre, rfl⟩
  | _ => cases h

/-- In stage FINISH every block mode takes the FINISH step (R130 to R133). -/
theorem exec_of_finish {s : State} {i : Instr} (hg : s.stage = .finish) (hctx : i.context = .flagByte) :
    exec i s = finishStep s := by
  obtain ⟨huf, lz, x, pre, rfl⟩ := Instr.eq_blockInstr_of_context hctx
  cases huf <;> cases lz <;>
    simp only [blockInstr, exec, execBlkRaw, execBlkLz, execBlkHuf, execBlkHufLz, hg]

/-- Settles O30: every block mode takes the FINISH step, after which the machine is not BUSY. -/
theorem finishStageReports : Obligations.FinishStageReports := by
  unfold Obligations.FinishStageReports
  intro s i hg hctx
  exact ⟨_, exec_of_finish hg hctx, rfl, toNat_ofNat_payloadEnd s.paylen, rfl, rfl, engineTurn_of_not_busy _ nofun⟩

/-- In stage LZ the two block modes with the LZ bit take the LZ step (R131, R133). -/
theorem exec_of_lz {s : State} (hg : s.stage = .lz) (x : BitVec 6) (pre : BitVec 16) :
    exec (.blkLz x) s = lzStep s ∧ exec (.blkHufLz x pre) s = lzStep s := by
  simp only [exec, execBlkLz, execBlkHufLz, hg, and_self]

/-- Settles O31: both modes take the LZ step, which is the engine's and ends the stage at the end of the source. -/
theorem lzStageOfBlockModes : Obligations.LzStageOfBlockModes := by
  unfold Obligations.LzStageOfBlockModes
  intro s x pre hg
  obtain ⟨hlz, hhuflz⟩ := exec_of_lz hg x pre
  rw [hlz, hhuflz]
  refine ⟨fun hend => ?_, fun hturns hb => ?_⟩
  · exact ⟨if_pos hend, if_pos hend⟩
  · rw [step_of_no_turns s hturns, engineTurn_of_lz hb hg]
    exact ⟨rfl, rfl⟩

/-- Settles O32: mode by mode, in each stage that the mode lacks. -/
theorem blockModeStopsOutsideItsStages : Obligations.BlockModeStopsOutsideItsStages := by
  unfold Obligations.BlockModeStopsOutsideItsStages
  intro s x pre
  refine ⟨?_, ?_, ?_, ?_⟩
  · rintro (hg | hg | hg) <;> simp only [exec, execBlkRaw, hg]
  · rintro (hg | hg | hg) <;> simp only [exec, execBlkLz, hg]
  · rintro (hg | hg) <;> simp only [exec, execBlkHuf, hg]
  · rintro (hg | hg) <;> simp only [exec, execBlkHufLz, hg]

/-! The errors of FRAME (R120, R183 to R186). -/

theorem payloadLength_eq_ofNat (lo hi : Byte) : payloadLength lo hi = BitVec.ofNat 16 (lo.toNat + 256 * hi.toNat) := by
  rw [← payloadLength_toNat, BitVec.ofNat_toNat, BitVec.setWidth_eq]

theorem frameHeader_of_short {s : State} (h : s.inLen.toNat < 4) (lo hi : Byte) (k : State → Result) :
    frameHeader lo hi s k = .next (s.errorEntry .formatError .hdrTrunc) :=
  if_pos h

/-- With the Huffman bit and fewer than three payload bytes, the flag part of FRAME raises `HUF_HDR_TRUNC` (R186). -/
theorem frameFlags_of_hufHdrTrunc {s : State} {flg : Byte} (hflg : Mem.read s.inMem 4 = some flg)
    (h : flagHuf flg = true) (hpl : s.paylen.toNat < 3) :
    frameFlags s = .next ({ s with flags := flg }.errorEntry .formatError .hufHdrTrunc) := by
  have hread : memRead .inMem 4 s = .ok flg := memRead_inMem_of_read (by decide) hflg
  exact (andThen_of_ok hread _).trans ((if_pos h).trans (if_pos hpl))

/-- Settles O24: the header part raises the first three errors, and the flag part the fourth. -/
theorem frameErrorsInOrder : Obligations.FrameErrorsInOrder := by
  unfold Obligations.FrameErrorsInOrder
  intro s lo hi r0 r1
  have hpay := payloadLength_toNat lo hi
  rw [← payloadLength_eq_ofNat, ← hpay]
  refine ⟨fun h => frameHeader_of_short h lo hi frameFlags, fun hlen htrunc => ?_, fun hlen hzero => ?_,
    fun flg hlen hpl hpl3 hflg hhuf => ?_⟩
  · exact (if_neg (Nat.not_lt.mpr hlen)).trans (if_pos htrunc)
  · have hpl : payloadLength lo hi = 0 := BitVec.eq_of_toNat_eq hzero
    refine ((if_neg (Nat.not_lt.mpr hlen)).trans ((if_neg ?_).trans (if_pos hpl))).trans (by rw [hpl]; rfl)
    exact Nat.not_lt.mpr (by simpa [hpl] using hlen)
  · rw [hpay] at hlen hpl
    exact (frameHeader_of_whole hlen hpl frameFlags).trans (frameFlags_of_hufHdrTrunc hflg hhuf hpl3)

/-! The FRAME stage of a block mode. -/

/-- The FRAME stage of a block mode on a header with these length bytes (R120). -/
theorem blockFrame_of_header {s : State} {lo hi : Byte} (hlo : Mem.read s.inMem 0 = some lo)
    (hhi : Mem.read s.inMem 1 = some hi) (flg : Byte) (k : State → Result) :
    blockFrame flg s k = frameHeader lo hi s fun t => k { t with flags := flg } := by
  have hlo : memRead .inMem 0 s = .ok lo := memRead_inMem_of_read (by decide) hlo
  have hhi : memRead .inMem 1 s = .ok hi := memRead_inMem_of_read (by decide) hhi
  unfold blockFrame fetchHeader
  rw [hlo, hhi]
  split
  · exact (if_pos ‹_›).trans (if_pos ‹_›).symm
  · rfl

/-- What goes on the same after the header part makes the same FRAME step. -/
theorem frameHeader_congr {s : State} {lo hi : Byte} {k k' : State → Result}
    (h : k { s with paylen := payloadLength lo hi } = k' { s with paylen := payloadLength lo hi }) :
    frameHeader lo hi s k = frameHeader lo hi s k' := by
  unfold frameHeader
  simp only [h]

/-- With the Huffman bit, the flag part of FRAME is the Huffman header and the `PRELZ` that stands after the flag byte
(R122, R124). -/
theorem frameFlags_of_huffmanBytes {s : State} {flg : Byte} {pre : BitVec 16} (hhuf : flagHuf flg = true)
    (h : Mem.holds s.inMem 4 [flg, highByte pre, lowByte pre]) :
    frameFlags s = huffmanHeader { s with flags := flg } fun t => .next (t.enterHuffman pre) := by
  have hflg : Mem.read s.inMem 4 = some flg := h 0 (by simp)
  have hp : Mem.read s.inMem 5 = some (highByte pre) := h 1 (by simp)
  have hq : Mem.read s.inMem 6 = some (lowByte pre) := h 2 (by simp)
  obtain ⟨hpl, hr⟩ | ⟨hpl, hr⟩ := huffmanHeader_cases { s with flags := flg } fun t => .next (t.enterHuffman pre)
  · rw [hr, frameFlags_of_hufHdrTrunc hflg hhuf hpl]
  · rw [hr, frameFlags_of_huffman hflg hhuf hpl hp hq, preLzSize_bytes]

/-- A block mode without the Huffman bit takes the FRAME step on its flag byte (R130, R131). -/
theorem blockFrame_of_plain {s : State} {lo hi flg : Byte} (hlo : Mem.read s.inMem 0 = some lo)
    (hhi : Mem.read s.inMem 1 = some hi) (hhuf : flagHuf flg = false) (h : Mem.holds s.inMem 4 [flg]) :
    blockFrame flg s (fun t => .next t.enterPlain) = frameHeader lo hi s frameFlags := by
  rw [blockFrame_of_header hlo hhi]
  exact frameHeader_congr
    (frameFlags_of_plain (s := { s with paylen := payloadLength lo hi }) (h 0 Nat.one_pos) hhuf).symm

/-- A block mode with the Huffman bit takes the FRAME step on its flag byte and `PRELZ` (R132, R133). -/
theorem blockFrame_of_huffman {s : State} {lo hi flg : Byte} {pre : BitVec 16} (hlo : Mem.read s.inMem 0 = some lo)
    (hhi : Mem.read s.inMem 1 = some hi) (hhuf : flagHuf flg = true)
    (h : Mem.holds s.inMem 4 [flg, highByte pre, lowByte pre]) :
    blockFrame flg s (fun t => huffmanHeader t fun t => .next (t.enterHuffman pre)) =
      frameHeader lo hi s frameFlags := by
  rw [blockFrame_of_header hlo hhi]
  exact frameHeader_congr (frameFlags_of_huffmanBytes (s := { s with paylen := payloadLength lo hi }) hhuf h).symm

theorem flagHuf_flagByte (x : BitVec 6) (huf lz : Bool) : flagHuf (flagByte x huf lz) = huf :=
  (flagByte_fields x huf lz).2.1

/-- Settles O27: mode by mode, the header parts are the same and so is what follows them. -/
theorem blockModeFrameStage : Obligations.BlockModeFrameStage := by
  unfold Obligations.BlockModeFrameStage
  intro s i lo hi r0 r1 hg hctx hlo hhi hholds
  cases i with
  | blkRaw x =>
    simp only [exec, execBlkRaw, hg]
    exact blockFrame_of_plain hlo hhi (flagHuf_flagByte x false false) hholds
  | blkLz x =>
    simp only [exec, execBlkLz, hg]
    exact blockFrame_of_plain hlo hhi (flagHuf_flagByte x false true) hholds
  | blkHuf x pre =>
    simp only [exec, execBlkHuf, hg]
    exact blockFrame_of_huffman hlo hhi (flagHuf_flagByte x true false) hholds
  | blkHufLz x pre =>
    simp only [exec, execBlkHufLz, hg]
    exact blockFrame_of_huffman hlo hhi (flagHuf_flagByte x true true) hholds
  | _ => cases hctx

end Sys2Proof.Machine
end

section
/-! PROOFS. Runs of a bounded number of steps, put together one after the other. -/

namespace Sys2Proof.Machine

/-- Within `n` steps the machine answers a state with the property. -/
def ReachesWithin (n : Nat) (s : State) (Q : State → Prop) : Prop := ∃ k t, k ≤ n ∧ runFor k s = .next t ∧ Q t

theorem ReachesWithin.of_holds {n : Nat} {s : State} {Q : State → Prop} (h : Q s) : ReachesWithin n s Q :=
  ⟨0, s, Nat.zero_le n, rfl, h⟩

theorem ReachesWithin.of_step {n : Nat} {s t : State} {Q : State → Prop} (hstep : step s = .next t)
    (h : ReachesWithin n t Q) : ReachesWithin (n + 1) s Q := by
  obtain ⟨k, u, hk, hrun, hu⟩ := h
  exact ⟨k + 1, u, Nat.succ_le_succ hk, (runFor_succ_of_step hstep k).trans hrun, hu⟩

theorem ReachesWithin.mono {n m : Nat} {s : State} {P Q : State → Prop} (h : ReachesWithin n s P) (hnm : n ≤ m)
    (himp : ∀ t, P t → Q t) : ReachesWithin m s Q := by
  obtain ⟨k, t, hk, hrun, ht⟩ := h
  exact ⟨k, t, hk.trans hnm, hrun, himp t ht⟩

theorem runFor_add {k : Nat} {s t : State} (h : runFor k s = .next t) (m : Nat) : runFor (k + m) s = runFor m t := by
  induction k generalizing s with
  | zero =>
    cases h
    rw [Nat.zero_add]
  | succ k ih =>
    rw [Nat.add_right_comm, runFor]
    rw [runFor] at h
    cases hs : step s with
    | next u =>
      rw [hs] at h
      exact ih h
    | fault f => simp [hs] at h
    | refused r => simp [hs] at h

theorem ReachesWithin.trans {n m : Nat} {s : State} {P Q : State → Prop} (h : ReachesWithin n s P)
    (hnext : ∀ t, P t → ReachesWithin m t Q) : ReachesWithin (n + m) s Q := by
  obtain ⟨k, t, hk, hrun, ht⟩ := h
  obtain ⟨j, u, hj, hrun', hu⟩ := hnext t ht
  exact ⟨k + j, u, Nat.add_le_add hk hj, (runFor_add hrun j).trans hrun', hu⟩

/-- With no host turn pending a machine that is not BUSY waits (R203). -/
theorem runFor_of_not_busy {s : State} (hturns : s.hostTurns = []) (hb : s.state ≠ .busy) (k : Nat) :
    runFor k s = .next s := by
  induction k with
  | zero => rfl
  | succ k ih =>
    rw [runFor_succ_of_step ((step_of_no_turns s hturns).trans (engineTurn_of_not_busy s hb)), ih]

/-- What is reached within a number of steps and waits is what that number of steps answers. -/
theorem ReachesWithin.runFor {n : Nat} {s : State} {Q : State → Prop} (h : ReachesWithin n s Q)
    (hwaits : ∀ t, Q t → t.hostTurns = [] ∧ t.state ≠ .busy) : ∃ t, Machine.runFor n s = .next t ∧ Q t := by
  obtain ⟨k, t, hk, hrun, ht⟩ := h
  obtain ⟨hturns, hb⟩ := hwaits t ht
  refine ⟨t, ?_, ht⟩
  rw [← Nat.add_sub_of_le hk, runFor_add hrun, runFor_of_not_busy hturns hb]

end Sys2Proof.Machine
end

section
/-! PROOFS. The reference `LzDecode` taken item by item: what the decoder reads from the source decides how `go` of R154
goes on. -/

namespace Sys2Proof.Machine

/-- The output `out'` of a token that emits `n` bytes after `out`, or `CAPACITY` (R69). -/
def cappedOutput (ecap n : Nat) (out out' : List Byte) : Except ErrCause (List Byte) :=
  if ecap < out.length + n then .error .capacity else .ok out'

/-- The output after a run (R143 to R145). -/
def runOutput (ecap n : Nat) (b : Byte) (out : List Byte) : Except ErrCause (List Byte) :=
  cappedOutput ecap n out (out ++ List.replicate n b)

/-- The output after a back-reference: its range is checked before the capacity (R148, R151). -/
def copyOutput (ecap offset n : Nat) (out : List Byte) : Except ErrCause (List Byte) :=
  if out.length < offset then .error .brefRange else cappedOutput ecap n out (extendCopy offset n out)

/-- The output after an item of the stream whose bytes are all there (R143 to R147); a control word emits nothing. -/
def itemOutput (ecap : Nat) (i : Instr) (out : List Byte) : Except ErrCause (List Byte) :=
  match i with
  | .lit b => runOutput ecap 1 b out
  | .srun l b => runOutput ecap (srunLength l) b out
  | .lrun l n1 b => runOutput ecap (lrunLength l n1) b out
  | .brefx l o n => copyOutput ecap (brefOffset l o) (brefxLength n) out
  | .bref h l o => copyOutput ecap (brefOffset l o) (brefLength h) out
  | _ => .ok out

theorem bind_runOutput (ecap n : Nat) (b : Byte) (out : List Byte) (k : List Byte → Except ErrCause (List Byte)) :
    (runOutput ecap n b out).bind k =
      if ecap < out.length + n then .error .capacity else k (out ++ List.replicate n b) := by
  unfold runOutput cappedOutput
  split <;> rfl

theorem bind_copyOutput (ecap offset n : Nat) (out : List Byte) (k : List Byte → Except ErrCause (List Byte)) :
    (copyOutput ecap offset n out).bind k =
      if out.length < offset then .error .brefRange
      else if ecap < out.length + n then .error .capacity else k (extendCopy offset n out) := by
  unfold copyOutput cappedOutput
  split
  · rfl
  · split <;> rfl

/-- The tokens of three bytes are those of the high nibbles 1 and 2 (R105). -/
theorem highNibble_of_one_lt {c : Byte} (h : 1 < codedLength c - 1) : highNibble c = 1 ∨ highNibble c = 2 := by
  by_contra hne
  rw [codedLength, if_neg hne] at h
  exact absurd h (by decide)

/-- The decoder refuses a coded token only for want of operand bytes (R107). -/
theorem decodeCoded_error {c : Byte} {operands : List Byte} {r : DecodeRefusal}
    (h : decodeCoded c operands = .error r) : operands.length < codedLength c - 1 := by
  match operands with
  | [] =>
    have hlen := codedLength_cases c
    simp only [List.length_nil]
    omega
  | [b] =>
    by_cases hc : highNibble c = 1 ∨ highNibble c = 2
    · rw [codedLength, if_pos hc]
      exact Nat.one_lt_two
    · obtain ⟨h1, h2⟩ := not_or.mp hc
      simp only [decodeCoded, if_neg h1, if_neg h2] at h
      split at h <;> cases h
  | o :: n :: rest =>
    simp only [decodeCoded] at h
    split at h
    · cases h
    · split at h
      · cases h
      · split at h <;> cases h

section
variable (order : ByteOrder) (ecap : Nat) {src rest : List Byte} {i : Instr} {cw : BitVec 16} {cnt : Nat}
  (out : List Byte)

/-- With no control bit in hand `go` loads the control word that is decoded (R141). -/
theorem lzGo_of_controlWord {b0 b1 : Byte} (hcnt : cnt = 0) :
    lzGo order ecap (b0 :: b1 :: rest) cw cnt out = lzGo order ecap rest (controlWord order b0 b1) 16 out := by
  rw [lzGo, if_pos hcnt]

/-- With no control bit in hand `go` forgets the old control word. -/
theorem lzGo_of_no_bits (hcnt : cnt = 0) : lzGo order ecap src cw cnt out = lzGo order ecap src 0 0 out := by
  cases src with
  | nil => rfl
  | cons c rest =>
    unfold lzGo
    rw [if_pos hcnt, if_pos rfl]

/-- A coded token whose bytes are there: `go` on its output and the rest (R154). -/
theorem lzGo_of_coded {c : Byte} {operands : List Byte} (hcnt : cnt ≠ 0) (hbit : cw.getLsbD 15 = true)
    (hd : decodeCoded c operands = .ok (i, rest)) :
    lzGo order ecap (c :: operands) cw cnt out =
      (itemOutput ecap i out).bind (lzGo order ecap rest (cw <<< 1) (cnt - 1)) := by
  unfold lzGo
  rw [if_neg hcnt, if_neg (by simp [hbit])]
  unfold decodeCoded at hd
  split at hd
  case isTrue h0 =>
    split at hd <;> cases hd
    rw [if_pos h0, itemOutput, bind_runOutput]
  case isFalse h0 =>
    rw [if_neg h0]
    split at hd
    case isTrue h1 =>
      split at hd <;> cases hd
      rw [if_pos h1, itemOutput, bind_runOutput]
    case isFalse h1 =>
      rw [if_neg h1]
      split at hd
      case isTrue h2 =>
        split at hd <;> cases hd
        rw [if_pos h2, itemOutput, bind_copyOutput]
      case isFalse h2 =>
        split at hd <;> cases hd
        rw [if_neg h2, itemOutput, bind_copyOutput]

/-- A token whose bytes are there: `go` on its output and the rest (R154). -/
theorem lzGo_of_token (hcnt : cnt ≠ 0) (hd : decode (.token (cw.getLsbD 15)) src = .ok (i, rest)) :
    lzGo order ecap src cw cnt out =
      (itemOutput ecap i out).bind (lzGo order ecap rest (cw <<< 1) (cnt - 1)) := by
  cases src with
  | nil => cases hbit : cw.getLsbD 15 <;> rw [hbit] at hd <;> cases hd
  | cons c operands =>
    cases hbit : cw.getLsbD 15 <;> rw [hbit] at hd
    · cases hd
      unfold lzGo
      rw [if_neg hcnt, if_pos hbit, itemOutput, bind_runOutput]
      rfl
    · exact lzGo_of_coded order ecap out hcnt hbit hd

/-- A coded token cut short: `go` raises `TOKEN_TRUNC` (R151). -/
theorem lzGo_of_truncated {c : Byte} {operands : List Byte} (hcnt : cnt ≠ 0) (hbit : cw.getLsbD 15 = true)
    (hshort : operands.length < codedLength c - 1) :
    lzGo order ecap (c :: operands) cw cnt out = .error .tokenTrunc := by
  match operands, hshort with
  | [], _ => simp [lzGo, hcnt, hbit]
  | [b], hshort =>
    obtain h1 | h2 := highNibble_of_one_lt hshort
    · simp [lzGo, hcnt, hbit, h1]
    · simp [lzGo, hcnt, hbit, h2]
  | _ :: _ :: _, hshort =>
    have := codedLength_cases c
    simp only [List.length_cons] at hshort
    omega

end

end Sys2Proof.Machine
end

section
/-! PROOFS. Stage LZ computes `LzDecode`: each step takes one item as `go` of R154 does, so by induction on the source
the stage ends with the output of `go` or raises its error (R154, R155). -/

namespace Sys2Proof.Machine

/-! Bytes in memory. -/

theorem Mem.holds.append {m : Mem} {a : Nat} {xs ys : List Byte} (hx : Mem.holds m a xs)
    (hy : Mem.holds m (a + xs.length) ys) : Mem.holds m a (xs ++ ys) := by
  intro k hk
  by_cases hlt : k < xs.length
  · rw [List.getElem_append_left hlt]
    exact hx k hlt
  · rw [List.getElem_append_right (Nat.le_of_not_lt hlt)]
    have hread := hy (k - xs.length) (by rw [List.length_append] at hk; omega)
    rwa [Nat.add_assoc, Nat.add_sub_of_le (Nat.le_of_not_lt hlt)] at hread

theorem Mem.holds.of_read_eq {m m' : Mem} {a : Nat} {bytes : List Byte} (h : Mem.holds m a bytes)
    (heq : ∀ k, a ≤ k → k < a + bytes.length → Mem.read m' k = Mem.read m k) : Mem.holds m' a bytes := by
  intro k hk
  rw [heq (a + k) (Nat.le_add_right ..) (Nat.add_lt_add_left hk a)]
  exact h k hk

@[simp] theorem length_extendCopy (offset : Nat) : ∀ (n : Nat) (out : List Byte),
    (extendCopy offset n out).length = out.length + n
  | 0, _ => rfl
  | n + 1, out => by
    rw [extendCopy, length_extendCopy offset n, List.length_append, List.length_singleton]
    omega

/-- A memory in which each byte of a copied range is the byte `offset` before it holds the extension of R154. -/
theorem Mem.holds.extendCopy {m : Mem} {offset : Nat} (ho : 0 < offset) : ∀ {n : Nat} {out : List Byte},
    Mem.holds m 0 out → offset ≤ out.length →
    (∀ q, out.length ≤ q → q < out.length + n → Mem.read m q = Mem.read m (q - offset)) →
    Mem.holds m 0 (extendCopy offset n out)
  | 0, _, h, _, _ => h
  | n + 1, out, h, hoff, hcopy => by
    have hsource : out.length - offset < out.length := by omega
    have hbyte : Mem.read m out.length = some (out.getD (out.length - offset) 0) := by
      have hread := h (out.length - offset) hsource
      rw [Nat.zero_add] at hread
      rw [hcopy out.length (Nat.le_refl _) (by omega), hread, List.getD_eq_getElem _ _ hsource]
    have hnext : Mem.holds m 0 (out ++ [out.getD (out.length - offset) 0]) := h.append fun k hk => by
      obtain rfl : k = 0 := by simpa using hk
      simpa using hbyte
    have hlen : (out ++ [out.getD (out.length - offset) 0]).length = out.length + 1 := List.length_append
    exact hnext.extendCopy ho (by omega) fun q hq hlt => hcopy q (by omega) (by omega)

/-- The output stands in `OUT_MEM` from 0 to `OUT_POS`. -/
structure State.OutputIs (s : State) (out : List Byte) : Prop where
  holds : Mem.holds s.outMem 0 out
  pos : s.outPos.toNat = out.length

theorem State.OutputIs.outWritten {s : State} {out : List Byte} (h : s.OutputIs out) : s.OutWritten := by
  intro a ha
  rw [h.pos] at ha
  have hread := h.holds a ha
  rw [Nat.zero_add] at hread
  exact Option.isSome_of_eq_some hread

/-! A token, its bytes being there. -/

/-- A token leaves the output before it alone (R67). -/
theorem State.TokenEffect.keeps_output {s t : State} {n k : Nat} {out : List Byte} (h : s.TokenEffect t n k)
    (hout : s.OutputIs out) : Mem.holds t.outMem 0 out :=
  hout.holds.of_read_eq fun a _ ha => h.outside a (.inl (by rw [hout.pos]; omega))

/-- What a token of `k` bytes answers, its output being `r` (R142 to R147, R152). -/
inductive State.TokenOutcome (s : State) (k : Nat) : Except ErrCause (List Byte) → Result → Prop
  | raised {cause : ErrCause} (hkind : cause.kind = .decodeError) :
      s.TokenOutcome k (.error cause) (.next (s.tokenDecision.errorEntry .decodeError cause))
  | emitted {t : State} {n : Nat} {out : List Byte} (heffect : s.TokenEffect t n k) (hout : t.OutputIs out) :
      s.TokenOutcome k (.ok out) (.next t)

theorem runToken_outcome {s : State} {n k : Nat} {out : List Byte} (b : Byte) (hout : s.OutputIs out)
    (hleft : s.srcPos.toNat + k ≤ s.srcEnd.toNat) :
    s.TokenOutcome k (runOutput s.ecap n b out) (runToken n b k s.tokenDecision) := by
  have hpos := hout.pos
  unfold runOutput cappedOutput
  split
  · rw [runToken_of_over (s := s.tokenDecision) (show s.ecap < s.outPos.toNat + n by omega)]
    exact .raised rfl
  · obtain ⟨t, ht, heffect, hrun⟩ := runToken_effect (n := n) b hleft (by omega)
    rw [ht]
    refine .emitted heffect ⟨(heffect.keeps_output hout).append fun j hj => ?_, ?_⟩
    · rw [Nat.zero_add, ← hpos, List.getElem_replicate]
      exact hrun j (by simpa using hj)
    · rw [heffect.outPos, hpos, List.length_append, List.length_replicate]

theorem backCopy_outcome {s : State} {offset n k : Nat} {out : List Byte} (ho : 0 < offset) (hout : s.OutputIs out)
    (hleft : s.srcPos.toNat + k ≤ s.srcEnd.toNat) :
    s.TokenOutcome k (copyOutput s.ecap offset n out) (backCopy offset n k s.tokenDecision) := by
  have hpos := hout.pos
  unfold copyOutput cappedOutput
  split
  · have hrange : backCopy offset n k s.tokenDecision = raise .brefRange s.tokenDecision :=
      if_pos (show s.outPos.toNat < offset by omega)
    rw [hrange]
    exact .raised rfl
  · have hoff : offset ≤ s.outPos.toNat := by omega
    split
    · rw [backCopy_of_over (s := s.tokenDecision) hoff (show s.ecap < s.outPos.toNat + n by omega)]
      exact .raised rfl
    · obtain ⟨t, ht, heffect, hcopy⟩ := backCopy_effect (n := n) ho hoff hleft (by omega) hout.outWritten
      rw [ht]
      refine .emitted heffect ⟨(heffect.keeps_output hout).extendCopy ho (by omega) fun q hq hlt => ?_, ?_⟩
      · exact (hcopy q (by omega) (by omega)).1
      · rw [heffect.outPos, hpos, length_extendCopy]

theorem codedToken_outcome {s : State} {k : Nat} {r : Except ErrCause (List Byte)} {body : State → Result}
    (hleft : s.srcPos.toNat + k ≤ s.srcEnd.toNat) (h : s.TokenOutcome k r (body s.tokenDecision)) :
    s.TokenOutcome k r (codedToken k s body) := by
  rw [codedToken_of_left (by omega)]
  exact h

/-- A token whose bytes are there answers its output, or raises what forbids it (R151). -/
theorem exec_tokenOutcome {s : State} {i : Instr} {bit : Bool} {out : List Byte} (hctx : i.context = .token bit)
    (hout : s.OutputIs out) (hleft : s.srcPos.toNat + (encode i).length ≤ s.srcEnd.toNat) :
    s.TokenOutcome (encode i).length (itemOutput s.ecap i out) (exec i s) := by
  cases i with
  | lit b => exact runToken_outcome b hout hleft
  | srun l b => exact codedToken_outcome hleft (runToken_outcome b hout hleft)
  | lrun l n1 b => exact codedToken_outcome hleft (runToken_outcome b hout hleft)
  | brefx l o n => exact codedToken_outcome hleft (backCopy_outcome (Nat.succ_pos _) hout hleft)
  | bref h l o => exact codedToken_outcome hleft (backCopy_outcome (Nat.succ_pos _) hout hleft)
  | _ => cases hctx

/-! The stages that read a source, LZ and RAW. -/

/-- The machine runs in stage `g` with `src` still to come from its source and `out` emitted. -/
structure State.SourceAt (s : State) (g : Stage) (src out : List Byte) : Prop where
  turns : s.hostTurns = []
  busy : s.state = .busy
  stage : s.stage = g
  source : s.SourceHolds s.srcPos.toNat src
  ends : s.srcPos.toNat + src.length = s.srcEnd.toNat
  output : s.OutputIs out

/-- Stage `g` has ended with this result: the output stands in `OUT_MEM` in stage FINISH, or a `DecodeError` was
raised. -/
inductive SourceStageEnd (g : Stage) (pl : BitVec 16) : Except ErrCause (List Byte) → State → Prop
  | finished {t : State} {out : List Byte} (hturns : t.hostTurns = []) (hbusy : t.state = .busy)
      (hstage : t.stage = .finish) (hpl : t.paylen = pl) (hout : t.OutputIs out) : SourceStageEnd g pl (.ok out) t
  | raised {u : State} {cause : ErrCause} (hturns : u.hostTurns = []) (hstage : u.stage = g)
      (hkind : cause.kind = .decodeError) : SourceStageEnd g pl (.error cause) (u.errorEntry .decodeError cause)

/-- Only the control bits, the source cursor and the output may differ between the two states. -/
def State.OnlyStream (s t : State) : Prop :=
  { t with cw := s.cw, cwCnt := s.cwCnt, srcPos := s.srcPos, outPos := s.outPos, outMem := s.outMem } = s

theorem State.OnlyStream.fields {s t : State} (h : s.OnlyStream t) :
    t.hostTurns = s.hostTurns ∧ t.state = s.state ∧ t.stage = s.stage ∧ t.paylen = s.paylen ∧ t.params = s.params ∧
      t.ecap = s.ecap := by
  unfold State.OnlyStream at h
  refine ⟨?_, ?_, ?_, ?_, ?_, ?_⟩ <;> rw [← h]
  rfl

/-- The source is no part of what the stream writes (R77). -/
theorem State.OnlyStream.source {s t : State} (h : s.OnlyStream t) :
    t.srcMem = s.srcMem ∧ t.srcEnd = s.srcEnd ∧ t.spaceSize t.srcSel.space = s.spaceSize s.srcSel.space := by
  unfold State.OnlyStream at h
  rw [← h]
  unfold State.srcMem State.spaceSize
  cases t.srcSel <;> exact ⟨rfl, rfl, rfl⟩

/-- Past the bytes of an item the rest of the source is still to come. -/
theorem State.SourceAt.advance {s t : State} {g : Stage} {bytes rest out out' : List Byte}
    (h : s.SourceAt g (bytes ++ rest) out) (honly : s.OnlyStream t)
    (hpos : t.srcPos.toNat = s.srcPos.toNat + bytes.length) (hout : t.OutputIs out') : t.SourceAt g rest out' := by
  obtain ⟨hturns, hbusy, hstage, -, -, -⟩ := honly.fields
  obtain ⟨hmem, hend, hsize⟩ := honly.source
  have hlen := h.ends
  rw [List.length_append] at hlen
  exact {
    turns := hturns.trans h.turns
    busy := hbusy.trans h.busy
    stage := hstage.trans h.stage
    source := ⟨by rw [hmem, hpos]; exact h.source.holds.append_right, by rw [hpos, hend]; omega,
      by rw [hend, hsize]; exact h.source.size⟩
    ends := by rw [hpos, hend]; omega
    output := hout }

/-! A step of stage LZ. -/

/-- What `go` of R154 makes of the source still to come. -/
def State.lzResult (s : State) (src out : List Byte) : Except ErrCause (List Byte) :=
  lzGo s.params.cwOrder s.ecap src s.cw s.cwCnt.toNat out

/-- The step either ends the stage as `go` does, or takes one item of the source and leaves the rest to `go`. -/
def State.LzStepDone (s : State) (src out : List Byte) : Prop :=
  (∃ t, step s = .next t ∧ SourceStageEnd .lz s.paylen (s.lzResult src out) t) ∨
    ∃ t rest out', step s = .next t ∧ rest.length < src.length ∧ t.SourceAt .lz rest out' ∧ t.paylen = s.paylen ∧
      t.lzResult rest out' = s.lzResult src out

theorem State.LzStepDone.of_raise {s u : State} {src out : List Byte} {cause : ErrCause}
    (hstep : step s = .next (u.errorEntry .decodeError cause)) (hgo : s.lzResult src out = .error cause)
    (hkind : cause.kind = .decodeError) (hturns : u.hostTurns = []) (hstage : u.stage = .lz) : s.LzStepDone src out :=
  .inl ⟨_, hstep, by rw [hgo]; exact .raised hturns hstage hkind⟩

/-- With source bytes left, stage LZ fetches from the stream (R140). -/
theorem State.SourceAt.fetch {s : State} {src out : List Byte} (h : s.SourceAt .lz src out) (hne : src ≠ []) :
    fetch s = fetchLz s := by
  have hlen := List.length_pos_iff.mpr hne
  have hends := h.ends
  have hend : s.srcPos ≠ s.srcEnd := fun heq => by rw [heq] at hends; omega
  simp only [Machine.fetch, h.stage, if_neg hend]

/-- A control word cut short raises `CW_TRUNC` (R141). -/
theorem State.SourceAt.step_truncatedWord {s : State} {c : Byte} {out : List Byte} (h : s.SourceAt .lz [c] out)
    (hcnt : s.cwCnt = 0) : s.LzStepDone [c] out := by
  have hends : s.srcPos.toNat + 1 = s.srcEnd.toNat := h.ends
  have hfetch : fetchLz s = .ok (.controlWord, [0, 0]) := by
    rw [fetchLz, if_pos hcnt, fetchSource, if_pos (by omega)]
    rfl
  have hexec : exec (.cwload 0 0) s = raise .cwTrunc s := if_pos (show s.srcEnd.toNat - s.srcPos.toNat < 2 by omega)
  have hgo : s.lzResult [c] out = .error .cwTrunc := by
    unfold State.lzResult lzGo
    rw [hcnt]
    rfl
  refine .of_raise ?_ hgo rfl h.turns h.stage
  rw [step_of_no_turns s h.turns, engineTurn_of_decode h.busy ((h.fetch (by simp)).trans hfetch) rfl, hexec]
  rfl

theorem exec_of_truncated {s : State} {i : Instr} (hctx : i.context = .token true)
    (hleft : s.srcEnd.toNat - s.srcPos.toNat < (encode i).length) :
    exec i s = .next (s.tokenDecision.errorEntry .decodeError .tokenTrunc) := by
  cases i with
  | srun | lrun | brefx | bref => exact if_pos hleft
  | _ => cases hctx

/-- A coded token cut short raises `TOKEN_TRUNC`, its control bit consumed (R151). -/
theorem State.SourceAt.step_truncatedToken {s : State} {c : Byte} {operands out : List Byte}
    (h : s.SourceAt .lz (c :: operands) out) (hcnt : s.cwCnt ≠ 0) (hbit : s.controlBit = true)
    (hshort : operands.length < codedLength c - 1) : s.LzStepDone (c :: operands) out := by
  have hends := h.ends
  rw [List.length_cons] at hends
  have hc : readSrc s.srcPos.toNat s = .ok c := h.source.readSrc 0 (Nat.succ_pos _)
  have hzeros : fetchSource (codedLength c - 1) (s.srcPos.toNat + 1) s = .ok (List.replicate (codedLength c - 1) 0) :=
    if_pos (by omega)
  have hfetch : fetchLz s = .ok (.token true, c :: List.replicate (codedLength c - 1) 0) := by
    rw [fetchLz, if_neg hcnt, if_pos hbit]
    simp only [fetchCoded, hc, hzeros]
    rfl
  obtain ⟨i, hd, hctx⟩ := decodeCoded_ok c (List.replicate (codedLength c - 1) 0) List.length_replicate
  have hlen : (encode i).length = codedLength c - 1 + 1 := by
    have henc := congrArg List.length (encode_of_decodeCoded hd).2
    simpa using henc
  have hgo : s.lzResult (c :: operands) out = .error .tokenTrunc :=
    lzGo_of_truncated _ _ out (fun h0 => hcnt (BitVec.eq_of_toNat_eq h0)) hbit hshort
  refine .of_raise (u := s.tokenDecision) ?_ hgo rfl h.turns h.stage
  rw [step_of_no_turns s h.turns, engineTurn_of_decode h.busy ((h.fetch (by simp)).trans hfetch) hd,
    exec_of_truncated hctx (by omega)]

/-- An item of the stream whose bytes are all there is run (R140). -/
theorem State.SourceAt.step_item {s : State} {i : Instr} {rest out : List Byte}
    (h : s.SourceAt .lz (encode i ++ rest) out) (hwf : i.wellFormed = true) (hctx : i.context = s.lzContext) :
    step s = exec i s := by
  have hleft := h.source.left
  rw [List.length_append] at hleft
  refine streamInstructionRuns s i h.turns h.busy h.stage hwf hctx (fun k hk => ?_) (by omega) h.source.size
  have hread := h.source.holds k (by rw [List.length_append]; omega)
  rwa [List.getElem_append_left hk] at hread

/-- A control word is loaded (R141). -/
theorem State.SourceAt.step_controlWord {s : State} {b0 b1 : Byte} {rest out : List Byte}
    (h : s.SourceAt .lz (b0 :: b1 :: rest) out) (hcnt : s.cwCnt = 0) : s.LzStepDone (b0 :: b1 :: rest) out := by
  have hends := h.ends
  simp only [List.length_cons] at hends
  have hstep := h.step_item (i := .cwload b0 b1) (rest := rest) rfl (if_pos hcnt).symm
  have hexec : exec (.cwload b0 b1) s = .next ({ s with
      cw := controlWord s.params.cwOrder b0 b1, cwCnt := BitVec.ofNat 5 Config.cwBits }.advanceSrc 2) :=
    if_neg (show ¬ s.srcEnd.toNat - s.srcPos.toNat < 2 by omega)
  refine .inr ⟨_, rest, out, hstep.trans hexec, by simp only [List.length_cons]; omega, ?_, rfl, ?_⟩
  · exact h.advance (bytes := [b0, b1]) rfl (s.advanceSrc_toNat 2 (by omega)) ⟨h.output.holds, h.output.pos⟩
  · exact (lzGo_of_controlWord _ _ out (by rw [hcnt]; rfl)).symm

/-- A token is emitted, or raises what forbids it (R143 to R147, R151). -/
theorem State.SourceAt.step_token {s : State} {i : Instr} {rest out : List Byte}
    (h : s.SourceAt .lz (encode i ++ rest) out) (hcnt : s.cwCnt ≠ 0)
    (hd : decode (.token s.controlBit) (encode i ++ rest) = .ok (i, rest)) :
    s.LzStepDone (encode i ++ rest) out := by
  have hleft := h.source.left
  rw [List.length_append] at hleft
  have hctx := decode_context hd
  have hstep := h.step_item (encode_of_decode hd).1 (hctx.trans (if_neg hcnt).symm)
  have hgo : s.lzResult (encode i ++ rest) out = (itemOutput s.ecap i out).bind
      (lzGo s.params.cwOrder s.ecap rest (s.cw <<< 1) (s.cwCnt.toNat - 1)) :=
    lzGo_of_token _ _ out (fun h0 => hcnt (BitVec.eq_of_toNat_eq h0)) hd
  have houtcome := exec_tokenOutcome hctx h.output (by omega)
  generalize itemOutput s.ecap i out = r at hgo houtcome
  generalize exec i s = e at hstep houtcome
  cases houtcome with
  | raised hkind => exact .of_raise hstep hgo hkind h.turns h.stage
  | @emitted t n out' heffect hout =>
    have honly : s.OnlyStream t := heffect.rest
    obtain ⟨-, -, -, hpl, hparams, hecap⟩ := honly.fields
    refine .inr ⟨t, rest, out', hstep, ?_, h.advance honly heffect.srcPos hout, hpl, ?_⟩
    · have := encode_length_pos i
      rw [List.length_append]
      omega
    · rw [hgo, State.lzResult, hparams, hecap, heffect.cw, heffect.cwCnt hcnt]
      rfl

/-- Every step of stage LZ with source bytes left does what `go` does (R154). -/
theorem State.SourceAt.lzStepDone {s : State} {src out : List Byte} (h : s.SourceAt .lz src out) (hne : src ≠ []) :
    s.LzStepDone src out := by
  by_cases hcnt : s.cwCnt = 0
  · match src, hne with
    | [c], _ => exact h.step_truncatedWord hcnt
    | b0 :: b1 :: rest, _ => exact h.step_controlWord hcnt
  · cases hd : decode (.token s.controlBit) src with
    | ok p =>
      obtain ⟨i, rest⟩ := p
      obtain rfl := (encode_of_decode hd).2
      exact h.step_token hcnt hd
    | error r =>
      match src, hne with
      | c :: operands, _ =>
        cases hbit : s.controlBit <;> rw [hbit] at hd
        · cases hd
        · exact h.step_truncatedToken hcnt hbit (decodeCoded_error hd)

/-- From any point of the stream stage LZ ends as `go` does, within one step more than the source has bytes (R154,
R155). -/
theorem State.SourceAt.lzStage {s : State} {src out : List Byte} (h : s.SourceAt .lz src out) :
    ReachesWithin (src.length + 1) s (SourceStageEnd .lz s.paylen (s.lzResult src out)) := by
  by_cases hne : src = []
  · subst hne
    have hend : s.srcPos = s.srcEnd := BitVec.eq_of_toNat_eq h.ends
    have hstep : step s = .next (s.setStage .finish) := by
      rw [step_of_no_turns s h.turns, engineTurn_of_lz h.busy h.stage]
      exact if_pos hend
    refine .of_step hstep (.of_holds ?_)
    unfold State.lzResult lzGo
    exact .finished h.turns h.busy rfl rfl ⟨h.output.holds, h.output.pos⟩
  · obtain ⟨t, hstep, hdone⟩ | ⟨t, rest, out', hstep, hlt, hat, hpl, hgo⟩ := h.lzStepDone hne
    · exact .of_step hstep (.of_holds hdone)
    · rw [← hpl, ← hgo]
      exact .of_step hstep (hat.lzStage.mono hlt fun _ ht => ht)
termination_by src.length

/-- Stage LZ computes `LzDecode` (R154). -/
theorem State.SourceAt.lzDecode {s : State} {src : List Byte} (h : s.SourceAt .lz src []) (hcnt : s.cwCnt = 0) :
    ReachesWithin (src.length + 1) s (SourceStageEnd .lz s.paylen (lzDecode s.params.cwOrder s.ecap src)) := by
  have hgo : s.lzResult src [] = Machine.lzDecode s.params.cwOrder s.ecap src :=
    lzGo_of_no_bits _ _ [] (by rw [hcnt]; rfl)
  exact hgo ▸ h.lzStage

end Sys2Proof.Machine
end

section
/-! PROOFS. A run from START computes `BlockDecode` (R134): FRAME and HUFF lay out the source or raise what
`BlockDecode` answers before it, the stage that the LZ bit selects decodes the source, and FINISH reports. -/

namespace Sys2Proof.Machine

/-! The source stage and FINISH. -/

/-- A source in stage RAW is copied if it fits (R127). -/
theorem State.SourceAt.rawStage {s : State} {src : List Byte} (h : s.SourceAt .raw src []) :
    ReachesWithin 1 s
      (SourceStageEnd .raw s.paylen (if s.ecap < src.length then .error .capacity else .ok src)) := by
  have hstep : step s = rawStep s := (step_of_no_turns s h.turns).trans (engineTurn_of_raw h.busy h.stage)
  have hpos : s.outPos.toNat = 0 := h.output.pos
  have hends := h.ends
  split
  · have hover : s.ecap < s.outPos.toNat + s.srcLeft := by unfold State.srcLeft; omega
    exact .of_step (hstep.trans (rawStep_of_over hover)) (.of_holds (.raised h.turns h.stage rfl))
  · obtain ⟨mem, pos, hraw, hemit, hout⟩ := rawStep_copies hends h.source.size h.source.holds (by omega)
    have hlen := hemit.pos
    rw [hpos] at hout hlen
    exact .of_step (hstep.trans hraw)
      (.of_holds (.finished h.turns h.busy rfl rfl ⟨hout, hlen.trans (Nat.zero_add _)⟩))

/-- The run has ended with this result, and the machine waits: in `DONE` with the output and the bytes consumed, or in
`ERROR` with the cause and its kind (R129, R196). -/
inductive Reported : Except ErrCause (List Byte × Nat) → State → Prop
  | done {t : State} {out : List Byte} {n : Nat} (hturns : t.hostTurns = []) (hstate : t.state = .done)
      (hlen : t.outLen.toNat = out.length) (hout : Mem.holds t.outMem 0 out) (hconsumed : t.consumed.toNat = n) :
      Reported (.ok (out, n)) t
  | error {u : State} {cause : ErrCause} (hturns : u.hostTurns = []) :
      Reported (.error cause) (u.errorEntry cause.kind cause)

theorem Reported.waits {r : Except ErrCause (List Byte × Nat)} {t : State} (h : Reported r t) :
    t.hostTurns = [] ∧ t.state ≠ .busy := by
  cases h with
  | done hturns hstate => exact ⟨hturns, by rw [hstate]; nofun⟩
  | error hturns => exact ⟨hturns, nofun⟩

/-- The result of a run whose source stage has this output, `n` bytes being consumed. -/
def runResult (n : Nat) (r : Except ErrCause (List Byte)) : Except ErrCause (List Byte × Nat) :=
  r.map fun out => (out, n)

/-- After its source stage a run reports within one step (R129). -/
theorem SourceStageEnd.reports {g : Stage} {pl : BitVec 16} {r : Except ErrCause (List Byte)} {t : State}
    (h : SourceStageEnd g pl r t) : ReachesWithin 1 t (Reported (runResult (4 + pl.toNat) r)) := by
  cases h with
  | finished hturns hbusy hstage hpl hout =>
    have hstep : step t = finishStep t := (step_of_no_turns t hturns).trans (engineTurn_of_finish hbusy hstage)
    subst hpl
    exact .of_step hstep
      (.of_holds (.done hturns rfl hout.pos hout.holds (toNat_ofNat_payloadEnd t.paylen)))
  | raised hturns _ hkind =>
    rw [← hkind]
    exact .of_holds (.error hturns)

/-- What the stage that the LZ bit selects makes of a source (R134). -/
def sourceOutput (order : ByteOrder) (ecap : Nat) (lz : Bool) (src : List Byte) : Except ErrCause (List Byte) :=
  if lz then lzDecode order ecap src else if ecap < src.length then .error .capacity else .ok src

/-- From the entry to the source stage a run reports within two steps more than the source has bytes. -/
theorem reports_of_sourceAt {s : State} {src : List Byte} (hcnt : s.cwCnt = 0)
    (h : s.SourceAt (if flagLz s.flags then .lz else .raw) src []) :
    ReachesWithin (src.length + 2) s
      (Reported (runResult (4 + s.paylen.toNat) (sourceOutput s.params.cwOrder s.ecap (flagLz s.flags) src))) := by
  cases hlz : flagLz s.flags <;> rw [hlz] at h
  · exact (h.rawStage.trans fun t ht => ht.reports).mono (by omega) fun t ht => ht
  · exact (h.lzDecode hcnt).trans fun t ht => ht.reports

/-! The reference, case by case (R134). -/

theorem blockSource_of_plain {payload : List Byte} (h : flagHuf (payload.getD 0 0) = false) :
    blockSource payload = .ok (payload.drop 1) :=
  if_neg (Bool.eq_false_iff.mp h)

theorem blockSource_of_short {payload : List Byte} (h : flagHuf (payload.getD 0 0) = true) (hlen : payload.length < 3) :
    blockSource payload = .error .hufHdrTrunc :=
  (if_pos h).trans (if_pos hlen)

section
variable {payload : List Byte} (h : flagHuf (payload.getD 0 0) = true) (hlen : 3 ≤ payload.length)
include h hlen

theorem blockSource_of_huffError {pre : BitVec 16} {r : HuffError}
    (hpre : preLzSize (payload.getD 1 0) (payload.getD 2 0) = pre)
    (hhuff : Config.huff (payload.drop 3) pre.toNat = .error r) :
    blockSource payload = .error (huffCause r) := by
  subst hpre
  unfold blockSource
  rw [if_pos h, if_neg (Nat.not_lt.mpr hlen), hhuff]

theorem blockSource_of_huffOk {pre : BitVec 16} {m : { m : List Byte // m.length = pre.toNat }}
    (hpre : preLzSize (payload.getD 1 0) (payload.getD 2 0) = pre)
    (hhuff : Config.huff (payload.drop 3) pre.toNat = .ok m) :
    blockSource payload = .ok m.val := by
  subst hpre
  unfold blockSource
  rw [if_pos h, if_neg (Nat.not_lt.mpr hlen), hhuff]

end

/-! The errors of `BlockDecode` in the header part, and a whole frame. -/

section
variable {order : ByteOrder} {f : List Byte} {inLen ecap : Nat}

theorem blockDecode_of_short (h : inLen < 4) : blockDecode order f inLen ecap = .error .hdrTrunc :=
  if_pos h

theorem blockDecode_of_truncated (hlen : 4 ≤ inLen)
    (h : inLen < 4 + (payloadLength (f.getD 0 0) (f.getD 1 0)).toNat) :
    blockDecode order f inLen ecap = .error .payloadTrunc :=
  (if_neg (Nat.not_lt.mpr hlen)).trans (if_pos h)

theorem blockDecode_of_empty (hlen : 4 + (payloadLength (f.getD 0 0) (f.getD 1 0)).toNat ≤ inLen)
    (h : (payloadLength (f.getD 0 0) (f.getD 1 0)).toNat = 0) :
    blockDecode order f inLen ecap = .error .noFlags :=
  (if_neg (Nat.not_lt.mpr ((Nat.le_add_right 4 _).trans hlen))).trans ((if_neg (Nat.not_lt.mpr hlen)).trans (if_pos h))

/-- On a whole frame with a payload `BlockDecode` decodes the source of the payload. -/
theorem blockDecode_of_whole {pl : Nat} (hpl : (payloadLength (f.getD 0 0) (f.getD 1 0)).toNat = pl)
    (hlen : 4 + pl ≤ inLen) (hpos : pl ≠ 0) :
    blockDecode order f inLen ecap = (blockSource ((f.drop 4).take pl)).bind fun src =>
      runResult (4 + pl) (sourceOutput order ecap (flagLz (((f.drop 4).take pl).getD 0 0)) src) := by
  subst hpl
  simp only [blockDecode, Config.frameHdrBytes]
  rw [if_neg (by omega), if_neg (Nat.not_lt.mpr hlen), if_neg hpos]
  cases blockSource ((f.drop 4).take (payloadLength (f.getD 0 0) (f.getD 1 0)).toNat) with
  | error e => rfl
  | ok src =>
    simp only [sourceOutput, Except.bind]
    split
    case h_1 e hout => rw [hout]; rfl
    case h_2 out hout => rw [hout]; rfl

end

/-! FRAME and HUFF. -/

theorem Mem.holds.drop {m : Mem} {a : Nat} {bytes : List Byte} (h : Mem.holds m a bytes) (n : Nat) :
    Mem.holds m (a + n) (bytes.drop n) := by
  intro k hk
  rw [List.getElem_drop, Nat.add_assoc]
  exact h (n + k) _

theorem Mem.holds.take {m : Mem} {a : Nat} {bytes : List Byte} (h : Mem.holds m a bytes) (n : Nat) :
    Mem.holds m a (bytes.take n) := by
  intro k hk
  rw [List.getElem_take]
  exact h k _

theorem Mem.holds.read_getD {m : Mem} {a k : Nat} {bytes : List Byte} (h : Mem.holds m a bytes)
    (hk : k < bytes.length) : Mem.read m (a + k) = some (bytes.getD k 0) := by
  rw [List.getD_eq_getElem _ _ hk]
  exact h k hk

/-- The Huffman bitstream that stands in `IN_MEM` is read (R171). -/
theorem readInBytes_of_holds {s : State} : ∀ {bytes : List Byte} {a : Nat}, a + bytes.length ≤ Config.inMemBytes →
    Mem.holds s.inMem a bytes → readInBytes s a bytes.length = .ok bytes
  | [], _, _, _ => rfl
  | b :: bytes, a, hsize, h => by
    rw [List.length_cons] at hsize
    have hb : memRead .inMem a s = .ok b := memRead_inMem_of_read (by omega) (h 0 (Nat.succ_pos _))
    have hrest := readInBytes_of_holds (s := s) (bytes := bytes) (a := a + 1) (by omega) (h.drop 1)
    rw [List.length_cons, readInBytes, hb, hrest]

/-- A run on this payload, with this control-word order and capacity, is about to enter the source stage with the source
or in `ERROR` with the cause (R126, R134). -/
inductive SourceEntry (order : ByteOrder) (ecap : Nat) (payload : List Byte) :
    Except ErrCause (List Byte) → State → Prop
  | entered {t : State} {src : List Byte} (hcnt : t.cwCnt = 0) (hflag : flagLz t.flags = flagLz (payload.getD 0 0))
      (hpl : t.paylen.toNat = payload.length) (horder : t.params.cwOrder = order) (hecap : t.ecap = ecap)
      (hsrc : src.length ≤ 65535) (h : t.SourceAt (if flagLz t.flags then .lz else .raw) src []) :
      SourceEntry order ecap payload (.ok src) t
  | raised {u : State} {cause : ErrCause} (hturns : u.hostTurns = []) :
      SourceEntry order ecap payload (.error cause) (u.errorEntry cause.kind cause)

/-- From the entry to the source stage on, a run reports within 65537 steps (R155). -/
theorem SourceEntry.reports {order : ByteOrder} {ecap : Nat} {payload : List Byte} {r : Except ErrCause (List Byte)}
    {t : State} (h : SourceEntry order ecap payload r t) :
    ReachesWithin 65537 t (Reported (r.bind fun src =>
      runResult (4 + payload.length) (sourceOutput order ecap (flagLz (payload.getD 0 0)) src))) := by
  cases h with
  | entered hcnt hflag hpl horder hecap hsrc h =>
    rw [← hflag, ← hpl, ← horder, ← hecap]
    exact (reports_of_sourceAt hcnt h).mono (by omega) fun t ht => ht
  | raised hturns => exact .of_holds (.error hturns)

/-- The header part of FRAME has passed in `s`, whose run began with an empty output; the payload stands in `IN_MEM`
(R120, R121). -/
structure State.PayloadAt (s : State) (payload : List Byte) : Prop where
  turns : s.hostTurns = []
  busy : s.state = .busy
  cwCnt : s.cwCnt = 0
  outPos : s.outPos = 0
  paylen : s.paylen.toNat = payload.length
  holds : Mem.holds s.inMem 4 payload

/-- An empty output stands anywhere. -/
theorem outputIs_nil {s : State} (h : s.outPos = 0) : s.OutputIs [] := ⟨nofun, by rw [h]; rfl⟩

/-- FRAME on a payload without the Huffman bit: the source is the payload after its flag byte (R126). -/
theorem State.PayloadAt.enterPlain {s : State} {payload : List Byte} (h : s.PayloadAt payload)
    (hpos : 1 ≤ payload.length) (hhuf : flagHuf (payload.getD 0 0) = false) :
    ∃ t, frameFlags s = .next t ∧ SourceEntry s.params.cwOrder s.ecap payload (blockSource payload) t := by
  have hpl := h.paylen
  have hmax := s.paylen.isLt
  have hend := toNat_ofNat_payloadEnd s.paylen
  have hlen : (payload.drop 1).length = payload.length - 1 := List.length_drop
  refine ⟨_, frameFlags_of_plain (h.holds.read_getD hpos) hhuf, ?_⟩
  rw [blockSource_of_plain hhuf]
  refine .entered h.cwCnt rfl hpl rfl rfl (by omega) {
    turns := h.turns
    busy := h.busy
    stage := rfl
    source := ⟨h.holds.drop 1, ?_, ?_⟩
    ends := ?_
    output := outputIs_nil h.outPos }
  · show 5 + (payload.drop 1).length ≤ (BitVec.ofNat 17 (4 + s.paylen.toNat)).toNat
    omega
  · show (BitVec.ofNat 17 (4 + s.paylen.toNat)).toNat ≤ 65539
    omega
  · show 5 + (payload.drop 1).length = (BitVec.ofNat 17 (4 + s.paylen.toNat)).toNat
    omega

theorem huffCause_kind (r : HuffError) : (huffCause r).kind = .decodeError := by
  cases r <;> rfl

/-- The source that HUFF has written to `MID_MEM` is the source of the next stage (R124, R172). -/
theorem State.PayloadAt.sourceEntry_of_huffDecoded {s : State} {payload src : List Byte} {pre : BitVec 16}
    (h : s.PayloadAt payload) (hflags : s.flags = payload.getD 0 0) (hsrc : src.length = pre.toNat) :
    SourceEntry s.params.cwOrder s.ecap payload (.ok src) { s.enterHuffman pre with
      midMem := s.midMem.writeList 0 src, stage := if flagLz s.flags then .lz else .raw } := by
  have hmax := pre.isLt
  have hend : (pre.setWidth 17).toNat = src.length := (BitVec.toNat_setWidth_of_le (by decide)).trans hsrc.symm
  exact .entered h.cwCnt (congrArg flagLz hflags) h.paylen rfl rfl (by omega) {
    turns := h.turns
    busy := h.busy
    stage := rfl
    source := ⟨Mem.holds_writeList s.midMem 0 src, (Nat.zero_add _).trans_le hend.ge,
      hend.trans_le (show src.length ≤ 65535 by omega)⟩
    ends := (Nat.zero_add _).trans hend.symm
    output := outputIs_nil h.outPos }

/-- HUFF after FRAME: the source is what `HUFF` makes of the payload after its Huffman header, or its error is raised
(R171 to R173, R176). -/
theorem State.PayloadAt.huffStage {s : State} {payload : List Byte} {pre : BitVec 16} (h : s.PayloadAt payload)
    (hlen : 3 ≤ payload.length) (hflags : s.flags = payload.getD 0 0) (hhuf : flagHuf (payload.getD 0 0) = true)
    (hpre : preLzSize (payload.getD 1 0) (payload.getD 2 0) = pre) :
    ∃ t, step (s.enterHuffman pre) = .next t ∧
      SourceEntry s.params.cwOrder s.ecap payload (blockSource payload) t := by
  have hmax := s.paylen.isLt
  have hpl := h.paylen
  have hdrop : (payload.drop 3).length = payload.length - 3 := List.length_drop
  have hread : readInBytes (s.enterHuffman pre) 7 (s.paylen.toNat - 3) = .ok (payload.drop 3) := by
    rw [hpl, ← hdrop]
    exact readInBytes_of_holds (show _ ≤ 65539 by omega) (h.holds.drop 3)
  have hstep : step (s.enterHuffman pre) = huffStep (if flagLz s.flags then .lz else .raw) (s.enterHuffman pre) :=
    (step_of_no_turns (s.enterHuffman pre) h.turns).trans (engineTurn_of_huff (s := s.enterHuffman pre) h.busy rfl)
  rw [hstep]
  obtain ⟨f, hf, -⟩ | ⟨enc, henc, hhuff⟩ :=
    huffStep_cases (if flagLz s.flags then .lz else .raw) (s.enterHuffman pre)
  · cases hf.symm.trans hread
  cases henc.symm.trans hread
  obtain ⟨r, hr, hraise⟩ | ⟨m, hm, hnext⟩ := hhuff
  · rw [hraise, blockSource_of_huffError hhuf hlen hpre hr, ← huffCause_kind r]
    exact ⟨_, rfl, .raised h.turns⟩
  · rw [hnext, blockSource_of_huffOk hhuf hlen hpre hm]
    exact ⟨_, rfl, h.sourceEntry_of_huffDecoded hflags m.property⟩

/-- FRAME on a payload with the Huffman bit: `HUF_HDR_TRUNC`, or HUFF comes next (R122, R124). -/
theorem State.PayloadAt.enterHuffman {s t : State} {payload : List Byte} (h : s.PayloadAt payload)
    (hpos : 1 ≤ payload.length) (hhuf : flagHuf (payload.getD 0 0) = true) (hstep : step t = frameFlags s) :
    ReachesWithin 2 t (SourceEntry s.params.cwOrder s.ecap payload (blockSource payload)) := by
  have hflg := h.holds.read_getD hpos
  have hpl := h.paylen
  by_cases hlen : 3 ≤ payload.length
  · have hframe := hstep.trans (frameFlags_of_huffman hflg hhuf (by omega)
      (h.holds.read_getD (k := 1) (by omega)) (h.holds.read_getD (k := 2) (by omega)))
    have hflagged : { s with flags := payload.getD 0 0 }.PayloadAt payload := { h with }
    obtain ⟨u, hhuff, hentry⟩ := hflagged.huffStage hlen rfl hhuf rfl
    exact .of_step hframe (.of_step hhuff (.of_holds hentry))
  · have hframe := hstep.trans (frameFlags_of_hufHdrTrunc hflg hhuf (by omega))
    rw [blockSource_of_short hhuf (by omega)]
    exact .of_step hframe (.of_holds (.raised h.turns))

/-- FRAME, and HUFF where the Huffman bit is set, lay out the source of R134 or raise its error. -/
theorem State.PayloadAt.sourceEntry {s t : State} {payload : List Byte} (h : s.PayloadAt payload)
    (hpos : 1 ≤ payload.length) (hstep : step t = frameFlags s) :
    ReachesWithin 2 t (SourceEntry s.params.cwOrder s.ecap payload (blockSource payload)) := by
  cases hhuf : flagHuf (payload.getD 0 0) with
  | false =>
    obtain ⟨u, hu, hentry⟩ := h.enterPlain hpos hhuf
    exact .of_step (hstep.trans hu) (.of_holds hentry)
  | true => exact h.enterHuffman hpos hhuf hstep

/-! The run. -/

/-- On a loaded frame the first step takes the header part of FRAME on the frame's two length bytes (R120). -/
theorem step_of_loadedFrame {s : State} {f : List Byte} (hturns : s.hostTurns = []) (hb : s.state = .busy)
    (hg : s.stage = .frame) (hf : Mem.holds s.inMem 0 f) (hlen : s.inLen.toNat ≤ f.length) :
    step s = frameHeader (f.getD 0 0) (f.getD 1 0) s frameFlags := by
  rw [step_of_no_turns s hturns, engineTurn_of_frame hb hg]
  unfold fetchHeader
  split
  · exact (if_pos ‹_›).trans (if_pos ‹_›).symm
  · rename_i hge
    have hge : 4 ≤ s.inLen.toNat := Nat.le_of_not_lt hge
    have hlo : memRead .inMem 0 s = .ok (f.getD 0 0) :=
      memRead_inMem_of_read (by decide) (hf.read_getD (k := 0) (by omega))
    have hhi : memRead .inMem 1 s = .ok (f.getD 1 0) :=
      memRead_inMem_of_read (by decide) (hf.read_getD (k := 1) (by omega))
    rw [hlo, hhi]
    rfl

/-- From stage FRAME on a loaded frame, with nothing emitted, a run reports what `BlockDecode` answers (R134). -/
theorem reports_of_frame {s : State} {f : List Byte} (hturns : s.hostTurns = []) (hb : s.state = .busy)
    (hg : s.stage = .frame) (hcnt : s.cwCnt = 0) (hout : s.outPos = 0) (hf : Mem.holds s.inMem 0 f)
    (hlen : s.inLen.toNat ≤ f.length) :
    ReachesWithin 65539 s (Reported (blockDecode s.params.cwOrder f s.inLen.toNat s.ecap)) := by
  have hstep := step_of_loadedFrame hturns hb hg hf hlen
  obtain ⟨hshort, hr⟩ | ⟨hge, htrunc, hr⟩ | ⟨hge, hzero, hr⟩ | ⟨hge, hpl, hr⟩ :=
    frameHeader_cases (f.getD 0 0) (f.getD 1 0) s frameFlags
  · rw [blockDecode_of_short hshort]
    exact .of_step (hstep.trans hr) (.of_holds (.error hturns))
  · rw [blockDecode_of_truncated hge htrunc]
    exact .of_step (hstep.trans hr) (.of_holds (.error hturns))
  · rw [blockDecode_of_empty hge (by rw [hzero]; rfl)]
    exact .of_step (hstep.trans hr) (.of_holds (.error hturns))
  · have hpos := one_le_toNat_of_ne_zero hpl
    rw [blockDecode_of_whole rfl hge (by omega)]
    generalize hpayload : (f.drop 4).take (payloadLength (f.getD 0 0) (f.getD 1 0)).toNat = payload
    have hplen : payload.length = (payloadLength (f.getD 0 0) (f.getD 1 0)).toNat := by
      rw [← hpayload, List.length_take, List.length_drop]
      omega
    have hat : { s with paylen := payloadLength (f.getD 0 0) (f.getD 1 0) }.PayloadAt payload := {
      turns := hturns
      busy := hb
      cwCnt := hcnt
      outPos := hout
      paylen := hplen.symm
      holds := by
        have hf4 : Mem.holds s.inMem 4 (f.drop 4) := by simpa using hf.drop 4
        exact hpayload ▸ hf4.take _ }
    rw [← hplen]
    exact (hat.sourceEntry (by omega) (hstep.trans hr)).trans fun t ht => ht.reports

/-- Settles O55: within 65539 steps the run has reported, and then the machine waits. -/
theorem runComputesBlockDecode : Obligations.RunComputesBlockDecode := by
  unfold Obligations.RunComputesBlockDecode
  intro s f hturns hidle hf _ hlen
  rw [hostMove_start hidle rfl]
  obtain ⟨t, hrun, hreport⟩ :=
    (reports_of_frame (s := s.startRun) hturns rfl rfl rfl rfl hf hlen).runFor fun _ h => h.waits
  refine ⟨t, hrun, ?_⟩
  change Reported (blockDecode s.params.cwOrder f s.inLen.toNat s.ecap) t at hreport
  generalize blockDecode s.params.cwOrder f s.inLen.toNat s.ecap = r at hreport
  cases hreport with
  | done _ hstate hlen hout hconsumed => exact ⟨hstate, hlen, hout, hconsumed⟩
  | error => exact ⟨rfl, rfl, rfl, rfl, rfl⟩

end Sys2Proof.Machine
end

section
/-! PROOFS. Stage LZ entered with an empty output computes `LzDecode` (R154), and every run ends: the steps a BUSY machine
has still to take fall with each of them (R155, R224). -/

namespace Sys2Proof.Machine

/-- Settles O54: from the entry of the stage `go` starts with no control bit in hand and an empty output. -/
theorem lzStageComputesLzDecode : Obligations.LzStageComputesLzDecode := by
  unfold Obligations.LzStageComputesLzDecode
  intro s src hturns hb hg hcnt hpos hends hsize hholds
  have hat : s.SourceAt .lz src [] := ⟨hturns, hb, hg, ⟨hholds, hends.le, hsize⟩, hends, outputIs_nil hpos⟩
  obtain ⟨k, t, hk, hrun, hend⟩ := hat.lzDecode hcnt
  refine ⟨k, t, hk, hrun, ?_⟩
  generalize lzDecode s.params.cwOrder s.ecap src = r at hend ⊢
  cases hend with
  | finished _ hbusy hstage _ hout => exact ⟨hbusy, hstage, hout.pos, hout.holds⟩
  | raised _ hstage => exact ⟨rfl, rfl, rfl, hstage⟩

/-! The steps left. -/

/-- How many steps a BUSY machine takes at most: one for each of FRAME, HUFF, RAW and FINISH, and in stage LZ one for
each source byte left and one for the end of the stage. Before stage LZ the count allows for the longest source, 65535
bytes (R155). -/
def State.stepsLeft (s : State) : Nat :=
  match s.stage with
  | .none => 0
  | .frame => 65539
  | .huff => 65538
  | .lz => s.srcLeft + 2
  | .raw => 2
  | .finish => 1

theorem State.stepsLeft_of_frame {s : State} (hg : s.stage = .frame) : s.stepsLeft = 65539 := by
  rw [State.stepsLeft, hg]

theorem State.stepsLeft_of_huff {s : State} (hg : s.stage = .huff) : s.stepsLeft = 65538 := by
  rw [State.stepsLeft, hg]

theorem State.stepsLeft_of_lz {s : State} (hg : s.stage = .lz) : s.stepsLeft = s.srcLeft + 2 := by
  rw [State.stepsLeft, hg]

theorem State.stepsLeft_of_raw {s : State} (hg : s.stage = .raw) : s.stepsLeft = 2 := by
  rw [State.stepsLeft, hg]

theorem State.stepsLeft_of_finish {s : State} (hg : s.stage = .finish) : s.stepsLeft = 1 := by
  rw [State.stepsLeft, hg]

/-- The stage that the LZ bit selects takes no more steps than stage LZ does (R123). -/
theorem State.stepsLeft_of_selected {s : State} (hg : s.stage = if flagLz s.flags then .lz else .raw) :
    s.stepsLeft ≤ s.srcLeft + 2 := by
  cases hlz : flagLz s.flags <;> rw [hlz] at hg
  · rw [State.stepsLeft_of_raw hg]
    omega
  · exact (State.stepsLeft_of_lz hg).le

/-- After FRAME the source is at most the 65535 bytes of `PRELZ`, or the payload after its flag byte (R126). -/
theorem State.Inv.srcLeft_le {s : State} (hinv : s.Inv) (hb : s.state = .busy) (hg : s.stage ≠ .frame) :
    s.srcLeft ≤ 65535 := by
  obtain ⟨hhuf, hplain⟩ := hinv.stage.source hb hg
  unfold State.srcLeft
  cases hflag : flagHuf s.flags with
  | true =>
    have hend := (hhuf hflag).2
    have := s.prelz.isLt
    omega
  | false =>
    obtain ⟨-, hend, hpos⟩ := hplain hflag
    have := s.paylen.isLt
    omega

/-- A BUSY machine has a step left, and never more than 65539: in stage LZ the source left bounds them (R155). -/
theorem State.Inv.stepsLeft_range {s : State} (hinv : s.Inv) (hb : s.state = .busy) :
    1 ≤ s.stepsLeft ∧ s.stepsLeft ≤ 65539 := by
  cases hg : s.stage with
  | none => exact absurd hg (hinv.stage.some hb)
  | lz =>
    have hleft := hinv.srcLeft_le hb (by rw [hg]; nofun)
    rw [State.stepsLeft_of_lz hg]
    omega
  | frame | huff | raw | finish => simp [State.stepsLeft, hg]

/-- Each byte the source cursor passes is a step less. -/
theorem State.stepsLeft_advanceSrc_lt {s : State} {k : Nat} (hg : s.stage = .lz) (hk : 1 ≤ k)
    (hleft : s.srcPos.toNat + k ≤ s.srcEnd.toNat) : (s.advanceSrc k).stepsLeft < s.stepsLeft := by
  have hpos := s.advanceSrc_toNat k hleft
  rw [State.stepsLeft_of_lz hg, State.stepsLeft_of_lz (s := s.advanceSrc k) hg, State.srcLeft, State.srcLeft, hpos]
  show s.srcEnd.toNat - _ + 2 < _
  omega

/-- A move of the engine ends the run or leaves fewer steps. -/
theorem EngineMove.ends_or_descends {s t : State} (hm : EngineMove s t) (hb : s.state = .busy) (hinv : s.Inv) :
    t.ended ∨ (t.state = .busy ∧ t.stepsLeft < s.stepsLeft) := by
  have hinv' := hm.keeps_inv hb hinv
  cases hm with
  | raised => exact .inl (.inr rfl)
  | finished => exact .inl (.inl rfl)
  | @enteredPlain pl flg hstage =>
    have hleft := hinv'.srcLeft_le hb (by simp only [State.enterPlain_stage]; split <;> nofun)
    have hsel := State.stepsLeft_of_selected (s := { s with paylen := pl, flags := flg }.enterPlain) rfl
    rw [State.stepsLeft_of_frame hstage]
    exact .inr ⟨hb, by omega⟩
  | enteredHuffman hstage =>
    rw [State.stepsLeft_of_frame hstage, State.stepsLeft_of_huff rfl]
    exact .inr ⟨hb, Nat.lt_succ_self _⟩
  | @huffDecoded m hstage =>
    have hleft := hinv.srcLeft_le hb (by rw [hstage]; nofun)
    have hsel := State.stepsLeft_of_selected (s := { s with
      midMem := s.midMem.writeList 0 m, stage := if flagLz s.flags then .lz else .raw }) rfl
    rw [State.stepsLeft_of_huff hstage]
    exact .inr ⟨hb, Nat.lt_of_le_of_lt hsel (show s.srcLeft + 2 < 65538 by omega)⟩
  | lzEnded hstage =>
    rw [State.stepsLeft_of_lz hstage, State.stepsLeft_of_finish rfl]
    exact .inr ⟨hb, by omega⟩
  | @cwLoaded w hstage hleft =>
    exact .inr ⟨hb, State.stepsLeft_advanceSrc_lt (s := { s with cw := w, cwCnt := 16 }) hstage (by decide) hleft⟩
  | @tokenEmitted n k mem pos hstage hk hleft =>
    exact .inr ⟨hb, State.stepsLeft_advanceSrc_lt (s := s.tokenDecision.withOutput mem pos) hstage hk.1 hleft⟩
  | rawCopied hstage =>
    rw [State.stepsLeft_of_raw hstage, State.stepsLeft_of_finish rfl]
    exact .inr ⟨hb, by decide⟩

/-! Every run ends. -/

theorem State.ended.not_busy {s : State} (h : s.ended) : s.state ≠ .busy := by
  obtain h | h := h <;> simp [h]

/-- A run is going on in a loaded machine that meets the invariant, and the host has no turn pending. -/
structure State.Running (s : State) : Prop where
  inv : s.Inv
  loaded : s.Loaded
  turns : s.hostTurns = []
  busy : s.state = .busy

/-- A run that goes on has a step, which ends it or leaves it fewer steps. -/
theorem State.Running.step {s : State} (h : s.Running) :
    ∃ t, step s = .next t ∧ t.hostTurns = [] ∧ (t.ended ∨ (t.Running ∧ t.stepsLeft < s.stepsLeft)) := by
  obtain ⟨t, ht⟩ := engineTurn_answers h.inv h.loaded
  have hm := engineTurn_engineMove h.busy ht
  obtain ⟨hin, hlen, -, -, hturns, -⟩ := engineWritesOnlyItsOwn s t ht
  have hturns' : t.hostTurns = [] := hturns.trans h.turns
  refine ⟨t, (step_of_no_turns s h.turns).trans ht, hturns', (hm.ends_or_descends h.busy h.inv).imp_right ?_⟩
  rintro ⟨hb, hlt⟩
  have hloaded : t.Loaded := by
    unfold State.Loaded
    rw [hin, hlen]
    exact h.loaded
  exact ⟨⟨hm.keeps_inv h.busy h.inv, hloaded, hturns', hb⟩, hlt⟩

theorem State.Running.ends {s : State} (h : s.Running) :
    ReachesWithin s.stepsLeft s fun t => t.hostTurns = [] ∧ t.ended := by
  obtain ⟨t, hstep, hturns, hend | ⟨hrunning, hlt⟩⟩ := h.step
  · exact (ReachesWithin.of_step hstep (.of_holds ⟨hturns, hend⟩)).mono (h.inv.stepsLeft_range h.busy).1 fun _ ht => ht
  · exact (ReachesWithin.of_step hstep hrunning.ends).mono hlt fun _ ht => ht
termination_by s.stepsLeft

/-- Settles O52: a running machine ends within its steps left, and then it waits. -/
theorem everyRunEnds : Obligations.EveryRunEnds := by
  unfold Obligations.EveryRunEnds
  intro s hinv hloaded hturns hb
  have hrunning : s.Running := ⟨hinv, hloaded, hturns, hb⟩
  have hends := hrunning.ends.mono (hinv.stepsLeft_range hb).2 fun _ ht => ht
  obtain ⟨t, hrun, -, hend⟩ := hends.runFor fun t ht => ⟨ht.1, ht.2.not_busy⟩
  exact ⟨t, hrun, hend⟩

end Sys2Proof.Machine
end

section
/-! PROOFS. The items of the LZ stream one by one: the order of the control bits (R142), the overlap law of the copy
(R149), what an item emits or leaves alone (R150, R152), and the checks before the capacity (R151). -/

namespace Sys2Proof.Machine

/-! Token decisions (R142). -/

/-- `CW_CNT` has room for every count below its own (R27). -/
theorem toNat_ofNat_cwCnt_sub (s : State) (k : Nat) :
    (BitVec.ofNat 5 (s.cwCnt.toNat - k)).toNat = s.cwCnt.toNat - k :=
  Nat.mod_eq_of_lt (Nat.lt_of_le_of_lt (Nat.sub_le ..) s.cwCnt.isLt)

theorem tokenDecision_iterate (s : State) (k : Nat) :
    State.tokenDecision^[k] s = { s with cw := s.cw <<< k, cwCnt := BitVec.ofNat 5 (s.cwCnt.toNat - k) } := by
  induction k with
  | zero => simp
  | succ k ih =>
    rw [Function.iterate_succ_apply', ih, State.tokenDecision]
    simp only [toNat_ofNat_cwCnt_sub, BitVec.shiftLeft_add, Nat.sub_sub]

/-- Of the token contexts the one of control bit 0 is the literal's (R105). -/
theorem Instr.eq_lit_iff {i : Instr} {bit : Bool} (h : i.context = .token bit) : bit = false ↔ ∃ b, i = .lit b := by
  cases i with
  | lit | srun | lrun | brefx | bref => cases h; simp
  | _ => cases h

/-- Settles O12: `k` decisions shift the word by `k`, so its bit 15 is bit `15 - k` of the word loaded. -/
theorem tokenDecisionOrder : Obligations.TokenDecisionOrder := by
  unfold Obligations.TokenDecisionOrder
  intro s k hk hlt
  have hbit : (s.cw <<< k).getLsbD 15 = s.cw.getLsbD (15 - k) := by
    rw [BitVec.getLsbD_shiftLeft]
    simp [Nat.not_lt.mpr hk]
  have hcnt := toNat_ofNat_cwCnt_sub s k
  have hne : BitVec.ofNat 5 (s.cwCnt.toNat - k) ≠ 0 := by
    intro h0
    rw [h0] at hcnt
    change 0 = _ at hcnt
    omega
  have hctx : State.lzContext { s with cw := s.cw <<< k, cwCnt := BitVec.ofNat 5 (s.cwCnt.toNat - k) } =
      .token (s.cw.getLsbD (15 - k)) := (if_neg hne).trans (congrArg Context.token hbit)
  rw [tokenDecision_iterate]
  exact ⟨hbit, rfl, hcnt, rfl, hctx, fun bytes rest i hd => Instr.eq_lit_iff ((decode_context hd).trans hctx)⟩

/-! The overlap law (R149). -/

/-- Where each byte of a range is the byte `offset` before it, the range repeats the `offset` bytes before it. -/
theorem Mem.read_cyclic {m : Mem} {p offset n : Nat} (ho : 1 ≤ offset) (hoff : offset ≤ p)
    (hcopy : ∀ q, p ≤ q → q < p + n → Mem.read m q = Mem.read m (q - offset)) (j : Nat) (hj : j < n) :
    Mem.read m (p + j) = Mem.read m (p - offset + j % offset) := by
  rw [hcopy (p + j) (by omega) (by omega)]
  by_cases hlt : j < offset
  · rw [Nat.mod_eq_of_lt hlt, Nat.sub_add_comm hoff]
  · have hback : offset ≤ j := Nat.le_of_not_lt hlt
    rw [Nat.add_sub_assoc hback, Mem.read_cyclic ho hoff hcopy (j - offset) (by omega), ← Nat.mod_eq_sub_mod hback]
termination_by j

/-- Settles O18: the copy answers, and the bytes before the cursor, which it repeats, are those that stood there. -/
theorem copyOverlapLaw : Obligations.CopyOverlapLaw := by
  unfold Obligations.CopyOverlapLaw
  intro s offset n ho hoff hfits hout
  have hwrap := State.no_wrap_of_fits hfits
  obtain ⟨t, ht⟩ := copyLoop_answers offset ho n s hoff hwrap (hfits.trans s.ecap_le.1) hout
  obtain ⟨-, -, hkept, hcopied, -, -⟩ := copyLoop_spec offset ho n s t hoff hwrap ht
  have hcopy := fun q hq hlt => (hcopied q hq hlt).1
  refine ⟨t, ht, fun k => ?_, hcopy, fun j hj => ?_⟩
  · exact (if_neg (Nat.not_lt.mpr hoff)).trans ((if_pos hfits).trans (andThen_of_ok ht _))
  · have hmod := Nat.mod_lt j ho
    rw [Mem.read_cyclic ho hoff hcopy j hj, hkept _ (.inl (by omega))]

/-! What an item of the stream emits, in whatever stage it runs (R150, R152). -/

/-- How many bytes an item of the stream emits (R141, R143 to R147). -/
def emitLength : Instr → Nat
  | .lit _ => 1
  | .srun l _ => srunLength l
  | .lrun l n1 _ => lrunLength l n1
  | .brefx _ _ n => brefxLength n
  | .bref h _ _ => brefLength h
  | _ => 0

/-- What an item that emits `n` bytes answers: a raise, at most the control bits having changed before it, or a state
further on by its output. -/
inductive State.ItemAnswer (s : State) (n : Nat) : State → Prop
  | raised {cw : BitVec 16} {cnt : BitVec 5} {cause : ErrCause} :
      s.ItemAnswer n ({ s with cw := cw, cwCnt := cnt }.errorEntry .decodeError cause)
  | emitted {t : State} (hstate : t.state = s.state) (hpos : t.outPos.toNat = s.outPos.toNat + n) : s.ItemAnswer n t

theorem runToken_itemAnswer {s t : State} {n k : Nat} {b : Byte} (h : runToken n b k s.tokenDecision = .next t) :
    s.ItemAnswer n t := by
  obtain ⟨hfits, hr⟩ | ⟨-, hr⟩ := runToken_cases n b k s.tokenDecision
  · cases hr.symm.trans h
    obtain ⟨-, -, -, -, -, -, -, -, hstate⟩ := (State.emitRun_onlyOutput b n s.tokenDecision).fields
    exact .emitted hstate (State.emitRun_outPos b n s.tokenDecision (State.no_wrap_of_fits hfits))
  · cases hr.symm.trans h
    exact .raised

theorem backCopy_itemAnswer {s t : State} {offset n k : Nat} (ho : 0 < offset)
    (h : backCopy offset n k s.tokenDecision = .next t) : s.ItemAnswer n t := by
  obtain ⟨-, hr⟩ | ⟨-, -, hr⟩ | ⟨hoff, hfits, ⟨u, hu, hr⟩ | ⟨f, -, hr⟩⟩ := backCopy_cases offset n k s.tokenDecision
  · cases hr.symm.trans h
    exact .raised
  · cases hr.symm.trans h
    exact .raised
  · cases hr.symm.trans h
    obtain ⟨honly, hpos, -⟩ := copyLoop_spec offset ho n _ u hoff (State.no_wrap_of_fits hfits) hu
    obtain ⟨-, -, -, -, -, -, -, -, hstate⟩ := honly.fields
    exact .emitted hstate hpos
  · cases hr.symm.trans h

theorem codedToken_itemAnswer {s t : State} {n k : Nat} {body : State → Result}
    (hbody : body s.tokenDecision = .next t → s.ItemAnswer n t) (h : codedToken k s body = .next t) :
    s.ItemAnswer n t := by
  obtain ⟨-, hr⟩ | ⟨-, hr⟩ := codedToken_cases k s body
  · cases hr.symm.trans h
    exact .raised
  · exact hbody (hr.symm.trans h)

theorem execCwload_itemAnswer {s t : State} {b0 b1 : Byte} (h : execCwload b0 b1 s = .next t) : s.ItemAnswer 0 t := by
  unfold execCwload at h
  split at h <;> cases h
  · exact .raised (cw := s.cw) (cnt := s.cwCnt)
  · exact .emitted rfl rfl

/-- Everything an item of the stream can answer, in any stage. -/
theorem exec_itemAnswer {s t : State} {i : Instr} (hh : i.context ≠ .header) (hf : i.context ≠ .flagByte)
    (h : exec i s = .next t) : s.ItemAnswer (emitLength i) t := by
  cases i with
  | cwload b0 b1 => exact execCwload_itemAnswer h
  | lit b => exact runToken_itemAnswer h
  | srun l b => exact codedToken_itemAnswer runToken_itemAnswer h
  | lrun l n1 b => exact codedToken_itemAnswer runToken_itemAnswer h
  | brefx l o n => exact codedToken_itemAnswer (backCopy_itemAnswer (Nat.succ_pos _)) h
  | bref hi l o => exact codedToken_itemAnswer (backCopy_itemAnswer (Nat.succ_pos _)) h
  | frame => exact absurd rfl hh
  | blkRaw | blkLz | blkHuf | blkHufLz => exact absurd rfl hf

/-- An item after which the run goes on has not raised. -/
theorem exec_outPos_of_busy {s t : State} {i : Instr} (h : exec i s = .next t) (hb : t.state = .busy)
    (hh : i.context ≠ .header) (hf : i.context ≠ .flagByte) : t.outPos.toNat = s.outPos.toNat + emitLength i := by
  cases exec_itemAnswer hh hf h with
  | raised => cases hb
  | emitted _ hpos => exact hpos

/-- Settles O22: each item emits its length, and the fields of the token bound that length. -/
theorem everyTokenEmits : Obligations.EveryTokenEmits := by
  unfold Obligations.EveryTokenEmits
  intro s t _ hb
  refine ⟨fun b h => ?_, fun l b h => ?_, fun l n1 b h => ?_, fun hi l o hwf h => ?_, fun l o n h => ?_,
    fun b0 b1 h => ?_⟩ <;> have hpos := exec_outPos_of_busy h hb nofun nofun
  · exact hpos
  · have hlen : emitLength (Instr.srun l b) = l.toNat + 3 := rfl
    have := l.isLt
    omega
  · have hlen : emitLength (Instr.lrun l n1 b) = l.toNat + 16 * n1.toNat + 19 := rfl
    have := l.isLt
    have := n1.isLt
    omega
  · have hlen : emitLength (Instr.bref hi l o) = hi.toNat := rfl
    have hmin : 3 ≤ hi.toNat := of_decide_eq_true hwf
    have := hi.isLt
    omega
  · have hlen : emitLength (Instr.brefx l o n) = n.toNat + 16 := rfl
    have := n.isLt
    omega
  · exact BitVec.eq_of_toNat_eq hpos

/-- Settles O23: an item that ends the run has raised, and a raise keeps the output and the source cursor. -/
theorem raisingTokenWritesNothing : Obligations.RaisingTokenWritesNothing := by
  unfold Obligations.RaisingTokenWritesNothing
  intro s t i hb hh hf h herr
  cases exec_itemAnswer hh hf h with
  | raised => exact ⟨rfl, rfl, rfl, rfl⟩
  | emitted hstate _ => cases herr.symm.trans (hstate.trans hb)

/-! The checks before the capacity (R151). -/

/-- Settles O19: the check for the item's bytes comes first. -/
theorem truncationRaises : Obligations.TruncationRaises := by
  unfold Obligations.TruncationRaises
  intro s
  exact ⟨fun hleft b0 b1 => if_pos hleft, fun hleft l b => exec_of_truncated rfl hleft,
    fun hleft l n1 b => exec_of_truncated rfl hleft, fun hleft h l o => exec_of_truncated rfl hleft,
    fun hleft l o n => exec_of_truncated rfl hleft⟩

theorem backCopy_of_outOfRange {s : State} {offset : Nat} (h : s.outPos.toNat < offset) (n k : Nat) :
    backCopy offset n k s = .next (s.errorEntry .decodeError .brefRange) :=
  if_pos h

/-- Settles O20: the token's bytes being there, the range is checked before the capacity. -/
theorem backReferenceRangeRaises : Obligations.BackReferenceRangeRaises := by
  unfold Obligations.BackReferenceRangeRaises
  intro s l o hrange
  exact ⟨fun hleft h => (codedToken_of_left hleft _).trans (backCopy_of_outOfRange (s := s.tokenDecision) hrange _ 2),
    fun hleft n => (codedToken_of_left hleft _).trans (backCopy_of_outOfRange (s := s.tokenDecision) hrange _ 3)⟩

end Sys2Proof.Machine
end

section
/-! PROOFS. Stage HUFF on a bitstream that stands in `IN_MEM` (R171 to R173, R176). -/

namespace Sys2Proof.Machine

section
variable {s : State} {enc : List Byte}

/-- The bitstream `payload[3:]` of every frame that `PAYLEN` can announce lies inside `IN_MEM` (R40, R171). -/
theorem readInBytes_bitstream (hlen : enc.length = s.paylen.toNat - 3) (henc : Mem.holds s.inMem 7 enc) :
    readInBytes s 7 (s.paylen.toNat - 3) = .ok enc := by
  have hmax := s.paylen.isLt
  rw [← hlen]
  exact readInBytes_of_holds (show 7 + enc.length ≤ 65539 by omega) henc

/-- Once the bitstream is read, an error of `HUFF` is raised (R173). -/
theorem huffStep_of_huffError {r : HuffError} (hread : readInBytes s 7 (s.paylen.toNat - 3) = .ok enc)
    (hhuff : Config.huff enc s.prelz.toNat = .error r) (after : Stage) :
    huffStep after s = .next (s.errorEntry .decodeError (huffCause r)) := by
  refine (andThen_of_ok hread _).trans ?_
  rw [hhuff, ← huffCause_kind r]

/-- Once the bitstream is read, the bytes of `HUFF` go to `MID_MEM` and the next stage comes (R172, R176). -/
theorem huffStep_of_huffOk {m : { m : List Byte // m.length = s.prelz.toNat }}
    (hread : readInBytes s 7 (s.paylen.toNat - 3) = .ok enc)
    (hhuff : Config.huff enc s.prelz.toNat = .ok m) (after : Stage) :
    huffStep after s = .next { s with midMem := s.midMem.writeList 0 m.val, stage := after } := by
  refine (andThen_of_ok hread _).trans ?_
  rw [hhuff]

end

/-- Settles O28: both block modes take the HUFF step on the bitstream, and `HUFF` decides its answer. -/
theorem huffStageAppliesHuff : Obligations.HuffStageAppliesHuff := by
  unfold Obligations.HuffStageAppliesHuff
  intro s x pre enc hg hlen henc
  obtain ⟨hhuf, hhufLz⟩ := exec_of_huff hg x pre
  have hread := readInBytes_bitstream hlen henc
  cases hhuff : Config.huff enc s.prelz.toNat with
  | error r =>
    have hstep := huffStep_of_huffError hread hhuff
    exact ⟨_, hhuf.trans (hstep .raw), hhufLz.trans (hstep .lz), rfl⟩
  | ok m =>
    have hstep := huffStep_of_huffOk hread hhuff
    have hsize : m.val.length = s.prelz.toNat := m.property
    have habove : ∀ a, s.prelz.toNat ≤ a → Mem.read (s.midMem.writeList 0 m.val) a = Mem.read s.midMem a :=
      fun a ha => (Mem.read_writeList m.val s.midMem 0 a).trans (if_neg (by omega))
    exact ⟨_, _, hhuf.trans (hstep .raw), rfl, hhufLz.trans (hstep .lz), rfl, rfl,
      Mem.holds_writeList s.midMem 0 m.val, habove, rfl, rfl⟩

end Sys2Proof.Machine
end

section
/-! PROOFS. The error entry (R196). -/

namespace Sys2Proof.Machine

/-- With its six registers put back, the error entry is the state that raised (R196). -/
theorem State.errorEntry_restore (s : State) (kind : ErrKind) (cause : ErrCause) :
    { s.errorEntry kind cause with errKind := s.errKind, errCause := s.errCause, errPos := s.errPos, outLen := s.outLen,
                                   consumed := s.consumed, state := s.state } = s := rfl

/-- The error entry is not `BUSY`, so the engine has no step (R196). -/
theorem engineTurn_errorEntry (s : State) (kind : ErrKind) (cause : ErrCause) :
    engineTurn (s.errorEntry kind cause) = .next (s.errorEntry kind cause) :=
  engineTurn_of_not_busy _ (by simp)

/-- Settles O33: register by register; the stage that raised decides `ERR_POS`. -/
theorem errorEntrySavesExactly : Obligations.ErrorEntrySavesExactly := by
  unfold Obligations.ErrorEntrySavesExactly
  intro s kind cause
  have hpos := s.errorEntry_errPos kind cause
  exact ⟨s.errorEntry_errKind kind cause, s.errorEntry_errCause kind cause,
    fun hsource => hpos.trans (if_pos hsource), fun hsource => hpos.trans (if_neg hsource),
    s.errorEntry_outLen kind cause, s.errorEntry_consumed kind cause, s.errorEntry_state kind cause,
    s.errorEntry_restore kind cause, engineTurn_errorEntry s kind cause⟩

end Sys2Proof.Machine
end

section
/-! PROOFS. The legal changes of `STATE` (R215): what each turn, of the engine or of the host, makes of it. -/

namespace Sys2Proof.Machine

/-! The engine. -/

/-- A move of the engine ends in `DONE` from FINISH only; every other move stays `BUSY` or raises (R215). -/
theorem EngineMove.phase_cases {s t : State} (hm : EngineMove s t) (hb : s.state = .busy) :
    t.state = .busy ∨ (t.state = .done ∧ s.stage = .finish) ∨ t.state = .error := by
  cases hm with
  | raised => exact .inr (.inr rfl)
  | finished hstage => exact .inr (.inl ⟨rfl, hstage⟩)
  | enteredPlain | enteredHuffman | huffDecoded | lzEnded | cwLoaded | tokenEmitted | rawCopied => exact .inl hb

/-- The FINISH step always reports: it has no check that could raise (R129). -/
theorem engineTurn_finish_state {s t : State} (hb : s.state = .busy) (hg : s.stage = .finish)
    (h : engineTurn s = .next t) : t.state = .done := by
  cases (engineTurn_of_finish hb hg).symm.trans h
  rfl

/-- What a turn of the engine makes of `STATE`, in the rows of R215 that are the engine's. -/
theorem engineTurn_phaseChange {s t : State} (h : engineTurn s = .next t) :
    (s.state ≠ .busy → t.state = s.state) ∧
    (s.state = .busy → t.state = .busy ∨ t.state = .done ∨ t.state = .error) ∧
    (s.state = .busy → (t.state = .done ↔ s.stage = .finish)) := by
  refine ⟨fun hb => ?_, fun hb => ?_, fun hb => ⟨fun hdone => ?_, fun hg => engineTurn_finish_state hb hg h⟩⟩
  · cases (engineTurn_of_not_busy s hb).symm.trans h
    rfl
  · exact ((engineTurn_engineMove hb h).phase_cases hb).imp_right (Or.imp_left And.left)
  · obtain hbusy | ⟨-, hg⟩ | herr := (engineTurn_engineMove hb h).phase_cases hb
    · cases hdone.symm.trans hbusy
    · exact hg
    · cases hdone.symm.trans herr

/-- A turn that is not a move of the host's is the engine's, the list of turns being none of the engine's concern. -/
theorem step_of_not_move {s : State} (h : ∀ m rest, s.hostTurns ≠ .move m :: rest) :
    ∃ rest, step s = engineTurn { s with hostTurns := rest } := by
  cases hs : s.hostTurns with
  | nil => exact ⟨s.hostTurns, step_of_no_turns s hs⟩
  | cons turn rest =>
    cases turn with
    | pass => exact ⟨rest, step_of_pass hs⟩
    | move m => exact absurd hs (h m rest)

/-! The host. -/

/-- What a write of `CTRL` makes of `STATE`, by its two bits and the state it meets (R38, R215). -/
theorem hostMove_ctrl_phaseChange (s : State) (v : BitVec 32) :
    (s.state = .busy → (hostMove (.writeReg 0 v) s).state = .busy) ∧
    (s.state ≠ .busy → v.getLsbD 0 = true → (hostMove (.writeReg 0 v) s).state = .busy) ∧
    (s.state ≠ .busy → v.getLsbD 0 = false → v.getLsbD 1 = true → (hostMove (.writeReg 0 v) s).state = .idle) ∧
    (v.getLsbD 0 = false → v.getLsbD 1 = false → (hostMove (.writeReg 0 v) s).state = s.state) := by
  obtain ⟨hstart, hclear, hkept⟩ := ctrlCommands s v
  refine ⟨fun hb => ?_, fun hb h0 => ?_, fun hb h0 h1 => ?_, fun h0 h1 => ?_⟩
  · rw [hkept (.inl hb), hb]
  · rw [hstart hb h0]
  · cases hs : s.state with
    | busy => exact absurd hs hb
    | idle => rw [hkept (.inr ⟨h0, .inr hs⟩), hs]
    | done => rw [hclear (.inl hs) h0 h1]
    | error => rw [hclear (.inr hs) h0 h1]
  · rw [hkept (.inr ⟨h0, .inl h1⟩)]

/-- Only reset and a write of `CTRL` let the host change `STATE` (R215). -/
theorem hostMove_keeps_state {m : HostMove} (hreset : m ≠ .reset) (hctrl : ∀ v, m ≠ .writeReg 0 v) (s : State) :
    (hostMove m s).state = s.state := by
  cases m with
  | writeReg n v =>
    rw [hostMove]
    unfold State.writeReg
    split
    · exact absurd rfl (hctrl v)
    · split <;> rfl
    · split <;> rfl
    · rfl
  | readReg n =>
    obtain ⟨p, i, h⟩ := readReg_answers s n
    rw [hostMove, h]
  | writeIn a b =>
    rw [hostMove]
    unfold State.writeIn
    split <;> rfl
  | readOut a =>
    obtain ⟨p, i, h⟩ := readOut_answers s a
    rw [hostMove, h]
  | reset => exact absurd rfl hreset

/-- Settles O44: turn by turn; `DONE` is met exactly from FINISH since no other move reports and FINISH always does. -/
theorem legalPhaseChanges : Obligations.LegalPhaseChanges := by
  unfold Obligations.LegalPhaseChanges
  intro s t hstep
  split
  case h_1 hs =>
    cases (step_of_move hs).symm.trans hstep
    rfl
  case h_2 v rest hs =>
    cases (step_of_move hs).symm.trans hstep
    exact hostMove_ctrl_phaseChange { s with hostTurns := rest } v
  case h_3 m rest hreset hctrl hs =>
    cases (step_of_move hs).symm.trans hstep
    exact hostMove_keeps_state (fun h => hreset (h ▸ rfl)) (fun v h => hctrl v (h ▸ rfl)) _
  case h_4 hmove =>
    obtain ⟨rest, hturn⟩ := step_of_not_move (s := s) hmove
    have hphase := engineTurn_phaseChange (hturn.symm.trans hstep)
    exact hphase

end Sys2Proof.Machine
end
